-- ==== Sys2Proof/Word.lean ====
section
/-! DEFINITION. The word types of HMC-CORE (00_scope.md section 6): a word is 32 bits, a payload character and an error
code are 8 bits, a Symbol is held zero-extended to a word (20_memory.md R63). -/

namespace Sys2Proof

/-- The 32-bit word every transaction moves (20_memory.md R62). -/
abbrev Word := BitVec 32

/-- A payload character or an error code (20_memory.md R63). -/
abbrev Byte := BitVec 8

/-- A Symbol, an unsigned number below `2^SYM_W` (10_state.md R21), held zero-extended to a word. -/
abbrev Symbol := Word

/-- `NONE`, the absent handle (30_encoding.md R101). -/
def noneHandle : Word := 0xFFFFFFFF#32

end Sys2Proof
end

