-- ==== Sys2Proof/Machine/Binary64.lean ====
section
/-! DEFINITION. The binary64 operations of STATS (30_encoding.md R100, 47_facade.md R222): the exact result of finite
operands, rounded once to nearest, ties to even. -/

namespace Sys2Proof.Machine

/-- A finite binary64 as an exact number: `mant × 2^exp`, negated when `neg`. -/
structure Exact where
  neg : Bool
  mant : Nat
  exp : Int
  deriving DecidableEq, Repr

/-- The exact number a finite binary64 stands for (30_encoding.md R100): bit 63 the sign, bits 62:52 the exponent with bias
1023, bits 51:0 the fraction. -/
def exactOf (x : BitVec 64) : Exact :=
  let e := (x.extractLsb' 52 11).toNat
  let f := (x.extractLsb' 0 52).toNat
  if e = 0 then ⟨x.getLsbD 63, f, -1074⟩ else ⟨x.getLsbD 63, 2 ^ 52 + f, (e : Int) - 1075⟩

/-- `num / den` rounded to the nearest integer, ties to even; `den > 0`. -/
def roundDiv (num den : Nat) : Nat :=
  if 2 * (num % den) < den then num / den
  else if den < 2 * (num % den) then num / den + 1
  else num / den + num / den % 2

/-- `2^e` for `e ≥ 0`, and 1 below. -/
def pow2 (e : Int) : Nat := 2 ^ e.toNat

/-- The greatest `e` with `2^e ≤ num / den`, for `num > 0` and `den > 0`. -/
def floorLog2 (num den : Nat) : Int :=
  let e : Int := (num.log2 : Int) - (den.log2 : Int)
  if num * pow2 (-e) < den * pow2 e then e - 1 else e

/-- The binary64 magnitude nearest to `num / den`, ties to even, `den > 0`: the quotient in units of the last place of its
binade (of the least subnormal below the normal range), under the exponent that unit stands for; past the greatest finite
number, infinity. -/
def roundMagnitude (num den : Nat) : Nat :=
  if num = 0 then 0
  else
    let q : Int := max (floorLog2 num den - 52) (-1074)
    let m := roundDiv (num * pow2 (-q)) (den * pow2 q)
    min ((q + 1074).toNat * 2 ^ 52 + m) 0x7FF0000000000000

/-- The binary64 nearest to `num / den`, with a sign. -/
def f64Round (neg : Bool) (num den : Nat) : BitVec 64 :=
  BitVec.ofNat 64 ((if neg then 2 ^ 63 else 0) + roundMagnitude num den)

/-- `toF`, a 32-bit unsigned integer as a binary64 (47_facade.md R222: exact). -/
def toF (w : Word) : BitVec 64 := f64Round false w.toNat 1

/-- `fdiv` of finite operands with a non-zero divisor (47_facade.md R222). -/
def fdiv (a b : BitVec 64) : BitVec 64 :=
  let x := exactOf a
  let y := exactOf b
  f64Round (x.neg != y.neg) (x.mant * pow2 (x.exp - y.exp)) (y.mant * pow2 (y.exp - x.exp))

/-- The signed mantissa of an exact number in units of `2^e`, for `e` at most its exponent. -/
def Exact.scaled (x : Exact) (e : Int) : Int :=
  if x.neg then -((x.mant * pow2 (x.exp - e) : Nat) : Int) else ((x.mant * pow2 (x.exp - e) : Nat) : Int)

/-- `fsub` of finite operands (47_facade.md R222). An exact zero is +0.0, but for −0.0 minus +0.0. -/
def fsub (a b : BitVec 64) : BitVec 64 :=
  let x := exactOf a
  let y := exactOf b
  let e := min x.exp y.exp
  let d := x.scaled e - y.scaled e
  f64Round (if d = 0 then x.neg && !y.neg && x.mant == 0 else d < 0) (d.natAbs * pow2 e) (pow2 (-e))

/-- `fmul` of finite operands (47_facade.md R222). -/
def fmul (a b : BitVec 64) : BitVec 64 :=
  let x := exactOf a
  let y := exactOf b
  let e := x.exp + y.exp
  f64Round (x.neg != y.neg) (x.mant * y.mant * pow2 e) (pow2 (-e))

/-- The binary64 1.0. -/
def f64One : BitVec 64 := 0x3FF0000000000000#64

/-- The binary64 100.0. -/
def f64Hundred : BitVec 64 := 0x4059000000000000#64

end Sys2Proof.Machine
end

