-- ==== Sys2Proof/Machine/Base64.lean ====
section
/-! DEFINITION. Bits into bytes and the text-safe form (30_encoding.md R96 to R99). -/

namespace Sys2Proof.Machine

/-! ## Bits and bytes (R96) -/

/-- The byte whose bit 7 is the first of eight bits (R96). -/
def byteOfBits (b₀ b₁ b₂ b₃ b₄ b₅ b₆ b₇ : Bool) : Byte :=
  BitVec.ofNat 8 (128 * b₀.toNat + 64 * b₁.toNat + 32 * b₂.toNat + 16 * b₃.toNat + 8 * b₄.toNat + 4 * b₅.toNat
    + 2 * b₆.toNat + b₇.toNat)

/-- The eight bits of a byte, bit 7 first (R96). -/
def bitsOfByte (b : Byte) : List Bool :=
  [b.getLsbD 7, b.getLsbD 6, b.getLsbD 5, b.getLsbD 4, b.getLsbD 3, b.getLsbD 2, b.getLsbD 1, b.getLsbD 0]

/-- Groups bits into bytes (R96); for a length that is a multiple of 8, as PACK's padding makes it. -/
def bytesOfBits : List Bool → List Byte
  | b₀ :: b₁ :: b₂ :: b₃ :: b₄ :: b₅ :: b₆ :: b₇ :: rest => byteOfBits b₀ b₁ b₂ b₃ b₄ b₅ b₆ b₇ :: bytesOfBits rest
  | _ => []

/-- Expands each byte into eight bits (R96). -/
def bitsOfBytes : List Byte → List Bool
  | [] => []
  | b :: rest => bitsOfByte b ++ bitsOfBytes rest

/-! ## The alphabet (R98) -/

/-- The pad character `=`. -/
def padChar : Byte := 0x3D#8

/-- `A(x)`, the character of a 6-bit value (R98). -/
def b64Char (x : Nat) : Byte :=
  if x < 26 then BitVec.ofNat 8 (0x41 + x)
  else if x < 52 then BitVec.ofNat 8 (0x61 + (x - 26))
  else if x < 62 then BitVec.ofNat 8 (0x30 + (x - 52))
  else if x = 62 then 0x2B#8
  else 0x2F#8

/-- `V`, the inverse of `A`: the value of an alphabet character (R98, R99). -/
def b64Value (c : Byte) : Option Nat :=
  if 0x41 ≤ c.toNat ∧ c.toNat ≤ 0x5A then some (c.toNat - 0x41)
  else if 0x61 ≤ c.toNat ∧ c.toNat ≤ 0x7A then some (c.toNat - 0x61 + 26)
  else if 0x30 ≤ c.toNat ∧ c.toNat ≤ 0x39 then some (c.toNat - 0x30 + 52)
  else if c.toNat = 0x2B then some 62
  else if c.toNat = 0x2F then some 63
  else none

/-! ## B64Enc (R97) -/

/-- The six bits of `v` from bit `lo` up. -/
def sextet (v lo : Nat) : Nat := v / 2 ^ lo % 64

/-- A whole group: three bytes, the first most significant, to four characters (R97). -/
def encGroup (v : Nat) : List Byte :=
  [b64Char (sextet v 18), b64Char (sextet v 12), b64Char (sextet v 6), b64Char (sextet v 0)]

/-- `B64Enc` (R97). -/
def b64Enc : List Byte → List Byte
  | [] => []
  | [x] =>
    let v := x.toNat * 2 ^ 4
    [b64Char (sextet v 6), b64Char (sextet v 0), padChar, padChar]
  | [x, y] =>
    let v := x.toNat * 2 ^ 10 + y.toNat * 2 ^ 2
    [b64Char (sextet v 12), b64Char (sextet v 6), b64Char (sextet v 0), padChar]
  | x :: y :: z :: rest => encGroup (x.toNat * 2 ^ 16 + y.toNat * 2 ^ 8 + z.toNat) ++ b64Enc rest

/-! ## B64Dec (R99) -/

/-- The byte of `v` from bit `lo` up. -/
def octet (v lo : Nat) : Byte := BitVec.ofNat 8 (v / 2 ^ lo)

/-- Four alphabet characters to three bytes; `none` when one is no alphabet character (R99, conditions 2 and 3). -/
def decGroup (x y z w : Byte) : Option (List Byte) :=
  match b64Value x, b64Value y, b64Value z, b64Value w with
  | some a, some b, some c, some d =>
    let v := a * 2 ^ 18 + b * 2 ^ 12 + c * 2 ^ 6 + d
    some [octet v 16, octet v 8, octet v 0]
  | _, _, _, _ => none

/-- The last group: `x y = =` and `x y z =` with their unused low bits zero, else a whole group (R99, conditions 3 to 5). -/
def decLast (x y z w : Byte) : Option (List Byte) :=
  if w = padChar then
    if z = padChar then
      match b64Value x, b64Value y with
      | some a, some b => if b % 16 = 0 then some [octet (a * 2 ^ 6 + b) 4] else none
      | _, _ => none
    else
      match b64Value x, b64Value y, b64Value z with
      | some a, some b, some c =>
        let v := a * 2 ^ 12 + b * 2 ^ 6 + c
        if c % 4 = 0 then some [octet v 10, octet v 2] else none
      | _, _, _ => none
  else decGroup x y z w

/-- `B64Dec` (R99): `none` is its failure. A length that is no multiple of 4 fails (condition 1). -/
def b64Dec : List Byte → Option (List Byte)
  | [] => some []
  | [x, y, z, w] => decLast x y z w
  | x :: y :: z :: w :: rest =>
    match decGroup x y z w, b64Dec rest with
    | some g, some bytes => some (g ++ bytes)
    | _, _ => none
  | _ => none

end Sys2Proof.Machine
end

