-- ==== Sys2Proof/Config.lean ====
section
/-! DEFINITION. What an implementation fixes (the parameters of 00_scope.md R8) and the free values, which have no body
(00_scope.md section 6: `UNSPEC` is a value no rule fixes). -/

namespace Sys2Proof

/-- The open parameters of 00_scope.md R8. They stand in State as a constant (DESIGN CHOICE, log 1). -/
structure Params where
  /-- `SYM_W`, the width of a Symbol in bits. -/
  symW : Nat
  /-- `MAX_TXT`, the capacity of TXT in symbols. -/
  maxTxt : Nat
  /-- `MAX_SYMS`, the capacity of FT in distinct symbols. -/
  maxSyms : Nat
  /-- `MAX_BITS`, the capacity of BITS in bits. -/
  maxBits : Nat
  /-- `MAX_PAY`, the capacity of PAY in characters. -/
  maxPay : Nat
  deriving DecidableEq, Repr

/-- The reference configuration REF, last column of 00_scope.md R8. -/
def Params.ref : Params where
  symW := 21
  maxTxt := 1048576
  maxSyms := 4096
  maxBits := 16777216
  maxPay := 2796204

/-- `MAX_NODES = 2 × MAX_SYMS` (00_scope.md R8). -/
def Params.maxNodes (p : Params) : Nat := 2 * p.maxSyms

/-- `MAX_DEPTH = MAX_NODES − 1` (00_scope.md R8). -/
def Params.maxDepth (p : Params) : Nat := p.maxNodes - 1

/-- `CODE_WORDS = ceil(MAX_DEPTH / 32)` (00_scope.md R8). -/
def Params.codeWords (p : Params) : Nat := (p.maxDepth + 31) / 32

/-- What a free value stands for, so that two of them are never the same value by construction. -/
inductive FreeKey where
  /-- The word at an index of a buffer's space that no one wrote (20_memory.md R80). -/
  | cell (space index : Nat)
  /-- A length, count or handle register that a failed stage lists under "writes" (60_exceptions.md R253 (c)). -/
  | csr (index : Nat)
  /-- What a read other than of STATUS returns while BUSY = 1 (20_memory.md R65). -/
  | busyRead
  /-- A weight that falls outside 32 bits (reachable only from an unspecified FT, DESIGN CHOICE, log 10). -/
  | weight (handle : Nat)
  deriving DecidableEq, Repr

/-- Every UNSPEC word, drawn at the moment numbered by its first argument. It has no body: nothing can be proved of its
value (93_implementation_defined.md U10 to U13, U15; log 2 and 3). -/
opaque Config.freeWord : Nat → FreeKey → Word

/-- How many pending host events are served while BUSY = 1 before the command ends (40_command_dispatch.md R128,
93_implementation_defined.md U14; DESIGN CHOICE, log 4). It has no body. -/
opaque Config.busyPolls : Nat → Nat

end Sys2Proof
end

