-- ==== Sys2Proof/Syntax.lean ====
section
/-! DEFINITION. The ten commands of 30_encoding.md R91, one constructor per row of spec/opcode_table.json. A command word
carries no operand (30_encoding.md R93), so no constructor has an argument. -/

namespace Sys2Proof

/-- A command (30_encoding.md R91). -/
inductive Instr where
  /-- FREQ, FrequencyAnalyzer (41_frequency_analyzer.md R141). -/
  | freq
  /-- BUILD, HuffmanTreeBuilder (42_tree_builder.md R155). -/
  | build
  /-- GEN, CodeTableGenerator (43_code_table_generator.md R172). -/
  | gen
  /-- ENCODE, Encoder (44_encoder.md R181). -/
  | encode
  /-- PACK, BitPacker `pack` (46_bit_packer.md R201). -/
  | pack
  /-- UNPACK, BitPacker `unpack` (46_bit_packer.md R203). -/
  | unpack
  /-- DECODE, Decoder (45_decoder.md R191). -/
  | decode
  /-- COMPRESS, CompressionFacade (47_facade.md R220). -/
  | compress
  /-- DECOMPRESS, CompressionFacade (47_facade.md R223). -/
  | decompress
  /-- CLEAR (47_facade.md R225). -/
  | clear
  deriving DecidableEq, Repr

/-- The fields of the one command format CMD (30_encoding.md R90). -/
structure CmdFields where
  /-- bits [31:8], which must be 0. -/
  rsvd : BitVec 24
  /-- bits [7:0], which select the command. -/
  opcode : Byte
  deriving DecidableEq, Repr

end Sys2Proof
end

