-- ==== Sys2Proof/WellFormed.lean ====
section
/-! DEFINITION. The checks on what the host or an implementation supplies: a command (nothing to check: it has no operand,
30_encoding.md R93), the fields of a command word (R90 to R92), and the parameters (00_scope.md R8). -/

namespace Sys2Proof

/-- Every command is well-formed: it carries no operand that could be out of range (30_encoding.md R93). -/
def Instr.wellFormed : Instr → Bool
  | .freq => true
  | .build => true
  | .gen => true
  | .encode => true
  | .pack => true
  | .unpack => true
  | .decode => true
  | .compress => true
  | .decompress => true
  | .clear => true

/-- A command word is legal when `rsvd` is 0 and the opcode is one of the ten (30_encoding.md R91, R92). -/
def CmdFields.wellFormed (f : CmdFields) : Bool :=
  f.rsvd == 0 && ((1 ≤ f.opcode.toNat && f.opcode.toNat ≤ 9) || f.opcode.toNat == 15)

/-- The constraints of 00_scope.md R8 on the open parameters. -/
abbrev Params.Valid (p : Params) : Prop :=
  (1 ≤ p.symW ∧ p.symW ≤ 32) ∧
  (1 ≤ p.maxTxt ∧ p.maxTxt < 2 ^ 29) ∧
  (1 ≤ p.maxSyms ∧ p.maxSyms ≤ 2 ^ p.symW ∧ p.maxSyms ≤ 2 ^ 30) ∧
  (1 ≤ p.maxBits ∧ p.maxBits < 2 ^ 32) ∧
  (4 * (((p.maxBits + 7) / 8 + 2) / 3) ≤ p.maxPay ∧ p.maxPay < 2 ^ 32)

end Sys2Proof
end

