-- ==== Sys2Proof/Decode.lean ====
section
/-! DEFINITION. The command decoder and encoder (30_encoding.md R90 to R92): one word, opcode in bits [7:0], bits [31:8]
zero. Every other word is rejected by name. -/

namespace Sys2Proof

/-- Why a word is no command (30_encoding.md R92). -/
inductive Reject where
  /-- bits [31:8] are not zero, whatever the opcode. -/
  | reservedBits
  /-- the opcode is 0x00, 0x0A to 0x0E, or 0x10 to 0xFF. -/
  | undefinedOpcode
  deriving DecidableEq, Repr

/-- The fields of a word in the format CMD (30_encoding.md R90). -/
def fieldsOf (w : Word) : CmdFields where
  rsvd := w.extractLsb' 8 24
  opcode := w.extractLsb' 0 8

/-- The command an opcode selects (30_encoding.md R91). -/
def decodeOpcode (opcode : Byte) : Option Instr :=
  match opcode.toNat with
  | 0x01 => some .freq
  | 0x02 => some .build
  | 0x03 => some .gen
  | 0x04 => some .encode
  | 0x05 => some .pack
  | 0x06 => some .unpack
  | 0x07 => some .decode
  | 0x08 => some .compress
  | 0x09 => some .decompress
  | 0x0F => some .clear
  | _ => none

/-- The decoder, total on every word (30_encoding.md R91, R92). -/
def decode (w : Word) : Except Reject Instr :=
  if (fieldsOf w).rsvd = 0 then
    match decodeOpcode (fieldsOf w).opcode with
    | some i => .ok i
    | none => .error .undefinedOpcode
  else .error .reservedBits

/-- The command a word of the opcode table stands for: bits `nbits` and up are 0 (a command is always one 32-bit word,
30_encoding.md R90, so a number that does not fit one is no command; DESIGN CHOICE, log 21). -/
def decodeTableWord (nbits w : Nat) : Option Instr :=
  if w % 2 ^ nbits < 2 ^ 32 then
    match decode (BitVec.ofNat 32 (w % 2 ^ nbits)) with
    | .ok i => some i
    | .error _ => none
  else none

/-- The opcode of a command (30_encoding.md R91). -/
def opcodeOf : Instr → Byte
  | .freq => 0x01#8
  | .build => 0x02#8
  | .gen => 0x03#8
  | .encode => 0x04#8
  | .pack => 0x05#8
  | .unpack => 0x06#8
  | .decode => 0x07#8
  | .compress => 0x08#8
  | .decompress => 0x09#8
  | .clear => 0x0F#8

/-- The encoder: `rsvd` zero above the opcode (30_encoding.md R90). -/
def encode (i : Instr) : Word := 0#24 ++ opcodeOf i

end Sys2Proof
end

