-- ==== Sys2Proof/Machine/State.lean ====
section
/-! DEFINITION. The state of HMC-CORE (10_state.md R20), plain data: the seven buffers, the registers of the CSR space
(10_state.md R32), the hidden sequencer (R38, R39), and the model's own fields (the parameters, the free-value counter, the
host's pending events and the words it read; log 1 to 6). -/

namespace Sys2Proof.Machine

/-- A buffer: the cells whose value a rule fixes, strictly rising by index. An unlisted cell is unspecified since the
moment `epoch` and reads as a free value named by that moment (20_memory.md R80; log 2). -/
structure Buf (α : Type) where
  cells : List (Nat × α)
  epoch : Nat
  deriving DecidableEq, Repr

/-- An entry of the FrequencyTable FT (10_state.md R23). -/
structure FtEntry where
  sym : Symbol
  count : Word
  deriving DecidableEq, Repr

/-- An entry of CT, less its code bits, which are in CTB (10_state.md R27). -/
structure CtEntry where
  sym : Symbol
  len : Word
  deriving DecidableEq, Repr

/-- A tree node, the five fields of an arena entry (10_state.md R24); `leaf` is `kind = 1`. -/
structure Node where
  leaf : Bool
  sym : Symbol
  weight : Word
  left : Word
  right : Word
  deriving DecidableEq, Repr

/-- PHASE, what the core is doing (10_state.md R38). -/
inductive Phase where
  | idle
  | freq
  | build
  | gen
  | encode
  | pack
  | unpack
  | decode
  | stats
  | clear
  deriving DecidableEq, Repr

/-- The stage working registers, alive only inside their stage (10_state.md R39). -/
inductive Work where
  /-- No stage with working registers runs (10_state.md R41: dead after reset). -/
  | dead
  /-- `i`, the index of the next text symbol. -/
  | freq (i : Word)
  /-- `PQ`, the queued handles, and `next`, the handle the next new node will get. -/
  | build (pq : List Nat) (next : Word)
  /-- `stack`, the pending nodes of the walk, and `path`, the bits from the root to the current node. -/
  | gen (stack : List Word) (path : List Bool)
  /-- `i`, the index of the next text symbol, and `n`, the number of bits written. -/
  | encode (i n : Word)
  /-- `k`, the index of the next bit. -/
  | pack (k : Word)
  /-- `k`, the index of the next bit. -/
  | unpack (k : Word)
  /-- `k`, the index of the next bit; `cur`, the cursor, a handle; `n`, the number of symbols emitted. -/
  | decode (k cur n : Word)
  deriving DecidableEq, Repr

/-- What the host can do to the block: the two transactions of 20_memory.md R61 and the reset of
70_reset_and_hazards.md R270. -/
inductive HostEvent where
  | read (space : BitVec 4) (index : Word)
  | write (space : BitVec 4) (index data : Word)
  | reset
  deriving DecidableEq, Repr

/-- The eight errors of 60_exceptions.md R240. -/
inductive ErrKind where
  | malformedBitstream
  | invalidCharacterEncoding
  | missingCode
  | emptyTable
  | badTree
  | capacityExceeded
  | bitLengthOutOfRange
  | illegalCommand
  deriving DecidableEq, Repr

/-- `raise E(info)`: an error and its ERRINFO (00_scope.md section 6). -/
structure Raise where
  kind : ErrKind
  info : Word
  deriving DecidableEq, Repr

/-- Why a step stops the machine: never. HMC-CORE has no hang and no stuck state (40_command_dispatch.md R126), no error
is fatal (60_exceptions.md R251), and no access faults (20_memory.md R64). An error of a command is a next state
(60_exceptions.md R253). So this type has no constructor: nobody raises one. -/
inductive Fault where
  deriving DecidableEq, Repr

/-- Why an instruction is refused. -/
inductive Refusal where
  /-- Raised by an arm of `exec` for a command whose meaning is not written yet; safe (the machine stops). No arm raises
  it now: every command has its meaning. -/
  | notModelled (mnemonic : String)
  deriving DecidableEq, Repr

/-- The whole state of HMC-CORE (10_state.md R20), with the model's own fields last. -/
structure State where
  /-- TXT (10_state.md R22), one Symbol per index. -/
  txt : Buf Symbol
  /-- FT (R23), one entry per index. -/
  ft : Buf FtEntry
  /-- NODE (R24), one word per index, word `8k + f` being field `f` of entry `k` (20_memory.md R68). -/
  node : Buf Word
  /-- CT (R27), one entry per index. -/
  ct : Buf CtEntry
  /-- CTB (R27), the code bits of one CT entry per index. -/
  ctb : Buf (List Bool)
  /-- BITS (R28), one bit per index. -/
  bits : Buf Bool
  /-- PAY (R29), one character per index. -/
  pay : Buf Byte
  /-- TXT_LEN (CSR 4). -/
  txtLen : Word
  /-- FT_CNT (CSR 5). -/
  ftCnt : Word
  /-- NODE_CNT (CSR 6). -/
  nodeCnt : Word
  /-- ROOT (CSR 7). -/
  root : Word
  /-- CT_CNT (CSR 8). -/
  ctCnt : Word
  /-- BIT_LEN (CSR 9). -/
  bitLen : Word
  /-- PAD (CSR 10), three bits. -/
  pad : BitVec 3
  /-- PAY_LEN (CSR 11). -/
  payLen : Word
  /-- STATUS (CSR 1): [0] BUSY, [1] DONE, [2] ERRF (R34). -/
  status : Word
  /-- ERR (CSR 2), eight bits (R35). -/
  err : Byte
  /-- ERRINFO (CSR 3) (R36). -/
  errInfo : Word
  /-- ORIG_BITS (CSR 12) (R30). -/
  origBits : Word
  /-- COMP_BITS (CSR 13) (R30). -/
  compBits : Word
  /-- RATIO (CSR 14 and 15), a binary64 (R30). -/
  ratio : BitVec 64
  /-- SAVINGS (CSR 16 and 17), a binary64 (R30). -/
  savings : BitVec 64
  /-- PHASE (R38). -/
  phase : Phase
  /-- The stage working registers (R39). -/
  work : Work
  /-- The parameters of 00_scope.md R8, which nothing changes (DESIGN CHOICE, log 1). -/
  cfg : Params
  /-- The word of the command that runs, `none` when none does (DEDUCED, log 6). -/
  running : Option Word
  /-- How many pending host events are still served before the running command ends (DESIGN CHOICE, log 4). -/
  busyLeft : Nat
  /-- The number of the next free value (DESIGN CHOICE, log 3). -/
  draws : Nat
  /-- The host's events not served yet, oldest first (DESIGN CHOICE, log 5). -/
  port : List HostEvent
  /-- The words MemRead returned, newest first (DESIGN CHOICE, log 5). -/
  replies : List Word
  deriving DecidableEq, Repr

/-- A buffer no cell of which is specified since the moment `epoch` (20_memory.md R80). -/
def Buf.unspec {α : Type} (epoch : Nat) : Buf α := ⟨[], epoch⟩

/-- The state right after `Reset` (10_state.md R41, 70_reset_and_hazards.md R271): every CSR 0 but ROOT = NONE, PHASE idle,
the working registers dead, the buffers unspecified; in the reference configuration (DESIGN CHOICE, log 1), with no host event pending. -/
def State.reset : State where
  txt := Buf.unspec 0
  ft := Buf.unspec 0
  node := Buf.unspec 0
  ct := Buf.unspec 0
  ctb := Buf.unspec 0
  bits := Buf.unspec 0
  pay := Buf.unspec 0
  txtLen := 0
  ftCnt := 0
  nodeCnt := 0
  root := noneHandle
  ctCnt := 0
  bitLen := 0
  pad := 0
  payLen := 0
  status := 0
  err := 0
  errInfo := 0
  origBits := 0
  compBits := 0
  ratio := 0
  savings := 0
  phase := .idle
  work := .dead
  cfg := Params.ref
  running := none
  busyLeft := 0
  draws := 1
  port := []
  replies := []

/-- How the run of one or more stages stands: finished so far, or ended by a `raise` with the state the failing stage
leaves (60_exceptions.md R253). -/
inductive Run where
  | ok (s : State)
  | raised (s : State) (r : Raise)
  deriving DecidableEq, Repr

end Sys2Proof.Machine
end

