-- ==== Sys2Proof/Machine/Flags.lean ====
section
/-! DEFINITION. The STATUS flags and the error codes: the block's only flags (10_state.md R34, 40_command_dispatch.md R125)
and the numbers CSR.ERR holds (60_exceptions.md R240). -/

namespace Sys2Proof.Machine

/-- STATUS while a command runs: BUSY alone (10_state.md R34). -/
def statusBusy : Word := 1#32

/-- STATUS after a command that ended without error: DONE alone (10_state.md R34). -/
def statusDone : Word := 2#32

/-- STATUS after a command that ended with an error: DONE and ERRF (10_state.md R34). -/
def statusError : Word := 6#32

/-- BUSY, bit 0 of STATUS (10_state.md R34). -/
def State.busy (s : State) : Bool := s.status.getLsbD 0

/-- DONE, bit 1 of STATUS (10_state.md R34). -/
def State.done (s : State) : Bool := s.status.getLsbD 1

/-- ERRF, bit 2 of STATUS (10_state.md R34). -/
def State.errf (s : State) : Bool := s.status.getLsbD 2

/-- The code of an error in CSR.ERR (60_exceptions.md R240). -/
def ErrKind.code : ErrKind → Byte
  | .malformedBitstream => 1#8
  | .invalidCharacterEncoding => 2#8
  | .missingCode => 3#8
  | .emptyTable => 4#8
  | .badTree => 5#8
  | .capacityExceeded => 6#8
  | .bitLengthOutOfRange => 7#8
  | .illegalCommand => 8#8

/-- `raise CapacityExceeded(0)` (60_exceptions.md R246). -/
def capacityExceeded : Raise := ⟨.capacityExceeded, 0⟩

end Sys2Proof.Machine
end

