-- ==== Sys2Proof/Machine/Ops.lean ====
section
/-! DEFINITION. The named operations: reading and writing a buffer's cells, acceptance of a command (40_command_dispatch.md
R120), its successful end (R122), the entry of an error (60_exceptions.md R253), and the sequencing of stages
(47_facade.md R232). -/

namespace Sys2Proof.Machine

/-! ## Cells of a buffer (20_memory.md R60, R80) -/

/-- The value listed for an index. -/
def lookupCell {α : Type} : List (Nat × α) → Nat → Option α
  | [], _ => none
  | (j, v) :: rest, i => if j = i then some v else lookupCell rest i

/-- Writes one cell, keeping the list strictly rising. -/
def insertCell {α : Type} (i : Nat) (v : α) : List (Nat × α) → List (Nat × α)
  | [] => [(i, v)]
  | (j, u) :: rest =>
    if i < j then (i, v) :: (j, u) :: rest
    else if i = j then (i, v) :: rest
    else (j, u) :: insertCell i v rest

/-- Numbers a list's elements from `k`. -/
def numberFrom {α : Type} : Nat → List α → List (Nat × α)
  | _, [] => []
  | k, v :: rest => (k, v) :: numberFrom (k + 1) rest

/-- The value of a cell, `free` when no rule fixes it. -/
def Buf.get {α : Type} (b : Buf α) (i : Nat) (free : α) : α := (lookupCell b.cells i).getD free

/-- Writes one cell. -/
def Buf.put {α : Type} (b : Buf α) (i : Nat) (v : α) : Buf α := { b with cells := insertCell i v b.cells }

/-- Writes cells one after another, the first of the list first. -/
def Buf.putAll {α : Type} (b : Buf α) (l : List (Nat × α)) : Buf α := l.foldl (fun b p => b.put p.1 p.2) b

/-- A buffer a stage has written whole: cells 0, 1, … are given and every later one is unspecified since `epoch`
(20_memory.md R70, R71; 93_implementation_defined.md U12, U13; free value, log 20). -/
def Buf.full {α : Type} (l : List α) (epoch : Nat) : Buf α := ⟨numberFrom 0 l, epoch⟩

/-- The canonical form of a buffer: strictly rising indices. A listed cell has a value and an unlisted one has none, so no
listed cell repeats what an unlisted one holds (DESIGN CHOICE, log 13). -/
abbrev Buf.Sorted {α : Type} (b : Buf α) : Prop := b.cells.Pairwise (fun p q => p.1 < q.1)

/-! ## Narrow elements (20_memory.md R63) -/

/-- Keeps the low `SYM_W` bits (20_memory.md R63). -/
def symTrunc (p : Params) (w : Word) : Symbol := BitVec.ofNat 32 (w.toNat % 2 ^ p.symW)

/-- What a NODE word of field `f` keeps of a written word: one bit of `kind`, `SYM_W` bits of `sym`, all of `weight`,
`left`, `right` (20_memory.md R63, R68). -/
def nodeTrunc (p : Params) (f : Nat) (w : Word) : Word :=
  match f with
  | 0 => w &&& 1#32
  | 1 => symTrunc p w
  | _ => w

/-- Bit `t` of a word counted from the most significant: the order of BITS and CTB words (20_memory.md R69, R70). -/
def msbBit (w : Word) (t : Nat) : Bool := w.getLsbD (31 - t)

/-- The word whose bit `31 − t` is the list's bit `t`, zero past the list's end (20_memory.md R69, R70). -/
def wordOfBits (l : List Bool) : Word :=
  BitVec.ofNat 32 ((List.range 32).foldl (fun acc t => 2 * acc + (l.getD t false).toNat) 0)

/-! ## The canonical form and the widths of the whole memory -/

/-- A cell index below a bound. -/
abbrev Buf.Within {α : Type} (b : Buf α) (n : Nat) : Prop := ∀ p ∈ b.cells, p.1 < n

/-- The memory is in canonical form (DESIGN CHOICE, log 13): every buffer strictly rising, every listed cell inside its buffer
(20_memory.md R60), every narrow element within its width (20_memory.md R63). -/
abbrev Memory.wf (s : State) : Prop :=
  (s.txt.Sorted ∧ s.txt.Within s.cfg.maxTxt ∧ ∀ p ∈ s.txt.cells, p.2.toNat < 2 ^ s.cfg.symW) ∧
  (s.ft.Sorted ∧ s.ft.Within s.cfg.maxSyms ∧ ∀ p ∈ s.ft.cells, p.2.sym.toNat < 2 ^ s.cfg.symW) ∧
  (s.node.Sorted ∧ s.node.Within (8 * s.cfg.maxNodes) ∧
    ∀ p ∈ s.node.cells, p.1 % 8 < 5 ∧ nodeTrunc s.cfg (p.1 % 8) p.2 = p.2) ∧
  (s.ct.Sorted ∧ s.ct.Within s.cfg.maxNodes ∧ ∀ p ∈ s.ct.cells, p.2.sym.toNat < 2 ^ s.cfg.symW) ∧
  (s.ctb.Sorted ∧ s.ctb.Within s.cfg.maxNodes ∧ ∀ p ∈ s.ctb.cells, p.2.length ≤ s.cfg.maxDepth) ∧
  (s.bits.Sorted ∧ s.bits.Within (32 * ((s.cfg.maxBits + 31) / 32))) ∧
  (s.pay.Sorted ∧ s.pay.Within s.cfg.maxPay)

/-! ## A command's start, its two ends, and its stages -/

/-- The first stage of a command (47_facade.md R232). -/
def firstStage : Instr → Phase
  | .freq => .freq
  | .build => .build
  | .gen => .gen
  | .encode => .encode
  | .pack => .pack
  | .unpack => .unpack
  | .decode => .decode
  | .compress => .freq
  | .decompress => .unpack
  | .clear => .clear

/-- The working registers as a stage sets them at its start, which is all of them a state between steps shows (DEDUCED, log 16;
10_state.md R39): indices and counts 0, the queue empty with
the first new handle FT_CNT (42_tree_builder.md R152), the walk's stack and the decoder's cursor at ROOT. -/
def startWork (p : Phase) (s : State) : Work :=
  match p with
  | .idle => .dead
  | .freq => .freq 0
  | .build => .build [] s.ftCnt
  | .gen => .gen [s.root] []
  | .encode => .encode 0 0
  | .pack => .pack 0
  | .unpack => .unpack 0
  | .decode => .decode 0 s.root 0
  | .stats => .dead
  | .clear => .dead

/-- `PHASE <- p`, the stage's working registers at their start (10_state.md R38, R39). -/
def State.enter (s : State) (p : Phase) : State := { s with phase := p, work := startWork p s }

/-- The next free value's number is used up (DESIGN CHOICE, log 3). -/
def State.drawn (s : State) : State := { s with draws := s.draws + 1 }

/-- Acceptance of the command `i` with the word `w` (40_command_dispatch.md R120): DONE, ERRF, ERR and ERRINFO cleared, BUSY
set, PHASE at the first stage. How long BUSY will last is drawn (R128; DESIGN CHOICE, log 4). -/
def State.accept (s : State) (w : Word) (i : Instr) : State :=
  { s with
    status := statusBusy, err := 0, errInfo := 0
    phase := firstStage i, work := startWork (firstStage i) s
    running := some w, busyLeft := Config.busyPolls s.draws, draws := s.draws + 1 }

/-- The successful end of a command (40_command_dispatch.md R122). -/
def State.commandEnd (s : State) : State :=
  { s with
    status := statusDone, err := 0, errInfo := 0
    phase := .idle, work := .dead, running := none, busyLeft := 0 }

/-- TAKING AN EXCEPTION: the entry of an error (60_exceptions.md R253). PHASE to idle, BUSY 0, DONE 1, ERRF 1, ERR and
ERRINFO. Nothing else is saved and control goes nowhere; the failing stage has already left its outputs unspecified. -/
def State.errorEntry (s : State) (r : Raise) : State :=
  { s with
    status := statusError, err := r.kind.code, errInfo := r.info
    phase := .idle, work := .dead, running := none, busyLeft := 0 }

/-- Runs the next stage unless one has raised (47_facade.md R220: a `raise` inside a stage ends the command). -/
def Run.andThen (r : Run) (f : State → Run) : Run :=
  match r with
  | .ok s => f s
  | .raised s e => .raised s e

/-- The end of a command's run: R122 of 40_command_dispatch.md or R253 of 60_exceptions.md. -/
def Run.finish : Run → State
  | .ok s => s.commandEnd
  | .raised s r => s.errorEntry r

/-- An illegal command word (60_exceptions.md R248): no stage runs and only STATUS, ERR and ERRINFO change. -/
def State.illegalCommand (s : State) (w : Word) : State := s.errorEntry ⟨.illegalCommand, w⟩

end Sys2Proof.Machine
end

