-- ==== Sys2Proof/Machine/Operands.lean ====
section
/-! DEFINITION. The operands of the commands: a command word carries none, so every operand is state (30_encoding.md R93).
Each reads one element of a buffer, or the part of a buffer its length register covers (10_state.md R22 to R29), with a free
value for a cell no rule fixes (20_memory.md R80; log 2). -/

namespace Sys2Proof.Machine

/-! ## Elements -/

/-- `TXT[i]` (20_memory.md R66); an unspecified narrow element has its width (DEDUCED, log 17). -/
def State.txtAt (s : State) (i : Nat) : Symbol :=
  s.txt.get i (symTrunc s.cfg (Config.freeWord s.txt.epoch (.cell 1 i)))

/-- `FT[j]` (20_memory.md R67). -/
def State.ftAt (s : State) (j : Nat) : FtEntry :=
  s.ft.get j
    ⟨symTrunc s.cfg (Config.freeWord s.ft.epoch (.cell 2 (2 * j))), Config.freeWord s.ft.epoch (.cell 2 (2 * j + 1))⟩

/-- Word `x` of NODE, one of the five fields of an entry (20_memory.md R68). -/
def State.nodeWord (s : State) (x : Nat) : Word :=
  s.node.get x (nodeTrunc s.cfg (x % 8) (Config.freeWord s.node.epoch (.cell 3 x)))

/-- `NODE[k]` (10_state.md R24, 20_memory.md R68). -/
def State.nodeAt (s : State) (k : Nat) : Node where
  leaf := (s.nodeWord (8 * k)).getLsbD 0
  sym := s.nodeWord (8 * k + 1)
  weight := s.nodeWord (8 * k + 2)
  left := s.nodeWord (8 * k + 3)
  right := s.nodeWord (8 * k + 4)

/-- `CT[j]` (20_memory.md R69). An index `j ≥ MAX_NODES` has no storage; ENCODE reaches one only when a failed GEN left an
unspecified CT_CNT that large, and reads free values there (DESIGN CHOICE, log 11). -/
def State.ctAt (s : State) (j : Nat) : CtEntry :=
  s.ct.get j
    ⟨symTrunc s.cfg (Config.freeWord s.ct.epoch (.cell 4 (2 * j))), Config.freeWord s.ct.epoch (.cell 4 (2 * j + 1))⟩

/-- Code bit `t` of CT entry `j`, from CTB (20_memory.md R69); of an unspecified entry the bit at the place R69 computes, even
past the entry's own words (DESIGN CHOICE, log 11). -/
def State.codeBit (s : State) (j t : Nat) : Bool :=
  match lookupCell s.ctb.cells j with
  | some code => code.getD t false
  | none => msbBit (Config.freeWord s.ctb.epoch (.cell 5 (j * s.cfg.codeWords + t / 32))) (t % 32)

/-- Word `x` of CTB: the code bits of entry `x div CODE_WORDS`, zero past the code's end (20_memory.md R69). -/
def State.ctbWord (s : State) (x : Nat) : Word :=
  match lookupCell s.ctb.cells (x / s.cfg.codeWords) with
  | some code => wordOfBits (code.drop (32 * (x % s.cfg.codeWords)))
  | none => Config.freeWord s.ctb.epoch (.cell 5 x)

/-- `bitAt(BITS, k)` (20_memory.md R70). -/
def State.bitAt (s : State) (k : Nat) : Bool :=
  s.bits.get k (msbBit (Config.freeWord s.bits.epoch (.cell 6 (k / 32))) (k % 32))

/-- Word `x` of BITS (20_memory.md R70). -/
def State.bitsWord (s : State) (x : Nat) : Word := wordOfBits ((List.range 32).map fun t => s.bitAt (32 * x + t))

/-- `PAY[m]` (20_memory.md R71). -/
def State.payAt (s : State) (m : Nat) : Byte :=
  s.pay.get m ((Config.freeWord s.pay.epoch (.cell 7 m)).setWidth 8)

/-! ## Operands -/

/-- A row of a code table: a symbol and its code (10_state.md R27). -/
structure CodeRow where
  sym : Symbol
  code : List Bool
  deriving DecidableEq, Repr

/-- `TXT[0 .. TXT_LEN − 1]` (10_state.md R22). -/
def State.text (s : State) : List Symbol := (List.range s.txtLen.toNat).map s.txtAt

/-- `FT[0 .. FT_CNT − 1]` (10_state.md R23). -/
def State.freqTable (s : State) : List FtEntry := (List.range s.ftCnt.toNat).map s.ftAt

/-- `CT[0 .. CT_CNT − 1]` with its code bits (10_state.md R27). A CT_CNT above MAX_NODES, which only a failed GEN can leave,
raises no error: the entries past CT are free values (DESIGN CHOICE, log 11). -/
def State.codeTable (s : State) : List CodeRow :=
  (List.range s.ctCnt.toNat).map fun j =>
    ⟨(s.ctAt j).sym, (List.range (s.ctAt j).len.toNat).map (s.codeBit j)⟩

/-- Bits `0 .. BIT_LEN − 1` of BITS (10_state.md R28). -/
def State.bitSeq (s : State) : List Bool := (List.range s.bitLen.toNat).map s.bitAt

/-- `PAY[0 .. PAY_LEN − 1]` (10_state.md R29). -/
def State.payload (s : State) : List Byte := (List.range s.payLen.toNat).map s.payAt

/-- The root handle is valid: not NONE, below NODE_CNT, below MAX_NODES (10_state.md R25). -/
def rootValid (cfg : Params) (cnt root : Word) : Bool :=
  root != noneHandle && root.toNat < cnt.toNat && root.toNat < cfg.maxNodes

end Sys2Proof.Machine
end

