-- ==== Sys2Proof/Machine/BitPacker.lean ====
section
/-! DEFINITION. The BitPacker, commands PACK and UNPACK (46_bit_packer.md). -/

namespace Sys2Proof.Machine

/-! ## PACK -/

/-- The number of zero bits added to a sequence of `n` bits (R200). -/
def padCount (n : Nat) : Nat := (8 - n % 8) % 8

/-- The payload of the function `Pack`: padded with fresh zeros, grouped into bytes, base64 (R200). -/
def packPayload (bits : List Bool) : List Byte :=
  b64Enc (bytesOfBits (bits ++ List.replicate (padCount bits.length) false))

/-- What PACK computes from BITS and BIT_LEN (R201): the payload and the padding count. -/
def State.packResult (s : State) : Except Raise (List Byte × Nat) :=
  if s.cfg.maxBits < s.bitLen.toNat then .error capacityExceeded
  else .ok (packPayload s.bitSeq, padCount s.bitLen.toNat)

/-- PACK's writes on success: PAY whole, PAY_LEN and PAD (R201). -/
def State.writePack (s : State) (payload : List Byte) (pad : Nat) : State :=
  { s with
    pay := Buf.full payload s.draws
    payLen := BitVec.ofNat 32 payload.length
    pad := BitVec.ofNat 3 pad
    draws := s.draws + 1 }

/-- PACK's outputs after an error: unspecified (60_exceptions.md R253 (c)). -/
def State.spoilPack (s : State) : State :=
  { s with
    pay := Buf.unspec s.draws
    payLen := Config.freeWord s.draws (.csr 11)
    pad := (Config.freeWord s.draws (.csr 10)).setWidth 3
    draws := s.draws + 1 }

/-- The stage PACK (R201). -/
def stagePack (s : State) : Run :=
  match s.packResult with
  | .ok (payload, pad) => .ok ((s.enter .pack).writePack payload pad)
  | .error r => .raised (s.enter .pack).spoilPack r

/-- The command PACK (R201). -/
def execPack (s : State) : Host.Outcome State Fault Refusal := .next (stagePack s).finish

/-! ## UNPACK -/

/-- The function `Unpack` (R202). -/
def unpackBits (payload : List Byte) (n : Nat) : Except Raise (List Bool) :=
  match b64Dec payload with
  | none => .error ⟨.invalidCharacterEncoding, 0⟩
  | some bytes =>
    if 8 * bytes.length < n then .error ⟨.bitLengthOutOfRange, BitVec.ofNat 32 (8 * bytes.length)⟩
    else .ok ((bitsOfBytes bytes).take n)

/-- What UNPACK computes from PAY, PAY_LEN and BIT_LEN (R203). -/
def State.unpackResult (s : State) : Except Raise (List Bool) :=
  if s.cfg.maxPay < s.payLen.toNat then .error capacityExceeded
  else if s.cfg.maxBits < s.bitLen.toNat then .error capacityExceeded
  else unpackBits s.payload s.bitLen.toNat

/-- UNPACK's writes on success: BITS whole (R203). With BIT_LEN = 0 it writes nothing (R203, corner cases; DEDUCED, log 9). -/
def State.writeUnpack (s : State) (bits : List Bool) : State :=
  if bits = [] then s else { s with bits := Buf.full bits s.draws, draws := s.draws + 1 }

/-- UNPACK's output after an error: unspecified (60_exceptions.md R253 (c)). -/
def State.spoilUnpack (s : State) : State := { s with bits := Buf.unspec s.draws, draws := s.draws + 1 }

/-- The stage UNPACK (R203). -/
def stageUnpack (s : State) : Run :=
  match s.unpackResult with
  | .ok bits => .ok ((s.enter .unpack).writeUnpack bits)
  | .error r => .raised (s.enter .unpack).spoilUnpack r

/-- The command UNPACK (R203). -/
def execUnpack (s : State) : Host.Outcome State Fault Refusal := .next (stageUnpack s).finish

end Sys2Proof.Machine
end

