-- ==== Sys2Proof/Machine/CodeTableGenerator.lean ====
section
/-! DEFINITION. The CodeTableGenerator, command GEN (43_code_table_generator.md). -/

namespace Sys2Proof.Machine

/-- The row recorded at a leaf: the path to it, or "0" when the path is empty (R170, R171). -/
def leafRow (n : Node) (path : List Bool) : CodeRow := ⟨n.sym, if path = [] then [false] else path⟩

/-- The walk of R170 from handle `k` with the rows recorded so far. A child is below its parent, so `k + 1` levels are
enough: `fuel` never runs out when it starts above the root's handle (R170; Laws, `walk_fuel`). -/
def walk (nodes : Nat → Node) (maxNodes : Nat) : Nat → Nat → List Bool → List CodeRow → Except Raise (List CodeRow)
  | 0, _, _, ct => .ok ct
  | fuel + 1, k, path, ct =>
    if (nodes k).leaf then
      if ct.length = maxNodes then .error capacityExceeded
      else .ok (ct ++ [leafRow (nodes k) path])
    else
      match
        (if (nodes k).left = noneHandle then .ok ct
         else if k ≤ (nodes k).left.toNat then .error ⟨.badTree, BitVec.ofNat 32 k⟩
         else walk nodes maxNodes fuel (nodes k).left.toNat (path ++ [false]) ct) with
      | .error r => .error r
      | .ok ct =>
        if (nodes k).right = noneHandle then .ok ct
        else if k ≤ (nodes k).right.toNat then .error ⟨.badTree, BitVec.ofNat 32 k⟩
        else walk nodes maxNodes fuel (nodes k).right.toNat (path ++ [true]) ct

/-- The function `Gen` (R170). -/
def genOf (cfg : Params) (nodes : Nat → Node) (cnt root : Word) : Except Raise (List CodeRow) :=
  if rootValid cfg cnt root then walk nodes cfg.maxNodes (root.toNat + 1) root.toNat [] []
  else .error ⟨.badTree, root⟩

/-- What GEN computes from NODE, NODE_CNT and ROOT (R172). -/
def State.genResult (s : State) : Except Raise (List CodeRow) := genOf s.cfg s.nodeAt s.nodeCnt s.root

/-- GEN's writes on success: CT and CTB whole, and CT_CNT (R172, 20_memory.md R69). -/
def State.writeGen (s : State) (ct : List CodeRow) : State :=
  { s with
    ct := Buf.full (ct.map fun e => ⟨e.sym, BitVec.ofNat 32 e.code.length⟩) s.draws
    ctb := Buf.full (ct.map CodeRow.code) s.draws
    ctCnt := BitVec.ofNat 32 ct.length
    draws := s.draws + 1 }

/-- GEN's outputs after an error: unspecified (60_exceptions.md R253 (c)). -/
def State.spoilGen (s : State) : State :=
  { s with
    ct := Buf.unspec s.draws
    ctb := Buf.unspec s.draws
    ctCnt := Config.freeWord s.draws (.csr 8)
    draws := s.draws + 1 }

/-- The stage GEN (R172). -/
def stageGen (s : State) : Run :=
  match s.genResult with
  | .ok ct => .ok ((s.enter .gen).writeGen ct)
  | .error r => .raised (s.enter .gen).spoilGen r

/-- The command GEN (R172). -/
def execGen (s : State) : Host.Outcome State Fault Refusal := .next (stageGen s).finish

end Sys2Proof.Machine
end

