-- ==== Sys2Proof/Machine/Decoder.lean ====
section
/-! DEFINITION. The Decoder, command DECODE (45_decoder.md). -/

namespace Sys2Proof.Machine

/-- The child of node `n` on the side of a bit; a leaf has none, whatever its fields hold (R190, R193; 30_encoding.md
R94). -/
def childOf (n : Node) (bit : Bool) : Word := if n.leaf then noneHandle else if bit then n.right else n.left

/-- The loop of R190 at bit `k` with the cursor at handle `cur` and the symbols emitted so far: absent child, then child not
below its parent, then TXT full; after the last bit the cursor must be at the root (R192). -/
def decodeLoop (nodes : Nat → Node) (maxTxt root : Nat) : Nat → Nat → List Symbol → List Bool → Except Raise (List Symbol)
  | k, cur, out, [] => if cur = root then .ok out else .error ⟨.malformedBitstream, BitVec.ofNat 32 k⟩
  | k, cur, out, bit :: bits =>
    let c := childOf (nodes cur) bit
    if c = noneHandle then .error ⟨.malformedBitstream, BitVec.ofNat 32 k⟩
    else if cur ≤ c.toNat then .error ⟨.badTree, BitVec.ofNat 32 cur⟩
    else if (nodes c.toNat).leaf then
      if out.length = maxTxt then .error capacityExceeded
      else decodeLoop nodes maxTxt root (k + 1) root (out ++ [(nodes c.toNat).sym]) bits
    else decodeLoop nodes maxTxt root (k + 1) c.toNat out bits

/-- The function `Decode` (R190): the empty sequence without looking at the tree (R194), else from a valid root. -/
def decodeOf (cfg : Params) (bits : List Bool) (nodes : Nat → Node) (cnt root : Word) : Except Raise (List Symbol) :=
  if bits = [] then .ok []
  else if rootValid cfg cnt root then decodeLoop nodes cfg.maxTxt root.toNat 0 root.toNat [] bits
  else .error ⟨.badTree, root⟩

/-- What DECODE computes from BITS, BIT_LEN, NODE, NODE_CNT and ROOT (R191). -/
def State.decodeResult (s : State) : Except Raise (List Symbol) :=
  if s.cfg.maxBits < s.bitLen.toNat then .error capacityExceeded
  else decodeOf s.cfg s.bitSeq s.nodeAt s.nodeCnt s.root

/-- DECODE's writes on success: TXT whole and TXT_LEN (R191). -/
def State.writeDecode (s : State) (out : List Symbol) : State :=
  { s with txt := Buf.full out s.draws, txtLen := BitVec.ofNat 32 out.length, draws := s.draws + 1 }

/-- DECODE's outputs after an error: unspecified (60_exceptions.md R253 (c); R191: no partial text). -/
def State.spoilDecode (s : State) : State :=
  { s with txt := Buf.unspec s.draws, txtLen := Config.freeWord s.draws (.csr 4), draws := s.draws + 1 }

/-- The stage DECODE (R191). -/
def stageDecode (s : State) : Run :=
  match s.decodeResult with
  | .ok out => .ok ((s.enter .decode).writeDecode out)
  | .error r => .raised (s.enter .decode).spoilDecode r

/-- The command DECODE (R191). -/
def execDecode (s : State) : Host.Outcome State Fault Refusal := .next (stageDecode s).finish

end Sys2Proof.Machine
end

