-- ==== Sys2Proof/Machine/Encoder.lean ====
section
/-! DEFINITION. The Encoder, command ENCODE (44_encoder.md). -/

namespace Sys2Proof.Machine

/-- `lookup(ct, s)`: the first entry with the symbol (R180). -/
def lookupCode (ct : List CodeRow) (x : Symbol) : Option (List Bool) := (ct.find? fun e => e.sym == x).map CodeRow.code

/-- The loop of ENCODE from text index `i` with `n` bits written (R181): MissingCode(i) before CapacityExceeded(0), symbol by
symbol; else the codes in input order. -/
def encodeLoop (maxBits : Nat) (ct : List CodeRow) : Nat → Nat → List Symbol → Except Raise (List Bool)
  | _, _, [] => .ok []
  | i, n, x :: t =>
    match lookupCode ct x with
    | none => .error ⟨.missingCode, BitVec.ofNat 32 i⟩
    | some code =>
      if maxBits < n + code.length then .error capacityExceeded
      else
        match encodeLoop maxBits ct (i + 1) (n + code.length) t with
        | .ok bits => .ok (code ++ bits)
        | .error r => .error r

/-- What ENCODE computes from TXT, TXT_LEN, CT, CTB and CT_CNT (R181). -/
def State.encodeResult (s : State) : Except Raise (List Bool) :=
  if s.cfg.maxTxt < s.txtLen.toNat then .error capacityExceeded
  else encodeLoop s.cfg.maxBits s.codeTable 0 0 s.text

/-- ENCODE's writes on success: BITS whole and BIT_LEN (R181). -/
def State.writeEncode (s : State) (bits : List Bool) : State :=
  { s with bits := Buf.full bits s.draws, bitLen := BitVec.ofNat 32 bits.length, draws := s.draws + 1 }

/-- ENCODE's outputs after an error: unspecified (60_exceptions.md R253 (c)). -/
def State.spoilEncode (s : State) : State :=
  { s with bits := Buf.unspec s.draws, bitLen := Config.freeWord s.draws (.csr 9), draws := s.draws + 1 }

/-- The stage ENCODE (R181). -/
def stageEncode (s : State) : Run :=
  match s.encodeResult with
  | .ok bits => .ok ((s.enter .encode).writeEncode bits)
  | .error r => .raised (s.enter .encode).spoilEncode r

/-- The command ENCODE (R181). -/
def execEncode (s : State) : Host.Outcome State Fault Refusal := .next (stageEncode s).finish

end Sys2Proof.Machine
end

