-- ==== Sys2Proof/Machine/FrequencyAnalyzer.lean ====
section
/-! DEFINITION. The FrequencyAnalyzer, command FREQ (41_frequency_analyzer.md). -/

namespace Sys2Proof.Machine

/-- `FT[j].count <- FT[j].count + 1` at the least `j` with the symbol, `none` when no entry has it (R140). -/
def countIn (x : Symbol) : List FtEntry → Option (List FtEntry)
  | [] => none
  | e :: rest =>
    if e.sym = x then some (⟨e.sym, e.count + 1⟩ :: rest)
    else (countIn x rest).map (e :: ·)

/-- The function `Freq`, one symbol after another onto a table (R140). -/
def freqOnto (ft : List FtEntry) : List Symbol → List FtEntry
  | [] => ft
  | x :: t =>
    match countIn x ft with
    | some ft' => freqOnto ft' t
    | none => freqOnto (ft ++ [⟨x, 1⟩]) t

/-- The function `Freq` (R140): the distinct symbols in first-occurrence order, each with its count. -/
def freqOf (t : List Symbol) : List FtEntry := freqOnto [] t

/-- The loop of FREQ (R141): as `freqOnto`, but the first symbol that would be entry MAX_SYMS raises CapacityExceeded(0). -/
def freqLoop (maxSyms : Nat) (ft : List FtEntry) : List Symbol → Except Raise (List FtEntry)
  | [] => .ok ft
  | x :: t =>
    match countIn x ft with
    | some ft' => freqLoop maxSyms ft' t
    | none =>
      if ft.length = maxSyms then .error capacityExceeded
      else freqLoop maxSyms (ft ++ [⟨x, 1⟩]) t

/-- What FREQ computes from TXT and TXT_LEN (R141). -/
def State.freqResult (s : State) : Except Raise (List FtEntry) :=
  if s.cfg.maxTxt < s.txtLen.toNat then .error capacityExceeded
  else freqLoop s.cfg.maxSyms [] s.text

/-- FREQ's writes on success: FT whole and FT_CNT (R141). -/
def State.writeFreq (s : State) (ft : List FtEntry) : State :=
  { s with ft := Buf.full ft s.draws, ftCnt := BitVec.ofNat 32 ft.length, draws := s.draws + 1 }

/-- FREQ's outputs after an error: unspecified (60_exceptions.md R253 (c)). -/
def State.spoilFreq (s : State) : State :=
  { s with ft := Buf.unspec s.draws, ftCnt := Config.freeWord s.draws (.csr 5), draws := s.draws + 1 }

/-- The stage FREQ (R141). -/
def stageFreq (s : State) : Run :=
  match s.freqResult with
  | .ok ft => .ok ((s.enter .freq).writeFreq ft)
  | .error r => .raised (s.enter .freq).spoilFreq r

/-- The command FREQ (R141). -/
def execFreq (s : State) : Host.Outcome State Fault Refusal := .next (stageFreq s).finish

end Sys2Proof.Machine
end

