-- ==== Sys2Proof/Machine/TreeBuilder.lean ====
section
/-! DEFINITION. The HuffmanTreeBuilder and its priority queue, command BUILD (42_tree_builder.md). -/

namespace Sys2Proof.Machine

/-- The weight of the node with handle `h`. -/
def weightOf (nodes : List Node) (h : Nat) : Nat :=
  match nodes[h]? with
  | some n => n.weight.toNat
  | none => 0

/-- The queue's order: by weight, then by handle (R150, R153). -/
def queueLt (nodes : List Node) (a b : Nat) : Bool :=
  weightOf nodes a < weightOf nodes b || (weightOf nodes a == weightOf nodes b && a < b)

/-- The least handle of a non-empty queue in the order `queueLt`, `best` being the least so far. -/
def leastFrom (nodes : List Node) (best : Nat) : List Nat → Nat
  | [] => best
  | h :: rest => leastFrom nodes (if queueLt nodes h best then h else best) rest

/-- `extractMin(PQ)` (R150): the handle of least key and the queue without it, `none` for the empty queue. -/
def extractMin (nodes : List Node) : List Nat → Option (Nat × List Nat)
  | [] => none
  | h :: rest => some (leastFrom nodes h rest, (h :: rest).erase (leastFrom nodes h rest))

/-- Leaf `j` made from `FT[j]` (R151). -/
def leafNode (e : FtEntry) : Node := ⟨true, e.sym, e.count, noneHandle, noneHandle⟩

/-- `weight(a) + weight(b)` (R152); a sum outside 32 bits is no number of the block (47_facade.md R231) and is a free value:
only an unspecified FT can bring one about (DESIGN CHOICE, log 10). -/
def addWeights (free : Word) (a b : Nat) : Word := if a + b < 2 ^ 32 then BitVec.ofNat 32 (a + b) else free

/-- The internal node with children `a` (first-extracted, left) and `b` (second-extracted, right) (R152). -/
def internalNode (weight : Word) (a b : Nat) : Node := ⟨false, 0, weight, BitVec.ofNat 32 a, BitVec.ofNat 32 b⟩

/-- The merge loop (R152), run `fuel` times: `n − 1` merges for `n` leaves. `spill` gives the free value for the weight of a
handle when the sum does not fit. -/
def mergeLoop (spill : Nat → Word) : Nat → List Nat → List Node → List Node
  | 0, _, nodes => nodes
  | fuel + 1, pq, nodes =>
    match extractMin nodes pq with
    | none => nodes
    | some (a, pq1) =>
      match extractMin nodes pq1 with
      | none => nodes
      | some (b, pq2) =>
        mergeLoop spill fuel (pq2 ++ [nodes.length])
          (nodes ++ [internalNode
            (addWeights (spill nodes.length) (weightOf nodes a) (weightOf nodes b)) a b])

/-- The synthetic root over the single leaf at handle 0 (R154). -/
def syntheticRoot (leaf : Node) : Node := ⟨false, 0, leaf.weight, 0, noneHandle⟩

/-- The arena BUILD makes from a frequency table (R151, R152, R154). -/
def buildTree (spill : Nat → Word) (ft : List FtEntry) : List Node :=
  match ft with
  | [] => []
  | [e] => [leafNode e, syntheticRoot (leafNode e)]
  | e₁ :: e₂ :: rest =>
    mergeLoop spill (rest.length + 1) (List.range (rest.length + 2)) ((e₁ :: e₂ :: rest).map leafNode)

/-- The five words of arena entry `k` (20_memory.md R68). -/
def nodeCells (k : Nat) (n : Node) : List (Nat × Word) :=
  [(8 * k, if n.leaf then 1 else 0), (8 * k + 1, n.sym), (8 * k + 2, n.weight), (8 * k + 3, n.left), (8 * k + 4, n.right)]

/-- The words of the arena entries from handle `k` on. -/
def arenaCells : Nat → List Node → List (Nat × Word)
  | _, [] => []
  | k, n :: rest => nodeCells k n ++ arenaCells (k + 1) rest

/-- A number in a 32-bit register; one that does not fit is no number of the block (47_facade.md R231) and is a free value
(DESIGN CHOICE, log 10). -/
def regOr (free : Word) (n : Nat) : Word := if n < 2 ^ 32 then BitVec.ofNat 32 n else free

/-- The arena BUILD makes from FT and FT_CNT (R155). -/
def State.buildResult (s : State) : List Node :=
  buildTree (fun h => Config.freeWord s.draws (.weight h)) s.freqTable

/-- BUILD's writes on success: the arena entries it made, as far as NODE has them (it has all of them for a table FREQ
made, R155; DESIGN CHOICE, log 10), NODE_CNT and ROOT. Entries at handles from NODE_CNT on are unchanged (R155). -/
def State.writeBuild (s : State) (nodes : List Node) : State :=
  { s with
    node := s.node.putAll (arenaCells 0 (nodes.take s.cfg.maxNodes))
    nodeCnt := regOr (Config.freeWord s.draws (.csr 6)) nodes.length
    root := regOr (Config.freeWord s.draws (.csr 7)) (nodes.length - 1)
    draws := s.draws + 1 }

/-- BUILD's outputs after an error: unspecified, NODE as a whole (60_exceptions.md R253 (c), 42_tree_builder.md R155; DEDUCED,
log 18). -/
def State.spoilBuild (s : State) : State :=
  { s with
    node := Buf.unspec s.draws
    nodeCnt := Config.freeWord s.draws (.csr 6)
    root := Config.freeWord s.draws (.csr 7)
    draws := s.draws + 1 }

/-- The stage BUILD (R155). -/
def stageBuild (s : State) : Run :=
  if s.ftCnt = 0 then .raised (s.enter .build).spoilBuild ⟨.emptyTable, 0⟩
  else .ok ((s.enter .build).writeBuild s.buildResult)

/-- The command BUILD (R155). -/
def execBuild (s : State) : Host.Outcome State Fault Refusal := .next (stageBuild s).finish

end Sys2Proof.Machine
end

