-- ==== Sys2Proof/Machine/Facade.lean ====
section
/-! DEFINITION. The CompressionFacade, commands COMPRESS, DECOMPRESS and CLEAR (47_facade.md). -/

namespace Sys2Proof.Machine

/-! ## STATS -/

/-- RATIO (R222). -/
def ratioOf (comp orig : Word) : BitVec 64 := fdiv (toF comp) (toF orig)

/-- SAVINGS from the rounded RATIO, in two more rounded steps (R222). -/
def savingsOf (ratio : BitVec 64) : BitVec 64 := fmul (fsub f64One ratio) f64Hundred

/-- STATS's writes when TXT_LEN > 0 (R222). -/
def State.writeStats (s : State) : State :=
  { s with
    origBits := 8 * s.txtLen
    compBits := s.bitLen
    ratio := ratioOf s.bitLen (8 * s.txtLen)
    savings := savingsOf (ratioOf s.bitLen (8 * s.txtLen)) }

/-- STATS's writes when FREQ left FT_CNT = 0: the empty result (R221). The buffers are not cleared. -/
def State.writeEmptyResult (s : State) : State :=
  { s with
    nodeCnt := 0, root := noneHandle, ctCnt := 0, bitLen := 0, pad := 0, payLen := 0
    origBits := 0, compBits := 0, ratio := 0, savings := 0 }

/-- The stage STATS (R220 to R222, R232). It raises nothing. -/
def stageStats (s : State) : Run :=
  if s.ftCnt = 0 then .ok (s.enter .stats).writeEmptyResult else .ok (s.enter .stats).writeStats

/-! ## CLEAR -/

/-- CLEAR's writes: the eight operand registers and the four statistics registers (R225). -/
def State.writeClear (s : State) : State :=
  { s with
    txtLen := 0, ftCnt := 0, nodeCnt := 0, root := noneHandle, ctCnt := 0, bitLen := 0, pad := 0, payLen := 0
    origBits := 0, compBits := 0, ratio := 0, savings := 0 }

/-- The stage CLEAR (R225, R232). It raises nothing. -/
def stageClear (s : State) : Run := .ok (s.enter .clear).writeClear

/-- The command CLEAR (R225). -/
def execClear (s : State) : Host.Outcome State Fault Refusal := .next (stageClear s).finish

/-! ## COMPRESS -/

/-- The work of one PHASE (10_state.md R38). -/
def runStage (p : Phase) (s : State) : Run :=
  match p with
  | .idle => .ok s
  | .freq => stageFreq s
  | .build => stageBuild s
  | .gen => stageGen s
  | .encode => stageEncode s
  | .pack => stagePack s
  | .unpack => stageUnpack s
  | .decode => stageDecode s
  | .stats => stageStats s
  | .clear => stageClear s

/-- Runs stages one after another; a `raise` ends the run (R220, R232). -/
def runStages : List Phase → State → Run
  | [], s => .ok s
  | p :: rest, s => (runStage p s).andThen (runStages rest)

/-- COMPRESS's stages after FREQ (R220, R232): none but STATS when FT_CNT = 0, which happens exactly when TXT_LEN = 0
(R221). -/
def stagesAfterFreq (s : State) : List Phase :=
  if s.ftCnt = 0 then [.stats] else [.build, .gen, .encode, .pack, .stats]

/-- The run of COMPRESS (R220). -/
def compressRun (s : State) : Run := (stageFreq s).andThen fun s => runStages (stagesAfterFreq s) s

/-- The command COMPRESS (R220). -/
def execCompress (s : State) : Host.Outcome State Fault Refusal := .next (compressRun s).finish

/-! ## DECOMPRESS -/

/-- The run of DECOMPRESS (R223). -/
def decompressRun (s : State) : Run := runStages [.unpack, .decode] s

/-- The command DECOMPRESS (R223). -/
def execDecompress (s : State) : Host.Outcome State Fault Refusal := .next (decompressRun s).finish

end Sys2Proof.Machine
end

