-- ==== Sys2Proof/Machine/Port.lean ====
section
/-! DEFINITION. The host port: MemRead, MemWrite and Reset (20_memory.md R60 to R65, 70_reset_and_hazards.md R270), with BUSY
= 0 and with BUSY = 1. -/

namespace Sys2Proof.Machine

/-! ## Address spaces (20_memory.md R60) -/

/-- The eight address spaces (20_memory.md R60). -/
inductive Space where
  | csr
  | txt
  | ft
  | node
  | ct
  | ctb
  | bits
  | pay
  deriving DecidableEq, Repr

/-- The space a number selects; 8 to 15 are reserved (20_memory.md R60, R64). -/
def spaceOf (n : BitVec 4) : Option Space :=
  match n.toNat with
  | 0 => some .csr
  | 1 => some .txt
  | 2 => some .ft
  | 3 => some .node
  | 4 => some .ct
  | 5 => some .ctb
  | 6 => some .bits
  | 7 => some .pay
  | _ => none

/-- The number of words of a space (20_memory.md R60). -/
def spaceWords (p : Params) : Space → Nat
  | .csr => 18
  | .txt => p.maxTxt
  | .ft => 2 * p.maxSyms
  | .node => 8 * p.maxNodes
  | .ct => 2 * p.maxNodes
  | .ctb => p.codeWords * p.maxNodes
  | .bits => (p.maxBits + 31) / 32
  | .pay => p.maxPay

/-! ## MemRead with BUSY = 0 -/

/-- A read of CSR `x` (10_state.md R32): CMD and the reserved indices read 0. -/
def State.csrRead (s : State) (x : Nat) : Word :=
  match x with
  | 1 => s.status
  | 2 => s.err.setWidth 32
  | 3 => s.errInfo
  | 4 => s.txtLen
  | 5 => s.ftCnt
  | 6 => s.nodeCnt
  | 7 => s.root
  | 8 => s.ctCnt
  | 9 => s.bitLen
  | 10 => s.pad.setWidth 32
  | 11 => s.payLen
  | 12 => s.origBits
  | 13 => s.compBits
  | 14 => s.ratio.extractLsb' 0 32
  | 15 => s.ratio.extractLsb' 32 32
  | 16 => s.savings.extractLsb' 0 32
  | 17 => s.savings.extractLsb' 32 32
  | _ => 0

/-- Word `x` of a space, `x` being below its word count (20_memory.md R66 to R71): narrow elements are zero-extended
(R63), the reserved words of a NODE entry read 0 (R64). -/
def State.spaceRead (s : State) (sp : Space) (x : Nat) : Word :=
  match sp with
  | .csr => s.csrRead x
  | .txt => s.txtAt x
  | .ft => if x % 2 = 0 then (s.ftAt (x / 2)).sym else (s.ftAt (x / 2)).count
  | .node => if x % 8 < 5 then s.nodeWord x else 0
  | .ct => if x % 2 = 0 then (s.ctAt (x / 2)).sym else (s.ctAt (x / 2)).len
  | .ctb => s.ctbWord x
  | .bits => s.bitsWord x
  | .pay => (s.payAt x).setWidth 32

/-- `MemRead(space, index)` with BUSY = 0 (20_memory.md R61): a reserved space and an index past a space read 0 (R64). -/
def State.memRead (s : State) (space : BitVec 4) (index : Word) : Word :=
  match spaceOf space with
  | none => 0
  | some sp => if index.toNat < spaceWords s.cfg sp then s.spaceRead sp index.toNat else 0

/-! ## MemWrite with BUSY = 0 -/

/-- A write to a CSR other than CMD: only the five read/write registers store (10_state.md R32, R37). -/
def State.csrWrite (s : State) (x : Nat) (w : Word) : State :=
  match x with
  | 4 => { s with txtLen := w }
  | 6 => { s with nodeCnt := w }
  | 7 => { s with root := w }
  | 9 => { s with bitLen := w }
  | 11 => { s with payLen := w }
  | _ => s

/-- The 32 bits of a written BITS word, each at its place of the sequence, those past MAX_BITS in the last word included
(20_memory.md R70; DEDUCED, log 19). -/
def bitsCells (x : Nat) (w : Word) : List (Nat × Bool) := (List.range 32).map fun t => (32 * x + t, msbBit w t)

/-- A write of word `x` of a space, `x` being below its word count: FT, CT and CTB are read-only (20_memory.md R60, R64), the
reserved words of a NODE entry ignore it (R64), narrow elements keep the low bits (R63). -/
def State.spaceWrite (s : State) (sp : Space) (x : Nat) (w : Word) : State :=
  match sp with
  | .csr => s.csrWrite x w
  | .txt => { s with txt := s.txt.put x (symTrunc s.cfg w) }
  | .ft => s
  | .node => if x % 8 < 5 then { s with node := s.node.put x (nodeTrunc s.cfg (x % 8) w) } else s
  | .ct => s
  | .ctb => s
  | .bits => { s with bits := s.bits.putAll (bitsCells x w) }
  | .pay => { s with pay := s.pay.put x (w.setWidth 8) }

/-- A write of a word to CMD with BUSY = 0: acceptance (40_command_dispatch.md R120). An illegal word ends at once with
IllegalCommand (60_exceptions.md R248; PHASE stays idle, 47_facade.md R232; DEDUCED, log 7). -/
def State.cmdWrite (s : State) (w : Word) : State :=
  match decode w with
  | .ok i => s.accept w i
  | .error _ => s.illegalCommand w

/-- `MemWrite(space, index, data)` with BUSY = 0 (20_memory.md R61, R62): a write to CMD starts a command, every other one
only stores; a reserved space and an index past a space ignore it (R64). -/
def State.memWrite (s : State) (space : BitVec 4) (index data : Word) : State :=
  match spaceOf space with
  | none => s
  | some sp =>
    if sp = .csr ∧ index = 0 then s.cmdWrite data
    else if index.toNat < spaceWords s.cfg sp then s.spaceWrite sp index.toNat data
    else s

/-! ## Reset -/

/-- The event `Reset`, at any time (70_reset_and_hazards.md R270, R271; 10_state.md R41): the CSRs at their reset values,
PHASE idle, every buffer unspecified anew. The parameters, the host's pending events and what it has read are not the
block's state and stay (DEDUCED, log 15). -/
def State.hostReset (s : State) : State :=
  { State.reset with
    txt := Buf.unspec s.draws
    ft := Buf.unspec s.draws
    node := Buf.unspec s.draws
    ct := Buf.unspec s.draws
    ctb := Buf.unspec s.draws
    bits := Buf.unspec s.draws
    pay := Buf.unspec s.draws
    cfg := s.cfg
    draws := s.draws + 1
    port := s.port
    replies := s.replies }

/-! ## Serving one event -/

/-- The word a MemRead returned goes to the host. -/
def State.reply (s : State) (w : Word) : State := { s with replies := w :: s.replies }

/-- One host event while BUSY = 0. -/
def State.serve (s : State) (e : HostEvent) : State :=
  match e with
  | .read space index => s.reply (s.memRead space index)
  | .write space index data => s.memWrite space index data
  | .reset => s.hostReset

/-- One host event while BUSY = 1 (20_memory.md R65): STATUS is read, every other read, reserved ones included, returns UNSPEC
(DEDUCED, log 8), every write is
ignored, Reset resets (70_reset_and_hazards.md R270). -/
def State.serveBusy (s : State) (e : HostEvent) : State :=
  match e with
  | .read space index =>
    if spaceOf space = some .csr ∧ index = 1 then s.reply s.status
    else s.drawn.reply (Config.freeWord s.draws .busyRead)
  | .write _ _ _ => s
  | .reset => s.hostReset

end Sys2Proof.Machine
end

