-- ==== Sys2Proof/Machine/Sequencer.lean ====
section
/-! DEFINITION. One step of the machine: the running command ends, or one host event is served (40_command_dispatch.md R120,
R121; 20_memory.md R65, R75). -/

namespace Sys2Proof.Machine

/-- The completion of the accepted command word `w` (40_command_dispatch.md R121): the command's meaning, or
IllegalCommand. Acceptance lets no illegal word run, so the second arm is taken only in states no run reaches. -/
def runWord (w : Word) (s : State) : Host.Outcome State Fault Refusal :=
  match decode w with
  | .ok i => exec i s
  | .error _ => .next (s.illegalCommand w)

/-- One step. While a command runs (BUSY = 1), host events are served under the lock-out of 20_memory.md R65 as long as
`busyLeft` lasts and the host has any; then the command completes. While none runs, the oldest host event is served, and
with none pending the block holds its state (60_exceptions.md R258). -/
def advance (s : State) : Host.Outcome State Fault Refusal :=
  match s.running, s.port with
  | some w, [] => runWord w s
  | some w, e :: rest =>
    match s.busyLeft with
    | 0 => runWord w s
    | n + 1 => .next (State.serveBusy { s with port := rest, busyLeft := n } e)
  | none, [] => .next s
  | none, e :: rest => .next (State.serve { s with port := rest } e)

/-- The state in which the command word `w` has been accepted and the very next step runs it: acceptance with no host
event to be served first (DESIGN CHOICE, log 14). An illegal word is not accepted as a command; the next step ends it. -/
def State.loadWord (s : State) (w : Word) : State :=
  match decode w with
  | .ok i => { s.accept w i with busyLeft := 0 }
  | .error _ => { s with running := some w, busyLeft := 0 }

end Sys2Proof.Machine
end

