-- ==== Sys2Proof/Machine/Step.lean ====
section
/-! DEFINITION. The step of the machine, and the placing of a command word where the next step takes it from. -/

namespace Sys2Proof.Machine

/-- One step of HMC-CORE with its host. -/
def step (s : State) : Host.Outcome State Fault Refusal := advance s

/-- `s` with the command word `w` accepted, so that the next step runs it (DESIGN CHOICE, log 14). A command is one 32-bit word
(30_encoding.md R90); the bits from `nbits` up are 0. -/
def State.withFetchWord (s : State) (nbits w : Nat) : State := s.loadWord (BitVec.ofNat 32 (w % 2 ^ nbits))

end Sys2Proof.Machine
end

