-- ==== Sys2Proof/Safety.lean ====
section
/-! DEFINITION. The terms the claims use: how a command has ended, what each command writes, the invariant of the machine,
and views of the tree and of a binary64 that are written independently of the meanings. -/

namespace Sys2Proof.Machine

/-! ## How a command has ended -/

/-- Ended without error (40_command_dispatch.md R122). -/
def State.EndedOk (t : State) : Prop :=
  t.status = statusDone ∧ t.err = 0 ∧ t.errInfo = 0 ∧ t.phase = .idle ∧ t.work = .dead ∧ t.running = none

/-- Ended with an error and its ERRINFO (60_exceptions.md R253). -/
def State.EndedWith (t : State) (kind : ErrKind) (info : Word) : Prop :=
  t.status = statusError ∧ t.err = kind.code ∧ t.errInfo = info ∧ t.phase = .idle ∧ t.work = .dead ∧ t.running = none

/-- A run is safe when it goes on: no step faults and none refuses (40_command_dispatch.md R126, 60_exceptions.md R251). -/
def GoesOn (o : Host.Outcome State Fault Refusal) : Prop := ∃ t, o = .next t

/-! ## What each command writes: the "Writes" lines of files 41 to 47 -/

/-- The buffers a command writes (20_memory.md R78; 47_facade.md R220, R223, R225). -/
def writesSpace : Instr → Space → Bool
  | .freq, sp => sp == .ft
  | .build, sp => sp == .node
  | .gen, sp => sp == .ct || sp == .ctb
  | .encode, sp => sp == .bits
  | .pack, sp => sp == .pay
  | .unpack, sp => sp == .bits
  | .decode, sp => sp == .txt
  | .compress, sp => sp != .txt
  | .decompress, sp => sp == .bits || sp == .txt
  | .clear, _ => false

/-- The operand and statistics registers a command writes, by CSR index (20_memory.md R78; 47_facade.md R220, R223,
R225). -/
def writesCsr : Instr → Nat → Bool
  | .freq, x => x == 5
  | .build, x => x == 6 || x == 7
  | .gen, x => x == 8
  | .encode, x => x == 9
  | .pack, x => x == 10 || x == 11
  | .unpack, _ => false
  | .decode, x => x == 4
  | .compress, x => 5 ≤ x && x ≤ 17
  | .decompress, x => x == 4
  | .clear, x => 4 ≤ x && x ≤ 17

/-- The errors a command can raise (the column "raised by" of 60_exceptions.md R240; 47_facade.md R220 for COMPRESS). -/
def raises : Instr → List ErrKind
  | .freq => [.capacityExceeded]
  | .build => [.emptyTable]
  | .gen => [.badTree, .capacityExceeded]
  | .encode => [.missingCode, .capacityExceeded]
  | .pack => [.capacityExceeded]
  | .unpack => [.invalidCharacterEncoding, .capacityExceeded, .bitLengthOutOfRange]
  | .decode => [.malformedBitstream, .badTree, .capacityExceeded]
  | .compress => [.capacityExceeded]
  | .decompress =>
    [.malformedBitstream, .invalidCharacterEncoding, .badTree, .capacityExceeded, .bitLengthOutOfRange]
  | .clear => []

/-! ## The invariant -/

/-- The control state is one of those of 10_state.md R34, R35, R36, R38: idle with STATUS 0, 2 or 6, or a legal command
running with STATUS 1 at its first stage; ERRF exactly when ERR ≠ 0; ERRINFO = 0 when ERR = 0; ERR at most 8. -/
structure ControlOk (s : State) : Prop where
  idle : s.running = none →
    s.phase = .idle ∧ s.work = .dead ∧ s.busyLeft = 0 ∧ (s.status = 0 ∨ s.status = statusDone ∨ s.status = statusError)
  busy : ∀ w, s.running = some w →
    s.status = statusBusy ∧ ∃ i, decode w = .ok i ∧ s.phase = firstStage i ∧ s.work = startWork (firstStage i) s
  errf : s.status = statusError ↔ s.err ≠ 0
  info : s.err = 0 → s.errInfo = 0
  code : s.err.toNat ≤ 8

/-- The invariant of the machine: legal parameters (00_scope.md R8), canonical memory with every element in its buffer and
within its width, a legal control state. -/
structure Inv (s : State) : Prop where
  valid : s.cfg.Valid
  memory : Memory.wf s
  control : ControlOk s

/-! ## The tree, seen by its paths -/

/-- The leaves below handle `k` with the path to each, left subtree before right subtree; `none` when an internal node
below `k` has a child that is not NONE and not below it (10_state.md R26; 43_code_table_generator.md R170). -/
def leafPaths (nodes : Nat → Node) : Nat → Nat → Option (List CodeRow)
  | 0, _ => none
  | fuel + 1, k =>
    if (nodes k).leaf then some [⟨(nodes k).sym, []⟩]
    else
      match
        (if (nodes k).left = noneHandle then some []
         else if (nodes k).left.toNat < k then leafPaths nodes fuel (nodes k).left.toNat else none),
        (if (nodes k).right = noneHandle then some []
         else if (nodes k).right.toNat < k then leafPaths nodes fuel (nodes k).right.toNat else none) with
      | some l, some r => some (l.map (fun e => ⟨e.sym, false :: e.code⟩) ++ r.map (fun e => ⟨e.sym, true :: e.code⟩))
      | _, _ => none

/-- Where the walk of 43_code_table_generator.md R170 from handle `k` first meets a child that is not NONE and not below its
parent: how many leaves it has recorded before, and that parent. `none` when it meets none. -/
def firstBadChild (nodes : Nat → Node) : Nat → Nat → Option (Nat × Nat)
  | 0, _ => none
  | fuel + 1, k =>
    let right (before : Nat) : Option (Nat × Nat) :=
      if (nodes k).right = noneHandle then none
      else if k ≤ (nodes k).right.toNat then some (before, k)
      else (firstBadChild nodes fuel (nodes k).right.toNat).map fun b => (before + b.1, b.2)
    if (nodes k).leaf then none
    else if (nodes k).left = noneHandle then right 0
    else if k ≤ (nodes k).left.toNat then some (0, k)
    else
      match leafPaths nodes fuel (nodes k).left.toNat with
      | none => firstBadChild nodes fuel (nodes k).left.toNat
      | some l => right l.length

/-- The handle a path leads to from handle `k`, every step from an internal node to a present child below it
(45_decoder.md R190). -/
def descend (nodes : Nat → Node) : Nat → List Bool → Option Nat
  | k, [] => some k
  | k, b :: path =>
    if (nodes k).leaf then none
    else
      let c := if b then (nodes k).right else (nodes k).left
      if c = noneHandle ∨ k ≤ c.toNat then none else descend nodes c.toNat path

/-- A row is a codeword of the tree: its code is a non-empty path from the root to a leaf holding its symbol
(30_encoding.md R95). -/
def IsCodeword (nodes : Nat → Node) (root : Nat) (e : CodeRow) : Prop :=
  e.code ≠ [] ∧ ∃ h, descend nodes root e.code = some h ∧ (nodes h).leaf = true ∧ (nodes h).sym = e.sym

/-- The bits of codewords one after another (44_encoder.md R180). -/
def codewordBits (rows : List CodeRow) : List Bool := rows.flatMap CodeRow.code

/-! ## The greedy arena (42_tree_builder.md R150 to R153) -/

/-- `h` is a child of node `k`. -/
def IsChild (nodes : Nat → Node) (h k : Nat) : Prop := (nodes k).left.toNat = h ∨ (nodes k).right.toNat = h

/-- `a` comes before `b` in the queue: by weight, then by handle (42_tree_builder.md R150). -/
def Before (nodes : Nat → Node) (a b : Nat) : Prop :=
  (nodes a).weight.toNat < (nodes b).weight.toNat ∨ ((nodes a).weight = (nodes b).weight ∧ a < b)

/-- The arena the greedy merge makes from a table of `n ≥ 2` entries, told without a queue: the leaves are entries
`0 .. n − 1` in table order (42_tree_builder.md R151); each later entry `k` joins the two nodes that come first among those
made before `k` and not joined before, the first as its left child, with the sum of their weights (R152, R153). -/
structure GreedyArena (nodes : Nat → Node) (table : List FtEntry) : Prop where
  leaf : ∀ j (h : j < table.length),
    nodes j = ⟨true, table[j].sym, table[j].count, noneHandle, noneHandle⟩
  inner : ∀ k, table.length ≤ k → k < 2 * table.length - 1 →
    (nodes k).leaf = false ∧ (nodes k).sym = 0 ∧ (nodes k).left.toNat < k ∧ (nodes k).right.toNat < k ∧
    (nodes k).weight.toNat = (nodes (nodes k).left.toNat).weight.toNat + (nodes (nodes k).right.toNat).weight.toNat
  once : ∀ h k k', table.length ≤ k → k < k' → k' < 2 * table.length - 1 → IsChild nodes h k → ¬ IsChild nodes h k'
  first : ∀ k, table.length ≤ k → k < 2 * table.length - 1 → Before nodes (nodes k).left.toNat (nodes k).right.toNat
  least : ∀ h k, table.length ≤ k → k < 2 * table.length - 1 → h < k → ¬ IsChild nodes h k →
    (∀ k', table.length ≤ k' → k' < k → ¬ IsChild nodes h k') → Before nodes (nodes k).right.toNat h

/-! ## The table of the text-safe form (30_encoding.md R98) -/

/-- The 64 characters in the order of their values (30_encoding.md R98). -/
def b64Alphabet : List Char := "ABCDEFGHIJKLMNOPQRSTUVWXYZabcdefghijklmnopqrstuvwxyz0123456789+/".toList

/-- The character of a 6-bit value, read off the table (30_encoding.md R98). -/
def b64Letter (x : BitVec 6) : Byte := BitVec.ofNat 8 ((b64Alphabet.getD x.toNat '=').toNat)

/-! ## The value of a binary64 -/

/-- The rational a finite binary64 stands for (30_encoding.md R100). -/
def f64Value (x : BitVec 64) : ℚ :=
  (if (exactOf x).neg then -1 else 1) * (exactOf x).mant * (2 : ℚ) ^ (exactOf x).exp

/-- A finite binary64: the exponent field is not all ones (30_encoding.md R100). -/
def F64Finite (x : BitVec 64) : Prop := (x.extractLsb' 52 11).toNat ≠ 2047

/-- `x` is the binary64 nearest to `r`, and of two equally near the one with an even fraction (47_facade.md R222: round to
nearest, ties to even). -/
def F64Nearest (x : BitVec 64) (r : ℚ) : Prop :=
  F64Finite x ∧ ∀ y, F64Finite y → |f64Value x - r| ≤ |f64Value y - r| ∧
    (|f64Value x - r| = |f64Value y - r| → f64Value y ≠ f64Value x → (exactOf x).mant % 2 = 0)

end Sys2Proof.Machine
end

