-- ==== Sys2Proof/Certificates/Slice0/Obligations.lean ====
section
/-! DEFINITION. The statements about the model, for the provers. Each docstring names the rule of spec/ it formalises. -/

open Sys2Proof Sys2Proof.Machine

/-! ## Encoding -/

/-- 30_encoding.md R91: the ten words of the opcode map and their commands. -/
def Obligations.TableWordsDecodeToTheirCommands : Prop :=
  decode 0x00000001#32 = .ok .freq ∧ decode 0x00000002#32 = .ok .build ∧ decode 0x00000003#32 = .ok .gen ∧
  decode 0x00000004#32 = .ok .encode ∧ decode 0x00000005#32 = .ok .pack ∧ decode 0x00000006#32 = .ok .unpack ∧
  decode 0x00000007#32 = .ok .decode ∧ decode 0x00000008#32 = .ok .compress ∧
  decode 0x00000009#32 = .ok .decompress ∧ decode 0x0000000F#32 = .ok .clear

/-- 30_encoding.md R91, R92: a word decodes to a command exactly when it is that command's encoding, so every bit of a
command word matters. -/
def Obligations.DecodeAcceptsExactlyTheEncodings : Prop :=
  ∀ (w : Word) (i : Instr), decode w = .ok i ↔ w = encode i

/-! ## The step -/

/-- 40_command_dispatch.md R121: with no host event to serve first, the step of a state with an accepted command is that
command's meaning at that state; the step adds nothing around it. -/
def Obligations.StepRunsTheAcceptedCommand : Prop :=
  ∀ (s : State) (w : Word) (i : Instr), s.running = some w → decode w = .ok i → (s.port = [] ∨ s.busyLeft = 0) →
    step s = exec i s

/-- A word of the opcode table placed by `withFetchWord` is run by the very next step (log 14, the model's own). -/
def Obligations.PlacedWordRunsNext : Prop :=
  ∀ (s : State) (nbits w : Nat) (i : Instr), decodeTableWord nbits w = some i →
    step (s.withFetchWord nbits w) = exec i (s.withFetchWord nbits w)

/-- 40_command_dispatch.md R120: a legal word written to CMD while no command runs is accepted; while one runs the write is
ignored. -/
def Obligations.CommandWordIsAcceptedWhenIdle : Prop :=
  (∀ (s : State) (rest : List HostEvent) (w : Word) (i : Instr),
    s.running = none → s.port = .write 0 0 w :: rest → decode w = .ok i →
    ∃ t, step s = .next t ∧ t.status = 1#32 ∧ t.err = 0 ∧ t.errInfo = 0 ∧ t.phase = firstStage i ∧
      t.running = some w ∧ t.port = rest ∧ t.replies = s.replies ∧ t.cfg = s.cfg ∧
      (∀ sp x, sp ≠ .csr → t.spaceRead sp x = s.spaceRead sp x) ∧
      (∀ x, 4 ≤ x → t.csrRead x = s.csrRead x)) ∧
  (∀ (s : State) (rest : List HostEvent) (w w' : Word) (n : Nat),
    s.running = some w' → s.port = .write 0 0 w :: rest → s.busyLeft = n + 1 →
    step s = .next { s with port := rest, busyLeft := n })

/-- 60_exceptions.md R248, 30_encoding.md R92: a word that is not one of the ten, written to CMD while idle, ends with
IllegalCommand; nothing but STATUS, ERR and ERRINFO changes. That it ends in the very step that serves the write, so that
STATUS is 6 at once and never reads 1, is the model's choice (log 7, DEDUCED from 47_facade.md R232 and 92_eei_decisions.md
D5, "ends at once", beside 40_command_dispatch.md R120, which sets BUSY at acceptance). -/
def Obligations.IllegalWordEndsWithIllegalCommand : Prop :=
  ∀ (s : State) (rest : List HostEvent) (w : Word), ControlOk s → s.running = none → s.port = .write 0 0 w :: rest →
    ¬ (1 ≤ w.toNat ∧ w.toNat ≤ 9) → w.toNat ≠ 15 →
    step s = .next { s with port := rest, status := 6#32, err := 8#8, errInfo := w }

/-- 20_memory.md R65: while a command runs, STATUS reads 1, every other read returns some value, every write is ignored,
and none of them changes the block. -/
def Obligations.HostIsLockedOutWhileBusy : Prop :=
  ∀ (s : State) (e : HostEvent) (rest : List HostEvent) (w : Word) (n : Nat),
    ControlOk s → s.running = some w → s.port = e :: rest → s.busyLeft = n + 1 → e ≠ .reset →
    ∃ t, step s = .next t ∧
      t = { s with port := rest, busyLeft := n, replies := t.replies, draws := t.draws } ∧
      (e = .read 0 1 → t.replies = 1#32 :: s.replies) ∧
      (∀ sp x, e = .read sp x → ∃ v, t.replies = v :: s.replies) ∧
      (∀ sp x d, e = .write sp x d → t.replies = s.replies)

/-- 40_command_dispatch.md R126, 60_exceptions.md R251, R258: no step stops the machine, none changes the parameters (log 1,
the model's own), and an idle block with no host event pending holds its state. -/
def Obligations.EveryStepGoesOn : Prop :=
  ∀ s : State, (∃ t, step s = .next t ∧ t.cfg = s.cfg) ∧ (s.running = none → s.port = [] → step s = .next s)

/-- 40_command_dispatch.md R126: an accepted command ends within finitely many steps, and unless a reset cuts it short it
ends in one of the two ways. -/
def Obligations.EveryAcceptedCommandEnds : Prop :=
  ∀ (s : State) (w : Word), s.running = some w →
    ∃ (k : Nat) (t : State), k ≤ s.busyLeft + 1 ∧ Host.Core.run core k s = .next t ∧ t.running = none ∧
      ((∀ e ∈ s.port, e ≠ .reset) → t.EndedOk ∨ ∃ kind info, t.EndedWith kind info)

/-! ## The invariant -/

/-- The invariant holds right after reset. -/
def Obligations.ResetMeetsTheInvariant : Prop := Inv State.reset

/-- Every step keeps the invariant: canonical memory (log 13) and a control state 10_state.md R34 to R38 allow. -/
def Obligations.EveryStepKeepsTheInvariant : Prop := ∀ s t : State, Inv s → step s = .next t → Inv t

/-- 10_state.md R34: under the invariant BUSY is 1 exactly while PHASE is not idle, ERRF exactly when ERR ≠ 0, and STATUS is
0, 1, 2 or 6. -/
def Obligations.StatusAgreesWithPhaseAndErr : Prop :=
  ∀ s : State, Inv s →
    (s.busy = true ↔ s.phase ≠ .idle) ∧ (s.errf = true ↔ s.err ≠ 0) ∧
    (s.status = 0#32 ∨ s.status = 1#32 ∨ s.status = 2#32 ∨ s.status = 6#32)

/-! ## Reset -/

/-- 10_state.md R41: every CSR of the state after reset is 0 but ROOT, PHASE is idle, the working registers are dead, no
buffer cell has a fixed value. -/
def Obligations.ResetStateIsTheSpecs : Prop :=
  (∀ x < 18, State.reset.csrRead x = if x = 7 then 0xFFFFFFFF#32 else 0#32) ∧
  State.reset.phase = .idle ∧ State.reset.work = .dead ∧
  State.reset.txt.cells = [] ∧ State.reset.ft.cells = [] ∧ State.reset.node.cells = [] ∧ State.reset.ct.cells = [] ∧
  State.reset.ctb.cells = [] ∧ State.reset.bits.cells = [] ∧ State.reset.pay.cells = []

/-- 70_reset_and_hazards.md R270, R271: the event Reset, idle or busy, gives every CSR its reset value, PHASE idle and
unspecified buffers. -/
def Obligations.ResetEventFromAnyState : Prop :=
  ∀ (s : State) (rest : List HostEvent), s.port = .reset :: rest → (s.running = none ∨ s.busyLeft ≠ 0) →
    ∃ t, step s = .next t ∧
      (∀ x, t.csrRead x = if x = 7 then 0xFFFFFFFF#32 else 0#32) ∧
      t.phase = .idle ∧ t.work = .dead ∧ t.running = none ∧
      t.txt.cells = [] ∧ t.ft.cells = [] ∧ t.node.cells = [] ∧ t.ct.cells = [] ∧ t.ctb.cells = [] ∧
      t.bits.cells = [] ∧ t.pay.cells = []

/-! ## The host port -/

/-- 20_memory.md R62: a read while idle returns a word and changes nothing. 10_state.md R32 and 20_memory.md R63, R66 to R71:
which word it is, space by space; a CTB or BITS word holds its bits most significant first. In every state that meets the
invariant `kind` and the Symbols are read zero-extended. -/
def Obligations.HostReadHasNoSideEffect : Prop :=
  (∀ (s : State) (rest : List HostEvent) (sp : BitVec 4) (x : Word), s.running = none → s.port = .read sp x :: rest →
    step s = .next { s with port := rest, replies := s.memRead sp x :: s.replies }) ∧
  (∀ s : State,
    (List.range 18).map (fun x => s.memRead 0 (BitVec.ofNat 32 x)) =
      [0, s.status, s.err.setWidth 32, s.errInfo, s.txtLen, s.ftCnt, s.nodeCnt, s.root, s.ctCnt, s.bitLen,
       s.pad.setWidth 32, s.payLen, s.origBits, s.compBits, s.ratio.extractLsb' 0 32, s.ratio.extractLsb' 32 32,
       s.savings.extractLsb' 0 32, s.savings.extractLsb' 32 32]) ∧
  (∀ (s : State) (x : Word),
    (x.toNat < s.cfg.maxTxt → s.memRead 1 x = s.txtAt x.toNat) ∧
    (x.toNat < 2 * s.cfg.maxSyms →
      s.memRead 2 x = if x.toNat % 2 = 0 then (s.ftAt (x.toNat / 2)).sym else (s.ftAt (x.toNat / 2)).count) ∧
    (x.toNat < 2 * s.cfg.maxNodes →
      s.memRead 4 x = if x.toNat % 2 = 0 then (s.ctAt (x.toNat / 2)).sym else (s.ctAt (x.toNat / 2)).len) ∧
    (x.toNat < s.cfg.codeWords * s.cfg.maxNodes → ∀ n < 32, (s.memRead 5 x).getLsbD (31 - n) =
      s.codeBit (x.toNat / s.cfg.codeWords) (32 * (x.toNat % s.cfg.codeWords) + n)) ∧
    (x.toNat < (s.cfg.maxBits + 31) / 32 → ∀ n < 32, (s.memRead 6 x).getLsbD (31 - n) = s.bitAt (32 * x.toNat + n)) ∧
    (x.toNat < s.cfg.maxPay → s.memRead 7 x = (s.payAt x.toNat).setWidth 32)) ∧
  (∀ (s : State) (x : Word), Inv s → x.toNat < 8 * s.cfg.maxNodes → x.toNat % 8 < 5 →
    s.memRead 3 x = [if (s.nodeAt (x.toNat / 8)).leaf then 1 else 0, (s.nodeAt (x.toNat / 8)).sym,
      (s.nodeAt (x.toNat / 8)).weight, (s.nodeAt (x.toNat / 8)).left, (s.nodeAt (x.toNat / 8)).right].getD (x.toNat % 8) 0) ∧
  (∀ (s : State) (j : Nat), Inv s → (s.txtAt j).toNat < 2 ^ s.cfg.symW ∧ (s.ftAt j).sym.toNat < 2 ^ s.cfg.symW ∧
    (s.nodeAt j).sym.toNat < 2 ^ s.cfg.symW ∧ (s.ctAt j).sym.toNat < 2 ^ s.cfg.symW)

/-- 20_memory.md R64: the reads that return 0 and the writes that are ignored. -/
def Obligations.ReservedAccessesReadZeroAndIgnoreWrites : Prop :=
  ∀ (s : State) (sp : BitVec 4) (x d : Word),
    (8 ≤ sp.toNat → s.memRead sp x = 0 ∧ s.memWrite sp x d = s) ∧
    (∀ k, spaceOf sp = some k → spaceWords s.cfg k ≤ x.toNat → s.memRead sp x = 0 ∧ s.memWrite sp x d = s) ∧
    (sp = 3#4 → 5 ≤ x.toNat % 8 → s.memRead sp x = 0 ∧ s.memWrite sp x d = s) ∧
    (sp = 2#4 ∨ sp = 4#4 ∨ sp = 5#4 → s.memWrite sp x d = s) ∧
    (sp = 0#4 → x.toNat ∈ [1, 2, 3, 5, 8, 10, 12, 13, 14, 15, 16, 17] → s.memWrite sp x d = s) ∧
    (sp = 0#4 → x = 0 → s.memRead sp x = 0)

/-- 20_memory.md R63, R66, R68, R70, R71, 10_state.md R32: a word written by the host reads back as stored: all of it, or the
low bits of a narrow element zero-extended. -/
def Obligations.HostWriteReadsBackTruncated : Prop :=
  ∀ (s : State) (x d : Word),
    (x.toNat < s.cfg.maxTxt → (s.memWrite 1 x d).memRead 1 x = BitVec.ofNat 32 (d.toNat % 2 ^ s.cfg.symW)) ∧
    (x.toNat < 8 * s.cfg.maxNodes →
      (x.toNat % 8 = 0 → (s.memWrite 3 x d).memRead 3 x = d &&& 1#32) ∧
      (x.toNat % 8 = 1 → (s.memWrite 3 x d).memRead 3 x = BitVec.ofNat 32 (d.toNat % 2 ^ s.cfg.symW)) ∧
      (2 ≤ x.toNat % 8 → x.toNat % 8 ≤ 4 → (s.memWrite 3 x d).memRead 3 x = d)) ∧
    (x.toNat < (s.cfg.maxBits + 31) / 32 → (s.memWrite 6 x d).memRead 6 x = d) ∧
    (x.toNat < s.cfg.maxPay → (s.memWrite 7 x d).memRead 7 x = d &&& 0xFF#32) ∧
    (x.toNat ∈ [4, 6, 7, 9, 11] → (s.memWrite 0 x d).memRead 0 x = d)

/-- 20_memory.md R62: a host write other than to CMD only stores: every other word of every space reads as before, and the
step that serves it is that store and changes nothing of the hidden state. -/
def Obligations.HostWriteLeavesEveryOtherWord : Prop :=
  (∀ (s : State) (sp sp' : BitVec 4) (x x' d : Word), (sp = 0 → x ≠ 0) → (sp' ≠ sp ∨ x' ≠ x) →
    (s.memWrite sp x d).memRead sp' x' = s.memRead sp' x') ∧
  (∀ (s : State) (rest : List HostEvent) (sp : BitVec 4) (x d : Word), s.running = none →
    s.port = .write sp x d :: rest → (sp = 0 → x ≠ 0) →
    ∃ t, step s = .next t ∧ t = { s.memWrite sp x d with port := rest } ∧ t.phase = s.phase ∧ t.work = s.work ∧
      t.running = none ∧ t.cfg = s.cfg ∧ t.replies = s.replies)

/-! ## Every command -/

/-- 40_command_dispatch.md R122, 60_exceptions.md R240, R253: every command other than COMPRESS ends, without error or with
one of the errors the table lists for it. -/
def Obligations.CommandsEndOkOrWithAListedError : Prop :=
  ∀ (i : Instr) (s : State), i ≠ .compress →
    ∃ t, exec i s = .next t ∧ (t.EndedOk ∨ ∃ kind ∈ raises i, ∃ info, t.EndedWith kind info)

/-- THE FRAME of FREQ, BUILD, GEN, ENCODE, PACK, UNPACK, DECODE, COMPRESS, DECOMPRESS and CLEAR (20_memory.md R78; the "Writes"
lines of 41 to 47): every word of every buffer and every operand and statistics register the command does not list is
unchanged, with or without error. Of the control registers every command writes STATUS, ERR and ERRINFO. -/
def Obligations.CommandsWriteOnlyTheirOutputs : Prop :=
  ∀ (i : Instr) (s t : State), exec i s = .next t →
    (∀ sp x, sp ≠ .csr → writesSpace i sp = false → t.spaceRead sp x = s.spaceRead sp x) ∧
    (∀ x, 4 ≤ x → writesCsr i x = false → t.csrRead x = s.csrRead x) ∧
    t.cfg = s.cfg ∧ t.port = s.port ∧ t.replies = s.replies

/-! ## FREQ -/

/-- 41_frequency_analyzer.md R140: FREQ makes the table of the text's distinct symbols in first-occurrence order, each with
the number of positions that hold it; the empty text gives the empty table. -/
def Obligations.FreqCountsTheText : Prop :=
  ∀ s : State, s.cfg.Valid → s.txtLen.toNat ≤ s.cfg.maxTxt → s.text.eraseDups.length ≤ s.cfg.maxSyms →
    ∃ t, exec .freq s = .next t ∧ t.EndedOk ∧ t.freqTable.map FtEntry.sym = s.text.eraseDups ∧
      ∀ e ∈ t.freqTable, e.count.toNat = s.text.count e.sym

/-- 41_frequency_analyzer.md R141: FREQ raises CapacityExceeded(0) for a text longer than MAX_TXT and for one with more than
MAX_SYMS distinct symbols. -/
def Obligations.FreqTrapsOnCapacity : Prop :=
  ∀ s : State, s.cfg.Valid → (s.cfg.maxTxt < s.txtLen.toNat ∨ s.cfg.maxSyms < s.text.eraseDups.length) →
    ∃ t, exec .freq s = .next t ∧ t.EndedWith .capacityExceeded 0

/-- 41_frequency_analyzer.md R142: the counts are positive and sum to TXT_LEN, the symbols are distinct, FT_CNT = 0 exactly
when TXT_LEN = 0, FT_CNT ≤ min(TXT_LEN, MAX_SYMS); no other stage writes the table. -/
def Obligations.FreqTableAddsUp : Prop :=
  (∀ s t : State, s.cfg.Valid → exec .freq s = .next t → t.EndedOk →
    (∀ e ∈ t.freqTable, 1 ≤ e.count.toNat) ∧ (t.freqTable.map FtEntry.sym).Nodup ∧
    (t.freqTable.map fun e => e.count.toNat).sum = s.txtLen.toNat ∧
    (t.ftCnt = 0 ↔ s.txtLen = 0) ∧ t.ftCnt.toNat ≤ s.txtLen.toNat ∧ t.ftCnt.toNat ≤ s.cfg.maxSyms) ∧
  (∀ (i : Instr) (s t : State), i ∈ [.build, .gen, .encode, .pack, .unpack, .decode, .decompress] →
    exec i s = .next t → t.freqTable = s.freqTable)

/-! ## BUILD -/

/-- 42_tree_builder.md R150: extractMin takes the handle of least weight, among equal weights the least handle. -/
def Obligations.ExtractMinTakesTheLeastKey : Prop :=
  ∀ (nodes : List Node) (pq : List Nat), pq ≠ [] →
    ∃ m rest, extractMin nodes pq = some (m, rest) ∧ m ∈ pq ∧ rest = pq.erase m ∧
      ∀ h ∈ pq, weightOf nodes m < weightOf nodes h ∨ (weightOf nodes m = weightOf nodes h ∧ m ≤ h)

/-- 42_tree_builder.md R154: one distinct symbol is wrapped in the synthetic root. -/
def Obligations.BuildWrapsASingleLeaf : Prop :=
  ∀ s : State, s.cfg.Valid → s.ftCnt = 1 →
    ∃ t, exec .build s = .next t ∧ t.EndedOk ∧ t.nodeCnt = 2 ∧ t.root = 1 ∧
      t.nodeAt 0 = ⟨true, (s.ftAt 0).sym, (s.ftAt 0).count, noneHandle, noneHandle⟩ ∧
      t.nodeAt 1 = ⟨false, 0, (s.ftAt 0).count, 0, noneHandle⟩

/-- 42_tree_builder.md R151, R152, R153: from two entries up BUILD makes the greedy arena, first-extracted left. -/
def Obligations.BuildMakesTheGreedyArena : Prop :=
  ∀ s : State, s.cfg.Valid → 2 ≤ s.ftCnt.toNat → s.ftCnt.toNat ≤ s.cfg.maxSyms →
    (s.freqTable.map fun e => e.count.toNat).sum < 2 ^ 32 →
    ∃ t, exec .build s = .next t ∧ t.EndedOk ∧ t.nodeCnt.toNat = 2 * s.ftCnt.toNat - 1 ∧
      t.root.toNat = 2 * s.ftCnt.toNat - 2 ∧ GreedyArena t.nodeAt s.freqTable

/-- 42_tree_builder.md R156: every handle below the root is the child of exactly one internal node, internal weights do not
decrease, and the root's weight is the sum of all counts. -/
def Obligations.BuildArenaIsOneTree : Prop :=
  ∀ s t : State, s.cfg.Valid → 2 ≤ s.ftCnt.toNat → s.ftCnt.toNat ≤ s.cfg.maxSyms →
    (s.freqTable.map fun e => e.count.toNat).sum < 2 ^ 32 → exec .build s = .next t →
    (∀ h < t.root.toNat, ∃! k, s.ftCnt.toNat ≤ k ∧ k ≤ t.root.toNat ∧ IsChild t.nodeAt h k) ∧
    (∀ k, s.ftCnt.toNat ≤ k → k < t.root.toNat →
      (t.nodeAt k).weight.toNat ≤ (t.nodeAt (k + 1)).weight.toNat) ∧
    (t.nodeAt t.root.toNat).weight.toNat = (s.freqTable.map fun e => e.count.toNat).sum

/-- 60_exceptions.md R244: BUILD on the empty table raises EmptyTable(0); COMPRESS never does. -/
def Obligations.BuildTrapsOnTheEmptyTable : Prop :=
  (∀ s : State, s.ftCnt = 0 → ∃ t, exec .build s = .next t ∧ t.EndedWith .emptyTable 0) ∧
  (∀ (s t : State) (info : Word), exec .compress s = .next t → ¬ t.EndedWith .emptyTable info)

/-- 42_tree_builder.md R155: arena entries at handles from NODE_CNT on are unchanged. -/
def Obligations.BuildKeepsEntriesPastTheTree : Prop :=
  ∀ s t : State, s.cfg.Valid → s.ftCnt ≠ 0 → s.ftCnt.toNat ≤ s.cfg.maxSyms → exec .build s = .next t →
    ∀ k, t.nodeCnt.toNat ≤ k → t.nodeAt k = s.nodeAt k

/-! ## GEN -/

/-- 43_code_table_generator.md R170, R171: GEN records the leaves below the root with the paths to them, left subtree first;
the empty path becomes "0". 20_memory.md R69: the bits of an entry past its code read 0. -/
def Obligations.GenRecordsTheLeafPaths : Prop :=
  ∀ (s : State) (rows : List CodeRow), s.cfg.Valid → rootValid s.cfg s.nodeCnt s.root = true →
    leafPaths s.nodeAt (s.root.toNat + 1) s.root.toNat = some rows → rows.length ≤ s.cfg.maxNodes →
    ∃ t, exec .gen s = .next t ∧ t.EndedOk ∧
      (t.codeTable = rows.map fun e => ⟨e.sym, if e.code = [] then [false] else e.code⟩) ∧
      ∀ j < t.ctCnt.toNat, ∀ n, (t.ctAt j).len.toNat ≤ n → t.codeBit j n = false

/-- 43_code_table_generator.md R170, R172, 60_exceptions.md R245, R246: an invalid root raises BadTree(ROOT). When the walk
meets a child that is not below its parent, the first such parent is one the root leads to, and GEN raises BadTree(that
parent) if the leaves recorded before it fit MAX_NODES, else CapacityExceeded(0), raised before it is reached. With no such
child and too many leaves it raises CapacityExceeded(0). -/
def Obligations.GenTrapsOnABadTree : Prop :=
  ∀ s : State, s.cfg.Valid →
    (rootValid s.cfg s.nodeCnt s.root = false → ∃ t, exec .gen s = .next t ∧ t.EndedWith .badTree s.root) ∧
    (rootValid s.cfg s.nodeCnt s.root = true →
      leafPaths s.nodeAt (s.root.toNat + 1) s.root.toNat = none →
      ∃ (leaves p : Nat) (path : List Bool) (b : Bool), firstBadChild s.nodeAt (s.root.toNat + 1) s.root.toNat = some (leaves, p) ∧
        descend s.nodeAt s.root.toNat path = some p ∧ (s.nodeAt p).leaf = false ∧
        (if b then (s.nodeAt p).right else (s.nodeAt p).left) ≠ noneHandle ∧
        p ≤ (if b then (s.nodeAt p).right else (s.nodeAt p).left).toNat ∧
        ∃ t, exec .gen s = .next t ∧
          (leaves ≤ s.cfg.maxNodes → t.EndedWith .badTree (BitVec.ofNat 32 p)) ∧
          (s.cfg.maxNodes < leaves → t.EndedWith .capacityExceeded 0)) ∧
    (∀ rows, rootValid s.cfg s.nodeCnt s.root = true →
      leafPaths s.nodeAt (s.root.toNat + 1) s.root.toNat = some rows → s.cfg.maxNodes < rows.length →
      ∃ t, exec .gen s = .next t ∧ t.EndedWith .capacityExceeded 0)

/-- 43_code_table_generator.md R173 (b), (c), (d), on any tree GEN accepts: no code is empty, none is a prefix of another,
and the table is in strictly ascending lexicographic order. -/
def Obligations.GenTableIsAnOrderedPrefixCode : Prop :=
  ∀ s t : State, s.cfg.Valid → exec .gen s = .next t → t.EndedOk →
    (∀ e ∈ t.codeTable, e.code ≠ []) ∧
    t.codeTable.Pairwise fun a b => ¬ a.code <+: b.code ∧ ¬ b.code <+: a.code ∧ a.code < b.code

/-! ## ENCODE -/

/-- 44_encoder.md R180: ENCODE concatenates, in input order, the first code the table has for each symbol. -/
def Obligations.EncodeConcatenatesTheCodes : Prop :=
  ∀ s : State, s.cfg.Valid → s.txtLen.toNat ≤ s.cfg.maxTxt → (∀ x ∈ s.text, ∃ e ∈ s.codeTable, e.sym = x) →
    (s.text.flatMap fun x => (lookupCode s.codeTable x).getD []).length ≤ s.cfg.maxBits →
    ∃ t, exec .encode s = .next t ∧ t.EndedOk ∧
      t.bitSeq = s.text.flatMap fun x => (lookupCode s.codeTable x).getD []

/-- 44_encoder.md R181, 60_exceptions.md R243, R246: MissingCode at the first symbol without a code, CapacityExceeded at the
first whose code does not fit, CapacityExceeded for a text longer than MAX_TXT. -/
def Obligations.EncodeTrapsAtTheFirstBadSymbol : Prop :=
  ∀ s : State, s.cfg.Valid →
    (s.cfg.maxTxt < s.txtLen.toNat → ∃ t, exec .encode s = .next t ∧ t.EndedWith .capacityExceeded 0) ∧
    (∀ pre x post, s.txtLen.toNat ≤ s.cfg.maxTxt → s.text = pre ++ x :: post →
      (∀ y ∈ pre, ∃ e ∈ s.codeTable, e.sym = y) →
      (pre.flatMap fun y => (lookupCode s.codeTable y).getD []).length ≤ s.cfg.maxBits →
      ((∀ e ∈ s.codeTable, e.sym ≠ x) →
        ∃ t, exec .encode s = .next t ∧ t.EndedWith .missingCode (BitVec.ofNat 32 pre.length)) ∧
      (∀ code, lookupCode s.codeTable x = some code →
        s.cfg.maxBits < (pre.flatMap fun y => (lookupCode s.codeTable y).getD []).length + code.length →
        ∃ t, exec .encode s = .next t ∧ t.EndedWith .capacityExceeded 0))

/-! ## DECODE -/

/-- 45_decoder.md R194: a bit sequence of length 0 decodes to the empty text whatever the tree. -/
def Obligations.DecodeOfNoBitsIsTheEmptyText : Prop :=
  ∀ s : State, s.bitLen = 0 → ∃ t, exec .decode s = .next t ∧ t.EndedOk ∧ t.txtLen = 0

/-- 45_decoder.md R190: a sequence of codewords of the tree decodes to their symbols. -/
def Obligations.DecodeReadsCodewords : Prop :=
  ∀ (s : State) (rows : List CodeRow), s.cfg.Valid → s.bitLen.toNat ≤ s.cfg.maxBits →
    rootValid s.cfg s.nodeCnt s.root = true → (∀ e ∈ rows, IsCodeword s.nodeAt s.root.toNat e) →
    s.bitSeq = codewordBits rows → rows.length ≤ s.cfg.maxTxt →
    ∃ t, exec .decode s = .next t ∧ t.EndedOk ∧ t.text = rows.map CodeRow.sym

/-- 45_decoder.md R192: input that ends inside a codeword raises MalformedBitstream(BIT_LEN). -/
def Obligations.DecodeTrapsInsideACodeword : Prop :=
  ∀ (s : State) (rows : List CodeRow) (part : List Bool) (h : Nat), s.cfg.Valid → s.bitLen.toNat ≤ s.cfg.maxBits →
    rootValid s.cfg s.nodeCnt s.root = true → (∀ e ∈ rows, IsCodeword s.nodeAt s.root.toNat e) →
    rows.length ≤ s.cfg.maxTxt → part ≠ [] → descend s.nodeAt s.root.toNat part = some h →
    (s.nodeAt h).leaf = false → s.bitSeq = codewordBits rows ++ part →
    ∃ t, exec .decode s = .next t ∧ t.EndedWith .malformedBitstream s.bitLen

/-- 45_decoder.md R193: a bit that selects an absent child (of an internal node, or any bit at a leaf root) raises
MalformedBitstream at that bit. -/
def Obligations.DecodeTrapsAtAnAbsentChild : Prop :=
  ∀ (s : State) (rows : List CodeRow) (part : List Bool) (h : Nat) (b : Bool) (rest : List Bool),
    s.cfg.Valid → s.bitLen.toNat ≤ s.cfg.maxBits →
    rootValid s.cfg s.nodeCnt s.root = true → (∀ e ∈ rows, IsCodeword s.nodeAt s.root.toNat e) →
    rows.length ≤ s.cfg.maxTxt → descend s.nodeAt s.root.toNat part = some h →
    ((s.nodeAt h).leaf = true ∧ part = [] ∨
      (s.nodeAt h).leaf = false ∧ (if b then (s.nodeAt h).right else (s.nodeAt h).left) = noneHandle) →
    s.bitSeq = codewordBits rows ++ part ++ b :: rest →
    ∃ t, exec .decode s = .next t ∧
      t.EndedWith .malformedBitstream (BitVec.ofNat 32 ((codewordBits rows).length + part.length))

/-- 45_decoder.md R191, R195, 60_exceptions.md R245: an invalid root raises BadTree(ROOT), a child not below its parent
BadTree(parent). -/
def Obligations.DecodeTrapsOnABadTree : Prop :=
  (∀ s : State, s.bitLen ≠ 0 → s.bitLen.toNat ≤ s.cfg.maxBits → rootValid s.cfg s.nodeCnt s.root = false →
    ∃ t, exec .decode s = .next t ∧ t.EndedWith .badTree s.root) ∧
  (∀ (s : State) (rows : List CodeRow) (part : List Bool) (h : Nat) (b : Bool) (rest : List Bool),
    s.cfg.Valid → s.bitLen.toNat ≤ s.cfg.maxBits →
    rootValid s.cfg s.nodeCnt s.root = true → (∀ e ∈ rows, IsCodeword s.nodeAt s.root.toNat e) →
    rows.length ≤ s.cfg.maxTxt → descend s.nodeAt s.root.toNat part = some h →
    (s.nodeAt h).leaf = false → (if b then (s.nodeAt h).right else (s.nodeAt h).left) ≠ noneHandle →
    h ≤ (if b then (s.nodeAt h).right else (s.nodeAt h).left).toNat →
    s.bitSeq = codewordBits rows ++ part ++ b :: rest →
    ∃ t, exec .decode s = .next t ∧ t.EndedWith .badTree (BitVec.ofNat 32 h))

/-- 45_decoder.md R191, 60_exceptions.md R246: too many bits, and a symbol too many for TXT. -/
def Obligations.DecodeTrapsOnCapacity : Prop :=
  (∀ s : State, s.cfg.maxBits < s.bitLen.toNat → ∃ t, exec .decode s = .next t ∧ t.EndedWith .capacityExceeded 0) ∧
  (∀ (s : State) (rows : List CodeRow) (e : CodeRow) (rest : List Bool),
    s.cfg.Valid → s.bitLen.toNat ≤ s.cfg.maxBits →
    rootValid s.cfg s.nodeCnt s.root = true → (∀ e ∈ rows, IsCodeword s.nodeAt s.root.toNat e) →
    rows.length = s.cfg.maxTxt → IsCodeword s.nodeAt s.root.toNat e →
    s.bitSeq = codewordBits rows ++ e.code ++ rest →
    ∃ t, exec .decode s = .next t ∧ t.EndedWith .capacityExceeded 0)

/-! ## PACK, UNPACK -/

/-- 30_encoding.md R96: byte `m` takes bits `8m .. 8m + 7`, the first into bit 7, and a byte expands the same way. -/
def Obligations.BytesTakeTheFirstBitMostSignificant : Prop :=
  (∀ (bits : List Bool), bits.length % 8 = 0 → (bytesOfBits bits).length = bits.length / 8 ∧
    ∀ m < bits.length / 8, ((bytesOfBits bits).getD m 0).toNat =
      ((List.range 8).map fun j => (bits.getD (8 * m + j) false).toNat * 2 ^ (7 - j)).sum) ∧
  (∀ (bytes : List Byte), (bitsOfBytes bytes).length = 8 * bytes.length ∧
    ∀ k < 8 * bytes.length, (bitsOfBytes bytes).getD k false = (bytes.getD (k / 8) 0).getLsbD (7 - k % 8))

/-- 30_encoding.md R98: every 6-bit value has the character of the table, and `=` pads. R97: three bytes, first byte most
significant, give the four 6-bit values from the top down, a last group of one or two bytes is filled with zero bits and
padded, and the whole is 4 × ceil(nb / 3) characters. R99: B64Dec gives the bytes whose B64Enc the sequence is, and fails
when there are none. -/
def Obligations.Base64DecodesExactlyItsEncodings : Prop :=
  (∀ x : BitVec 6, b64Char x.toNat = b64Letter x) ∧
  (∀ x y z : Byte, ∀ rest : List Byte, b64Enc (x :: y :: z :: rest) =
    [b64Letter ((x ++ y ++ z).extractLsb' 18 6), b64Letter ((x ++ y ++ z).extractLsb' 12 6),
     b64Letter ((x ++ y ++ z).extractLsb' 6 6), b64Letter ((x ++ y ++ z).extractLsb' 0 6)] ++ b64Enc rest) ∧
  (∀ x y : Byte, b64Enc [x, y] =
    [b64Letter ((x ++ y ++ 0#2).extractLsb' 12 6), b64Letter ((x ++ y ++ 0#2).extractLsb' 6 6),
     b64Letter ((x ++ y ++ 0#2).extractLsb' 0 6), 0x3D]) ∧
  (∀ x : Byte, b64Enc [x] =
    [b64Letter ((x ++ 0#4).extractLsb' 6 6), b64Letter ((x ++ 0#4).extractLsb' 0 6), 0x3D, 0x3D]) ∧
  b64Enc [] = [] ∧
  (∀ bytes : List Byte, (b64Enc bytes).length = 4 * ((bytes.length + 2) / 3)) ∧
  (∀ (chars bytes : List Byte), b64Dec chars = some bytes ↔ b64Enc bytes = chars)

/-- 46_bit_packer.md R200: PACK pads with zeros to whole bytes and writes their base64, its length and the padding count. -/
def Obligations.PackWritesThePaddedBase64 : Prop :=
  ∀ s : State, s.cfg.Valid → s.bitLen.toNat ≤ s.cfg.maxBits →
    ∃ t, exec .pack s = .next t ∧ t.EndedOk ∧
      t.pad.toNat = (8 - s.bitLen.toNat % 8) % 8 ∧
      t.payload = b64Enc (bytesOfBits (s.bitSeq ++ List.replicate ((8 - s.bitLen.toNat % 8) % 8) false)) ∧
      t.payLen.toNat = 4 * (((s.bitLen.toNat + 7) / 8 + 2) / 3)

/-- 46_bit_packer.md R202: UNPACK writes the first BIT_LEN bits of the payload's bytes. -/
def Obligations.UnpackWritesTheFirstBits : Prop :=
  ∀ (s : State) (bytes : List Byte), s.cfg.Valid → s.payLen.toNat ≤ s.cfg.maxPay → s.bitLen.toNat ≤ s.cfg.maxBits →
    b64Dec s.payload = some bytes → s.bitLen.toNat ≤ 8 * bytes.length →
    ∃ t, exec .unpack s = .next t ∧ t.EndedOk ∧ t.bitLen = s.bitLen ∧
      ∀ k < s.bitLen.toNat, t.bitAt k = (bytes.getD (k / 8) 0).getLsbD (7 - k % 8)

/-- 60_exceptions.md R252, 46_bit_packer.md R201, R203: the errors of PACK and UNPACK in their order. -/
def Obligations.PackerTrapsInOrder : Prop :=
  (∀ s : State, s.cfg.maxBits < s.bitLen.toNat → ∃ t, exec .pack s = .next t ∧ t.EndedWith .capacityExceeded 0) ∧
  (∀ s : State, s.cfg.maxPay < s.payLen.toNat ∨ s.cfg.maxBits < s.bitLen.toNat →
    ∃ t, exec .unpack s = .next t ∧ t.EndedWith .capacityExceeded 0) ∧
  (∀ s : State, s.payLen.toNat ≤ s.cfg.maxPay → s.bitLen.toNat ≤ s.cfg.maxBits →
    (∀ bytes, b64Enc bytes ≠ s.payload) →
    ∃ t, exec .unpack s = .next t ∧ t.EndedWith .invalidCharacterEncoding 0) ∧
  (∀ (s : State) (bytes : List Byte), s.payLen.toNat ≤ s.cfg.maxPay → s.bitLen.toNat ≤ s.cfg.maxBits →
    b64Enc bytes = s.payload → 8 * bytes.length < s.bitLen.toNat →
    ∃ t, exec .unpack s = .next t ∧ t.EndedWith .bitLengthOutOfRange (BitVec.ofNat 32 (8 * bytes.length)))

/-- 46_bit_packer.md R204: unpack is a left inverse of pack, as functions and as commands. -/
def Obligations.UnpackInvertsPack : Prop :=
  (∀ bits : List Bool, unpackBits (packPayload bits) bits.length = .ok bits) ∧
  (∀ s : State, s.cfg.Valid → s.bitLen.toNat ≤ s.cfg.maxBits →
    ∃ t u, exec .pack s = .next t ∧ t.EndedOk ∧ exec .unpack t = .next u ∧ u.EndedOk ∧
      u.bitLen = s.bitLen ∧ u.bitSeq = s.bitSeq)

/-! ## CLEAR -/

/-- 47_facade.md R225: CLEAR gives CSR 4 to 17 their reset values and ends with STATUS = 2; no buffer changes. -/
def Obligations.ClearResetsTheRegisters : Prop :=
  ∀ s : State, ∃ t, exec .clear s = .next t ∧ t.EndedOk ∧
    (∀ x, 4 ≤ x → t.csrRead x = State.reset.csrRead x) ∧
    (∀ sp x, sp ≠ .csr → t.spaceRead sp x = s.spaceRead sp x)

/-! ## COMPRESS -/

/-- 47_facade.md R221: the empty text gives the empty result, SAVINGS 0 included, and runs no stage that would clear or
write the other buffers. -/
def Obligations.CompressOfTheEmptyText : Prop :=
  ∀ s : State, s.txtLen = 0 →
    ∃ t, exec .compress s = .next t ∧ t.EndedOk ∧ t.ftCnt = 0 ∧ t.nodeCnt = 0 ∧ t.root = noneHandle ∧ t.ctCnt = 0 ∧
      t.bitLen = 0 ∧ t.pad = 0 ∧ t.payLen = 0 ∧ t.origBits = 0 ∧ t.compBits = 0 ∧ t.ratio = 0 ∧ t.savings = 0 ∧
      ∀ sp x, sp ≠ .csr → sp ≠ .ft → t.spaceRead sp x = s.spaceRead sp x

/-- 47_facade.md R228: a text of one repeated symbol. -/
def Obligations.CompressOfOneRepeatedSymbol : Prop :=
  ∀ (s : State) (x : Symbol) (m : Nat), s.cfg.Valid → 1 ≤ m → m ≤ s.cfg.maxTxt → m ≤ s.cfg.maxBits →
    s.text = List.replicate m x →
    ∃ t, exec .compress s = .next t ∧ t.EndedOk ∧ t.freqTable = [⟨x, BitVec.ofNat 32 m⟩] ∧ t.nodeCnt = 2 ∧ t.root = 1 ∧
      t.codeTable = [⟨x, [false]⟩] ∧ t.bitSeq = List.replicate m false ∧ t.bitLen.toNat = m ∧ t.compBits.toNat = m ∧
      t.origBits.toNat = 8 * m ∧ t.ratio = 0x3FC0000000000000#64 ∧ t.savings = 0x4055E00000000000#64

/-- 47_facade.md R220: COMPRESS is FREQ, BUILD, GEN, ENCODE, PACK one after another and then the statistics; when FREQ or
ENCODE raises, it ends in the state that stage command leaves. That the two executions also agree on the UNSPEC cells and
registers and on the counter `draws` is the model's choice, not the spec's (log 3, log 20; 40_command_dispatch.md R127
excepts UNSPEC elements): COMPRESS draws its free values in the order of its stages. -/
def Obligations.CompressIsItsStagesInOrder : Prop :=
  (∀ s a b c d e : State, exec .freq s = .next a → a.EndedOk → a.ftCnt ≠ 0 → exec .build a = .next b → b.EndedOk →
    exec .gen b = .next c → c.EndedOk → exec .encode c = .next d → d.EndedOk → exec .pack d = .next e → e.EndedOk →
    exec .compress s = .next e.writeStats) ∧
  (∀ s a : State, exec .freq s = .next a → ¬ a.EndedOk → exec .compress s = .next a) ∧
  (∀ s a b c d : State, exec .freq s = .next a → a.EndedOk → a.ftCnt ≠ 0 → exec .build a = .next b → b.EndedOk →
    exec .gen b = .next c → c.EndedOk → exec .encode c = .next d → ¬ d.EndedOk → exec .compress s = .next d)

/-- 47_facade.md R220, 60_exceptions.md R240: COMPRESS ends without error or with CapacityExceeded(0); EmptyTable, BadTree and
MissingCode cannot occur in it. -/
def Obligations.CompressRaisesOnlyCapacityExceeded : Prop :=
  ∀ s : State, s.cfg.Valid →
    ∃ t, exec .compress s = .next t ∧ (t.EndedOk ∨ t.EndedWith .capacityExceeded 0)

/-- 47_facade.md R220: COMPRESS of a text within the capacities succeeds; no code is longer than the number of distinct
symbols (43_code_table_generator.md R173 (e)), so the bits fit when that many per symbol would. -/
def Obligations.CompressSucceedsWithinTheCapacities : Prop :=
  ∀ s : State, s.cfg.Valid → s.txtLen ≠ 0 → s.txtLen.toNat ≤ s.cfg.maxTxt →
    s.text.eraseDups.length ≤ s.cfg.maxSyms → s.txtLen.toNat * s.text.eraseDups.length ≤ s.cfg.maxBits →
    ∃ t, exec .compress s = .next t ∧ t.EndedOk

/-- 47_facade.md R222: the statistics of a successful COMPRESS of a non-empty text. -/
def Obligations.CompressWritesTheStatistics : Prop :=
  ∀ s t : State, s.cfg.Valid → s.txtLen ≠ 0 → exec .compress s = .next t → t.EndedOk →
    t.origBits.toNat = 8 * s.txtLen.toNat ∧ t.compBits = t.bitLen ∧
    t.ratio = fdiv (toF t.compBits) (toF t.origBits) ∧
    t.savings = fmul (fsub 0x3FF0000000000000#64 t.ratio) 0x4059000000000000#64

/-- 47_facade.md R222, 30_encoding.md R100: toF is exact, and fdiv, fsub, fmul round the exact result of finite operands
once, to nearest, ties to even (within the range of finite numbers). -/
def Obligations.BinaryOperationsRoundOnceToNearest : Prop :=
  (∀ w : Word, F64Finite (toF w) ∧ f64Value (toF w) = w.toNat) ∧
  (∀ a b : BitVec 64, F64Finite a → F64Finite b →
    (f64Value b ≠ 0 → |f64Value a / f64Value b| < 2 ^ 1023 → F64Nearest (fdiv a b) (f64Value a / f64Value b)) ∧
    (|f64Value a - f64Value b| < 2 ^ 1023 → F64Nearest (fsub a b) (f64Value a - f64Value b)) ∧
    (|f64Value a * f64Value b| < 2 ^ 1023 → F64Nearest (fmul a b) (f64Value a * f64Value b)))

/-- 47_facade.md R227, 43_code_table_generator.md R173: after a successful COMPRESS of a non-empty text the code table has
exactly one entry per symbol of the text and is a prefix code. -/
def Obligations.CompressTableIsAPrefixCodeOfTheText : Prop :=
  ∀ s t : State, s.cfg.Valid → s.txtLen ≠ 0 → exec .compress s = .next t → t.EndedOk →
    (t.codeTable.map CodeRow.sym).Nodup ∧ (∀ x, x ∈ t.codeTable.map CodeRow.sym ↔ x ∈ s.text) ∧
    t.codeTable.Pairwise fun a b => ¬ a.code <+: b.code ∧ ¬ b.code <+: a.code

/-- 47_facade.md R229: a symbol with strictly higher frequency gets a code no longer. -/
def Obligations.HeavierSymbolsGetNoLongerCodes : Prop :=
  ∀ s t : State, s.cfg.Valid → exec .compress s = .next t → t.EndedOk →
    ∀ a ∈ t.codeTable, ∀ b ∈ t.codeTable, s.text.count b.sym < s.text.count a.sym → a.code.length ≤ b.code.length

/-- 40_command_dispatch.md R127, 10_state.md R20, 47_facade.md R230: what a successful COMPRESS computes depends on the text
and the parameters alone. -/
def Obligations.CompressDependsOnTheTextAlone : Prop :=
  ∀ s₁ s₂ t₁ : State, s₁.cfg.Valid → s₂.cfg = s₁.cfg → s₂.txtLen = s₁.txtLen → s₂.text = s₁.text →
    exec .compress s₁ = .next t₁ → t₁.EndedOk →
    ∃ t₂, exec .compress s₂ = .next t₂ ∧ t₂.EndedOk ∧ t₂.freqTable = t₁.freqTable ∧
      t₂.nodeCnt = t₁.nodeCnt ∧ t₂.root = t₁.root ∧ (∀ k < t₁.nodeCnt.toNat, t₂.nodeAt k = t₁.nodeAt k) ∧
      t₂.codeTable = t₁.codeTable ∧ t₂.bitSeq = t₁.bitSeq ∧ t₂.payload = t₁.payload ∧ t₂.pad = t₁.pad ∧
      t₂.origBits = t₁.origBits ∧ t₂.compBits = t₁.compBits ∧ t₂.ratio = t₁.ratio ∧ t₂.savings = t₁.savings

/-! ## DECOMPRESS -/

/-- 47_facade.md R223: DECOMPRESS is UNPACK, then DECODE on the state UNPACK leaves; when UNPACK raises it ends in the state
UNPACK leaves. That the two executions also agree on the UNSPEC cells, on a spoiled TXT_LEN and on the counter `draws` is the
model's choice, not the spec's (log 3, log 20; 40_command_dispatch.md R127 excepts UNSPEC elements). -/
def Obligations.DecompressIsUnpackThenDecode : Prop :=
  ∀ s u : State, exec .unpack s = .next u →
    (u.EndedOk → exec .decompress s = exec .decode u) ∧ (¬ u.EndedOk → exec .decompress s = .next u)

/-- 47_facade.md R224: DECOMPRESS of the empty payload. 47_facade.md R223 with 46_bit_packer.md R202 and 45_decoder.md R190: a
payload that is the base64 of bytes whose first BIT_LEN bits are codewords of the tree decompresses to their symbols. -/
def Obligations.DecompressOfTheEmptyPayload : Prop :=
  (∀ s : State, s.payLen = 0 →
    (s.bitLen = 0 → ∃ t, exec .decompress s = .next t ∧ t.EndedOk ∧ t.txtLen = 0) ∧
    (s.bitLen ≠ 0 → s.bitLen.toNat ≤ s.cfg.maxBits →
      ∃ t, exec .decompress s = .next t ∧ t.EndedWith .bitLengthOutOfRange 0)) ∧
  (∀ (s : State) (bytes : List Byte) (rows : List CodeRow), s.cfg.Valid → s.payLen.toNat ≤ s.cfg.maxPay →
    s.bitLen.toNat ≤ s.cfg.maxBits → b64Enc bytes = s.payload → s.bitLen.toNat ≤ 8 * bytes.length →
    rootValid s.cfg s.nodeCnt s.root = true → (∀ e ∈ rows, IsCodeword s.nodeAt s.root.toNat e) →
    (bitsOfBytes bytes).take s.bitLen.toNat = codewordBits rows → rows.length ≤ s.cfg.maxTxt →
    ∃ t, exec .decompress s = .next t ∧ t.EndedOk ∧ t.txtLen.toNat = rows.length ∧ t.text = rows.map CodeRow.sym)

/-- 47_facade.md R226: a DECOMPRESS after a successful COMPRESS restores the text, from any state with the payload, the bit
length and the tree as COMPRESS left them. -/
def Obligations.DecompressRestoresTheCompressedText : Prop :=
  ∀ s t v : State, s.cfg.Valid → exec .compress s = .next t → t.EndedOk →
    v.cfg = t.cfg → v.payLen = t.payLen → v.payload = t.payload → v.bitLen = t.bitLen → v.nodeCnt = t.nodeCnt →
    v.root = t.root → (∀ k < t.nodeCnt.toNat, v.nodeAt k = t.nodeAt k) →
    ∃ u, exec .decompress v = .next u ∧ u.EndedOk ∧ u.txtLen = s.txtLen ∧ u.text = s.text
end

