-- ==== Sys2Proof/Laws/Buf.lean ====
section
/-! SUPPORT. The laws of a buffer's cells: what a read gives after each write, and that every write keeps the canonical
form (strictly rising indices). -/

namespace Sys2Proof.Machine

variable {α : Type}

/-! ## Reading a cell back -/

@[simp] theorem lookupCell_nil (i : Nat) : lookupCell ([] : List (Nat × α)) i = none := rfl

theorem lookupCell_cons (j : Nat) (v : α) (l : List (Nat × α)) (i : Nat) :
    lookupCell ((j, v) :: l) i = if j = i then some v else lookupCell l i := rfl

/-- Read after write: the written cell has the written value, every other cell is as before. -/
theorem lookupCell_insertCell (i : Nat) (v : α) (l : List (Nat × α)) (x : Nat) :
    lookupCell (insertCell i v l) x = if i = x then some v else lookupCell l x := by
  induction l with
  | nil => rfl
  | cons p l ih =>
    obtain ⟨j, u⟩ := p
    simp only [insertCell]
    split
    · rfl
    · split
      · subst_vars; simp only [lookupCell_cons]; split <;> rfl
      · simp only [lookupCell_cons, ih]
        split <;> split <;> first | rfl | omega

theorem lookupCell_numberFrom (l : List α) (k x : Nat) :
    lookupCell (numberFrom k l) x = if k ≤ x then l[x - k]? else none := by
  induction l generalizing k with
  | nil => simp [numberFrom]
  | cons v l ih =>
    simp only [numberFrom, lookupCell_cons, ih]
    by_cases h : k = x
    · subst h; simp
    · by_cases h' : k ≤ x
      · obtain ⟨d, rfl⟩ : ∃ d, x = k + 1 + d := ⟨x - k - 1, by omega⟩
        have : k + 1 + d - k = d + 1 := by omega
        simp [h, this, show k ≤ k + 1 + d by omega]
      · simp [h, h', show ¬ k + 1 ≤ x by omega]

theorem lookupCell_none_of_lt {l : List (Nat × α)} {x : Nat} (h : ∀ p ∈ l, x < p.1) : lookupCell l x = none := by
  induction l with
  | nil => rfl
  | cons p l ih =>
    obtain ⟨j, u⟩ := p
    have hj : x < j := h (j, u) (by simp)
    rw [lookupCell_cons, if_neg (by omega)]
    exact ih fun p hp => h p (by simp [hp])

/-- A listed value comes from a listed cell. -/
theorem mem_of_lookupCell {l : List (Nat × α)} {x : Nat} {v : α} (h : lookupCell l x = some v) : (x, v) ∈ l := by
  induction l with
  | nil => simp at h
  | cons p l ih =>
    obtain ⟨j, u⟩ := p
    rw [lookupCell_cons] at h
    split at h
    · subst_vars; simp_all
    · exact List.mem_cons_of_mem _ (ih h)

/-! ## Reading a buffer back -/

@[simp] theorem Buf.unspec_cells (e : Nat) : (Buf.unspec e : Buf α).cells = [] := rfl

@[simp] theorem Buf.unspec_epoch (e : Nat) : (Buf.unspec e : Buf α).epoch = e := rfl

@[simp] theorem Buf.full_epoch (l : List α) (e : Nat) : (Buf.full l e).epoch = e := rfl

@[simp] theorem Buf.put_epoch (b : Buf α) (i : Nat) (v : α) : (b.put i v).epoch = b.epoch := rfl

@[simp] theorem Buf.putAll_epoch (b : Buf α) (l : List (Nat × α)) : (b.putAll l).epoch = b.epoch := by
  induction l generalizing b with
  | nil => rfl
  | cons p l ih => exact ih _

@[simp] theorem Buf.get_unspec (e i : Nat) (free : α) : (Buf.unspec e).get i free = free := rfl

theorem Buf.get_put (b : Buf α) (i : Nat) (v : α) (x : Nat) (free : α) :
    (b.put i v).get x free = if i = x then v else b.get x free := by
  simp only [Buf.get, Buf.put, lookupCell_insertCell]
  split <;> rfl

theorem Buf.get_full (l : List α) (e x : Nat) (free : α) : (Buf.full l e).get x free = l.getD x free := by
  simp [Buf.get, Buf.full, lookupCell_numberFrom, List.getD_eq_getElem?_getD]

/-- A cell no element of a list of writes names reads as before. -/
theorem Buf.get_putAll_of_not_mem {b : Buf α} {l : List (Nat × α)} {x : Nat} (h : ∀ p ∈ l, p.1 ≠ x) (free : α) :
    (b.putAll l).get x free = b.get x free := by
  induction l generalizing b with
  | nil => rfl
  | cons p l ih =>
    have : (b.put p.1 p.2).get x free = b.get x free := by rw [Buf.get_put, if_neg (h p (by simp))]
    exact (ih (b := b.put p.1 p.2) fun q hq => h q (by simp [hq])).trans this

/-- A cell that exactly one element of a list of writes names reads as written. -/
theorem Buf.get_putAll_of_mem {b : Buf α} {l : List (Nat × α)} {x : Nat} {v : α} (hm : (x, v) ∈ l)
    (hu : ∀ w, (x, w) ∈ l → w = v) (free : α) : (b.putAll l).get x free = v := by
  induction l generalizing b with
  | nil => simp at hm
  | cons p l ih =>
    obtain ⟨j, u⟩ := p
    change ((b.put j u).putAll l).get x free = v
    by_cases h : ∃ w, (x, w) ∈ l
    · obtain ⟨w, hw⟩ := h
      obtain rfl := hu w (by simp [hw])
      exact ih hw fun w' hw' => hu w' (by simp [hw'])
    · rw [Buf.get_putAll_of_not_mem (fun q hq hx => h ⟨q.2, by rw [← hx]; exact hq⟩), Buf.get_put]
      rcases List.mem_cons.1 hm with heq | hl
      · cases heq; simp
      · exact absurd ⟨v, hl⟩ h

/-! ## The canonical form is kept -/

theorem Buf.sorted_unspec (e : Nat) : (Buf.unspec e : Buf α).Sorted := List.Pairwise.nil

theorem mem_insertCell {i : Nat} {v : α} {l : List (Nat × α)} {p : Nat × α} (h : p ∈ insertCell i v l) :
    p = (i, v) ∨ p ∈ l := by
  induction l with
  | nil => simpa [insertCell] using h
  | cons q l ih =>
    obtain ⟨j, u⟩ := q
    simp only [insertCell] at h
    split at h
    · simpa using h
    · split at h
      · rcases List.mem_cons.1 h with h | h
        · exact .inl h
        · exact .inr (by simp [h])
      · rcases List.mem_cons.1 h with h | h
        · exact .inr (by simp [h])
        · rcases ih h with h | h
          · exact .inl h
          · exact .inr (by simp [h])

theorem insertCell_sorted {i : Nat} {v : α} {l : List (Nat × α)} (h : l.Pairwise (fun p q => p.1 < q.1)) :
    (insertCell i v l).Pairwise (fun p q => p.1 < q.1) := by
  induction l with
  | nil => simp [insertCell]
  | cons q l ih =>
    obtain ⟨j, u⟩ := q
    obtain ⟨hj, hl⟩ := List.pairwise_cons.1 h
    simp only [insertCell]
    split
    · rename_i hij
      refine List.pairwise_cons.2 ⟨fun p hp => ?_, h⟩
      rcases List.mem_cons.1 hp with rfl | hp
      · exact hij
      · exact Nat.lt_trans hij (hj p hp)
    · split
      · subst_vars; exact List.pairwise_cons.2 ⟨hj, hl⟩
      · refine List.pairwise_cons.2 ⟨fun p hp => ?_, ih hl⟩
        rcases mem_insertCell hp with rfl | hp
        · change j < i; omega
        · exact hj p hp

theorem Buf.sorted_put {b : Buf α} (h : b.Sorted) (i : Nat) (v : α) : (b.put i v).Sorted := insertCell_sorted h

theorem Buf.sorted_putAll {b : Buf α} (h : b.Sorted) (l : List (Nat × α)) : (b.putAll l).Sorted := by
  induction l generalizing b with
  | nil => exact h
  | cons p l ih => exact ih (Buf.sorted_put h _ _)

theorem mem_numberFrom {k : Nat} {l : List α} {p : Nat × α} (h : p ∈ numberFrom k l) :
    k ≤ p.1 ∧ p.1 < k + l.length ∧ p.2 ∈ l := by
  induction l generalizing k with
  | nil => simp [numberFrom] at h
  | cons v l ih =>
    rcases List.mem_cons.1 h with rfl | h
    · simp
    · obtain ⟨h₁, h₂, h₃⟩ := ih h
      exact ⟨by omega, by simp only [List.length_cons]; omega, by simp [h₃]⟩

theorem numberFrom_sorted (k : Nat) (l : List α) : (numberFrom k l).Pairwise (fun p q => p.1 < q.1) := by
  induction l generalizing k with
  | nil => exact List.Pairwise.nil
  | cons v l ih =>
    refine List.pairwise_cons.2 ⟨fun p hp => ?_, ih _⟩
    have := (mem_numberFrom hp).1
    change k < p.1; omega

theorem Buf.sorted_full (l : List α) (e : Nat) : (Buf.full l e).Sorted := numberFrom_sorted 0 l

/-- A property of every cell is kept by a write of a cell that has it. -/
theorem Buf.forall_put {P : Nat × α → Prop} {b : Buf α} (h : ∀ p ∈ b.cells, P p) {i : Nat} {v : α} (hv : P (i, v)) :
    ∀ p ∈ (b.put i v).cells, P p := fun p hp => by
  rcases mem_insertCell hp with rfl | hp
  · exact hv
  · exact h p hp

/-- A property of every cell is kept by writes of cells that have it. -/
theorem Buf.forall_putAll {P : Nat × α → Prop} {b : Buf α} (h : ∀ p ∈ b.cells, P p) {l : List (Nat × α)}
    (hl : ∀ p ∈ l, P p) : ∀ p ∈ (b.putAll l).cells, P p := by
  induction l generalizing b with
  | nil => exact h
  | cons q l ih => exact ih (Buf.forall_put h (hl q (by simp))) fun p hp => hl p (by simp [hp])

/-- A property of every numbered element is a property of every cell of a full buffer. -/
theorem Buf.forall_full {P : Nat × α → Prop} {l : List α} {e : Nat} (h : ∀ i v, i < l.length → v ∈ l → P (i, v)) :
    ∀ p ∈ (Buf.full l e).cells, P p := fun p hp => by
  obtain ⟨_, h₂, h₃⟩ := mem_numberFrom hp
  exact h p.1 p.2 (by omega) h₃

end Sys2Proof.Machine
end

