-- ==== Sys2Proof/Laws/State.lean ====
section
/-! SUPPORT. One lemma per field of State and per named update, true by rfl, so that no later proof unfolds a record
update. -/

namespace Sys2Proof.Machine

variable (s : State)

/-! ## `State.enter` -/

@[simp] theorem State.enter_txt (p : Phase) : (s.enter p).txt = s.txt := rfl
@[simp] theorem State.enter_ft (p : Phase) : (s.enter p).ft = s.ft := rfl
@[simp] theorem State.enter_node (p : Phase) : (s.enter p).node = s.node := rfl
@[simp] theorem State.enter_ct (p : Phase) : (s.enter p).ct = s.ct := rfl
@[simp] theorem State.enter_ctb (p : Phase) : (s.enter p).ctb = s.ctb := rfl
@[simp] theorem State.enter_bits (p : Phase) : (s.enter p).bits = s.bits := rfl
@[simp] theorem State.enter_pay (p : Phase) : (s.enter p).pay = s.pay := rfl
@[simp] theorem State.enter_txtLen (p : Phase) : (s.enter p).txtLen = s.txtLen := rfl
@[simp] theorem State.enter_ftCnt (p : Phase) : (s.enter p).ftCnt = s.ftCnt := rfl
@[simp] theorem State.enter_nodeCnt (p : Phase) : (s.enter p).nodeCnt = s.nodeCnt := rfl
@[simp] theorem State.enter_root (p : Phase) : (s.enter p).root = s.root := rfl
@[simp] theorem State.enter_ctCnt (p : Phase) : (s.enter p).ctCnt = s.ctCnt := rfl
@[simp] theorem State.enter_bitLen (p : Phase) : (s.enter p).bitLen = s.bitLen := rfl
@[simp] theorem State.enter_pad (p : Phase) : (s.enter p).pad = s.pad := rfl
@[simp] theorem State.enter_payLen (p : Phase) : (s.enter p).payLen = s.payLen := rfl
@[simp] theorem State.enter_status (p : Phase) : (s.enter p).status = s.status := rfl
@[simp] theorem State.enter_err (p : Phase) : (s.enter p).err = s.err := rfl
@[simp] theorem State.enter_errInfo (p : Phase) : (s.enter p).errInfo = s.errInfo := rfl
@[simp] theorem State.enter_origBits (p : Phase) : (s.enter p).origBits = s.origBits := rfl
@[simp] theorem State.enter_compBits (p : Phase) : (s.enter p).compBits = s.compBits := rfl
@[simp] theorem State.enter_ratio (p : Phase) : (s.enter p).ratio = s.ratio := rfl
@[simp] theorem State.enter_savings (p : Phase) : (s.enter p).savings = s.savings := rfl
@[simp] theorem State.enter_phase (p : Phase) : (s.enter p).phase = p := rfl
@[simp] theorem State.enter_work (p : Phase) : (s.enter p).work = startWork p s := rfl
@[simp] theorem State.enter_cfg (p : Phase) : (s.enter p).cfg = s.cfg := rfl
@[simp] theorem State.enter_running (p : Phase) : (s.enter p).running = s.running := rfl
@[simp] theorem State.enter_busyLeft (p : Phase) : (s.enter p).busyLeft = s.busyLeft := rfl
@[simp] theorem State.enter_draws (p : Phase) : (s.enter p).draws = s.draws := rfl
@[simp] theorem State.enter_port (p : Phase) : (s.enter p).port = s.port := rfl
@[simp] theorem State.enter_replies (p : Phase) : (s.enter p).replies = s.replies := rfl

/-! ## `State.drawn` -/

@[simp] theorem State.drawn_txt : (s.drawn).txt = s.txt := rfl
@[simp] theorem State.drawn_ft : (s.drawn).ft = s.ft := rfl
@[simp] theorem State.drawn_node : (s.drawn).node = s.node := rfl
@[simp] theorem State.drawn_ct : (s.drawn).ct = s.ct := rfl
@[simp] theorem State.drawn_ctb : (s.drawn).ctb = s.ctb := rfl
@[simp] theorem State.drawn_bits : (s.drawn).bits = s.bits := rfl
@[simp] theorem State.drawn_pay : (s.drawn).pay = s.pay := rfl
@[simp] theorem State.drawn_txtLen : (s.drawn).txtLen = s.txtLen := rfl
@[simp] theorem State.drawn_ftCnt : (s.drawn).ftCnt = s.ftCnt := rfl
@[simp] theorem State.drawn_nodeCnt : (s.drawn).nodeCnt = s.nodeCnt := rfl
@[simp] theorem State.drawn_root : (s.drawn).root = s.root := rfl
@[simp] theorem State.drawn_ctCnt : (s.drawn).ctCnt = s.ctCnt := rfl
@[simp] theorem State.drawn_bitLen : (s.drawn).bitLen = s.bitLen := rfl
@[simp] theorem State.drawn_pad : (s.drawn).pad = s.pad := rfl
@[simp] theorem State.drawn_payLen : (s.drawn).payLen = s.payLen := rfl
@[simp] theorem State.drawn_status : (s.drawn).status = s.status := rfl
@[simp] theorem State.drawn_err : (s.drawn).err = s.err := rfl
@[simp] theorem State.drawn_errInfo : (s.drawn).errInfo = s.errInfo := rfl
@[simp] theorem State.drawn_origBits : (s.drawn).origBits = s.origBits := rfl
@[simp] theorem State.drawn_compBits : (s.drawn).compBits = s.compBits := rfl
@[simp] theorem State.drawn_ratio : (s.drawn).ratio = s.ratio := rfl
@[simp] theorem State.drawn_savings : (s.drawn).savings = s.savings := rfl
@[simp] theorem State.drawn_phase : (s.drawn).phase = s.phase := rfl
@[simp] theorem State.drawn_work : (s.drawn).work = s.work := rfl
@[simp] theorem State.drawn_cfg : (s.drawn).cfg = s.cfg := rfl
@[simp] theorem State.drawn_running : (s.drawn).running = s.running := rfl
@[simp] theorem State.drawn_busyLeft : (s.drawn).busyLeft = s.busyLeft := rfl
@[simp] theorem State.drawn_draws : (s.drawn).draws = s.draws + 1 := rfl
@[simp] theorem State.drawn_port : (s.drawn).port = s.port := rfl
@[simp] theorem State.drawn_replies : (s.drawn).replies = s.replies := rfl

/-! ## `State.accept` -/

@[simp] theorem State.accept_txt (w : Word) (i : Instr) : (s.accept w i).txt = s.txt := rfl
@[simp] theorem State.accept_ft (w : Word) (i : Instr) : (s.accept w i).ft = s.ft := rfl
@[simp] theorem State.accept_node (w : Word) (i : Instr) : (s.accept w i).node = s.node := rfl
@[simp] theorem State.accept_ct (w : Word) (i : Instr) : (s.accept w i).ct = s.ct := rfl
@[simp] theorem State.accept_ctb (w : Word) (i : Instr) : (s.accept w i).ctb = s.ctb := rfl
@[simp] theorem State.accept_bits (w : Word) (i : Instr) : (s.accept w i).bits = s.bits := rfl
@[simp] theorem State.accept_pay (w : Word) (i : Instr) : (s.accept w i).pay = s.pay := rfl
@[simp] theorem State.accept_txtLen (w : Word) (i : Instr) : (s.accept w i).txtLen = s.txtLen := rfl
@[simp] theorem State.accept_ftCnt (w : Word) (i : Instr) : (s.accept w i).ftCnt = s.ftCnt := rfl
@[simp] theorem State.accept_nodeCnt (w : Word) (i : Instr) : (s.accept w i).nodeCnt = s.nodeCnt := rfl
@[simp] theorem State.accept_root (w : Word) (i : Instr) : (s.accept w i).root = s.root := rfl
@[simp] theorem State.accept_ctCnt (w : Word) (i : Instr) : (s.accept w i).ctCnt = s.ctCnt := rfl
@[simp] theorem State.accept_bitLen (w : Word) (i : Instr) : (s.accept w i).bitLen = s.bitLen := rfl
@[simp] theorem State.accept_pad (w : Word) (i : Instr) : (s.accept w i).pad = s.pad := rfl
@[simp] theorem State.accept_payLen (w : Word) (i : Instr) : (s.accept w i).payLen = s.payLen := rfl
@[simp] theorem State.accept_status (w : Word) (i : Instr) : (s.accept w i).status = statusBusy := rfl
@[simp] theorem State.accept_err (w : Word) (i : Instr) : (s.accept w i).err = 0 := rfl
@[simp] theorem State.accept_errInfo (w : Word) (i : Instr) : (s.accept w i).errInfo = 0 := rfl
@[simp] theorem State.accept_origBits (w : Word) (i : Instr) : (s.accept w i).origBits = s.origBits := rfl
@[simp] theorem State.accept_compBits (w : Word) (i : Instr) : (s.accept w i).compBits = s.compBits := rfl
@[simp] theorem State.accept_ratio (w : Word) (i : Instr) : (s.accept w i).ratio = s.ratio := rfl
@[simp] theorem State.accept_savings (w : Word) (i : Instr) : (s.accept w i).savings = s.savings := rfl
@[simp] theorem State.accept_phase (w : Word) (i : Instr) : (s.accept w i).phase = firstStage i := rfl
@[simp] theorem State.accept_work (w : Word) (i : Instr) : (s.accept w i).work = startWork (firstStage i) s := rfl
@[simp] theorem State.accept_cfg (w : Word) (i : Instr) : (s.accept w i).cfg = s.cfg := rfl
@[simp] theorem State.accept_running (w : Word) (i : Instr) : (s.accept w i).running = some w := rfl
@[simp] theorem State.accept_busyLeft (w : Word) (i : Instr) : (s.accept w i).busyLeft = Config.busyPolls s.draws := rfl
@[simp] theorem State.accept_draws (w : Word) (i : Instr) : (s.accept w i).draws = s.draws + 1 := rfl
@[simp] theorem State.accept_port (w : Word) (i : Instr) : (s.accept w i).port = s.port := rfl
@[simp] theorem State.accept_replies (w : Word) (i : Instr) : (s.accept w i).replies = s.replies := rfl

/-! ## `State.commandEnd` -/

@[simp] theorem State.commandEnd_txt : (s.commandEnd).txt = s.txt := rfl
@[simp] theorem State.commandEnd_ft : (s.commandEnd).ft = s.ft := rfl
@[simp] theorem State.commandEnd_node : (s.commandEnd).node = s.node := rfl
@[simp] theorem State.commandEnd_ct : (s.commandEnd).ct = s.ct := rfl
@[simp] theorem State.commandEnd_ctb : (s.commandEnd).ctb = s.ctb := rfl
@[simp] theorem State.commandEnd_bits : (s.commandEnd).bits = s.bits := rfl
@[simp] theorem State.commandEnd_pay : (s.commandEnd).pay = s.pay := rfl
@[simp] theorem State.commandEnd_txtLen : (s.commandEnd).txtLen = s.txtLen := rfl
@[simp] theorem State.commandEnd_ftCnt : (s.commandEnd).ftCnt = s.ftCnt := rfl
@[simp] theorem State.commandEnd_nodeCnt : (s.commandEnd).nodeCnt = s.nodeCnt := rfl
@[simp] theorem State.commandEnd_root : (s.commandEnd).root = s.root := rfl
@[simp] theorem State.commandEnd_ctCnt : (s.commandEnd).ctCnt = s.ctCnt := rfl
@[simp] theorem State.commandEnd_bitLen : (s.commandEnd).bitLen = s.bitLen := rfl
@[simp] theorem State.commandEnd_pad : (s.commandEnd).pad = s.pad := rfl
@[simp] theorem State.commandEnd_payLen : (s.commandEnd).payLen = s.payLen := rfl
@[simp] theorem State.commandEnd_status : (s.commandEnd).status = statusDone := rfl
@[simp] theorem State.commandEnd_err : (s.commandEnd).err = 0 := rfl
@[simp] theorem State.commandEnd_errInfo : (s.commandEnd).errInfo = 0 := rfl
@[simp] theorem State.commandEnd_origBits : (s.commandEnd).origBits = s.origBits := rfl
@[simp] theorem State.commandEnd_compBits : (s.commandEnd).compBits = s.compBits := rfl
@[simp] theorem State.commandEnd_ratio : (s.commandEnd).ratio = s.ratio := rfl
@[simp] theorem State.commandEnd_savings : (s.commandEnd).savings = s.savings := rfl
@[simp] theorem State.commandEnd_phase : (s.commandEnd).phase = .idle := rfl
@[simp] theorem State.commandEnd_work : (s.commandEnd).work = .dead := rfl
@[simp] theorem State.commandEnd_cfg : (s.commandEnd).cfg = s.cfg := rfl
@[simp] theorem State.commandEnd_running : (s.commandEnd).running = none := rfl
@[simp] theorem State.commandEnd_busyLeft : (s.commandEnd).busyLeft = 0 := rfl
@[simp] theorem State.commandEnd_draws : (s.commandEnd).draws = s.draws := rfl
@[simp] theorem State.commandEnd_port : (s.commandEnd).port = s.port := rfl
@[simp] theorem State.commandEnd_replies : (s.commandEnd).replies = s.replies := rfl

/-! ## `State.errorEntry` -/

@[simp] theorem State.errorEntry_txt (r : Raise) : (s.errorEntry r).txt = s.txt := rfl
@[simp] theorem State.errorEntry_ft (r : Raise) : (s.errorEntry r).ft = s.ft := rfl
@[simp] theorem State.errorEntry_node (r : Raise) : (s.errorEntry r).node = s.node := rfl
@[simp] theorem State.errorEntry_ct (r : Raise) : (s.errorEntry r).ct = s.ct := rfl
@[simp] theorem State.errorEntry_ctb (r : Raise) : (s.errorEntry r).ctb = s.ctb := rfl
@[simp] theorem State.errorEntry_bits (r : Raise) : (s.errorEntry r).bits = s.bits := rfl
@[simp] theorem State.errorEntry_pay (r : Raise) : (s.errorEntry r).pay = s.pay := rfl
@[simp] theorem State.errorEntry_txtLen (r : Raise) : (s.errorEntry r).txtLen = s.txtLen := rfl
@[simp] theorem State.errorEntry_ftCnt (r : Raise) : (s.errorEntry r).ftCnt = s.ftCnt := rfl
@[simp] theorem State.errorEntry_nodeCnt (r : Raise) : (s.errorEntry r).nodeCnt = s.nodeCnt := rfl
@[simp] theorem State.errorEntry_root (r : Raise) : (s.errorEntry r).root = s.root := rfl
@[simp] theorem State.errorEntry_ctCnt (r : Raise) : (s.errorEntry r).ctCnt = s.ctCnt := rfl
@[simp] theorem State.errorEntry_bitLen (r : Raise) : (s.errorEntry r).bitLen = s.bitLen := rfl
@[simp] theorem State.errorEntry_pad (r : Raise) : (s.errorEntry r).pad = s.pad := rfl
@[simp] theorem State.errorEntry_payLen (r : Raise) : (s.errorEntry r).payLen = s.payLen := rfl
@[simp] theorem State.errorEntry_status (r : Raise) : (s.errorEntry r).status = statusError := rfl
@[simp] theorem State.errorEntry_err (r : Raise) : (s.errorEntry r).err = r.kind.code := rfl
@[simp] theorem State.errorEntry_errInfo (r : Raise) : (s.errorEntry r).errInfo = r.info := rfl
@[simp] theorem State.errorEntry_origBits (r : Raise) : (s.errorEntry r).origBits = s.origBits := rfl
@[simp] theorem State.errorEntry_compBits (r : Raise) : (s.errorEntry r).compBits = s.compBits := rfl
@[simp] theorem State.errorEntry_ratio (r : Raise) : (s.errorEntry r).ratio = s.ratio := rfl
@[simp] theorem State.errorEntry_savings (r : Raise) : (s.errorEntry r).savings = s.savings := rfl
@[simp] theorem State.errorEntry_phase (r : Raise) : (s.errorEntry r).phase = .idle := rfl
@[simp] theorem State.errorEntry_work (r : Raise) : (s.errorEntry r).work = .dead := rfl
@[simp] theorem State.errorEntry_cfg (r : Raise) : (s.errorEntry r).cfg = s.cfg := rfl
@[simp] theorem State.errorEntry_running (r : Raise) : (s.errorEntry r).running = none := rfl
@[simp] theorem State.errorEntry_busyLeft (r : Raise) : (s.errorEntry r).busyLeft = 0 := rfl
@[simp] theorem State.errorEntry_draws (r : Raise) : (s.errorEntry r).draws = s.draws := rfl
@[simp] theorem State.errorEntry_port (r : Raise) : (s.errorEntry r).port = s.port := rfl
@[simp] theorem State.errorEntry_replies (r : Raise) : (s.errorEntry r).replies = s.replies := rfl

/-! ## `State.illegalCommand` -/

@[simp] theorem State.illegalCommand_txt (w : Word) : (s.illegalCommand w).txt = s.txt := rfl
@[simp] theorem State.illegalCommand_ft (w : Word) : (s.illegalCommand w).ft = s.ft := rfl
@[simp] theorem State.illegalCommand_node (w : Word) : (s.illegalCommand w).node = s.node := rfl
@[simp] theorem State.illegalCommand_ct (w : Word) : (s.illegalCommand w).ct = s.ct := rfl
@[simp] theorem State.illegalCommand_ctb (w : Word) : (s.illegalCommand w).ctb = s.ctb := rfl
@[simp] theorem State.illegalCommand_bits (w : Word) : (s.illegalCommand w).bits = s.bits := rfl
@[simp] theorem State.illegalCommand_pay (w : Word) : (s.illegalCommand w).pay = s.pay := rfl
@[simp] theorem State.illegalCommand_txtLen (w : Word) : (s.illegalCommand w).txtLen = s.txtLen := rfl
@[simp] theorem State.illegalCommand_ftCnt (w : Word) : (s.illegalCommand w).ftCnt = s.ftCnt := rfl
@[simp] theorem State.illegalCommand_nodeCnt (w : Word) : (s.illegalCommand w).nodeCnt = s.nodeCnt := rfl
@[simp] theorem State.illegalCommand_root (w : Word) : (s.illegalCommand w).root = s.root := rfl
@[simp] theorem State.illegalCommand_ctCnt (w : Word) : (s.illegalCommand w).ctCnt = s.ctCnt := rfl
@[simp] theorem State.illegalCommand_bitLen (w : Word) : (s.illegalCommand w).bitLen = s.bitLen := rfl
@[simp] theorem State.illegalCommand_pad (w : Word) : (s.illegalCommand w).pad = s.pad := rfl
@[simp] theorem State.illegalCommand_payLen (w : Word) : (s.illegalCommand w).payLen = s.payLen := rfl
@[simp] theorem State.illegalCommand_status (w : Word) : (s.illegalCommand w).status = statusError := rfl
@[simp] theorem State.illegalCommand_err (w : Word) : (s.illegalCommand w).err = 8#8 := rfl
@[simp] theorem State.illegalCommand_errInfo (w : Word) : (s.illegalCommand w).errInfo = w := rfl
@[simp] theorem State.illegalCommand_origBits (w : Word) : (s.illegalCommand w).origBits = s.origBits := rfl
@[simp] theorem State.illegalCommand_compBits (w : Word) : (s.illegalCommand w).compBits = s.compBits := rfl
@[simp] theorem State.illegalCommand_ratio (w : Word) : (s.illegalCommand w).ratio = s.ratio := rfl
@[simp] theorem State.illegalCommand_savings (w : Word) : (s.illegalCommand w).savings = s.savings := rfl
@[simp] theorem State.illegalCommand_phase (w : Word) : (s.illegalCommand w).phase = .idle := rfl
@[simp] theorem State.illegalCommand_work (w : Word) : (s.illegalCommand w).work = .dead := rfl
@[simp] theorem State.illegalCommand_cfg (w : Word) : (s.illegalCommand w).cfg = s.cfg := rfl
@[simp] theorem State.illegalCommand_running (w : Word) : (s.illegalCommand w).running = none := rfl
@[simp] theorem State.illegalCommand_busyLeft (w : Word) : (s.illegalCommand w).busyLeft = 0 := rfl
@[simp] theorem State.illegalCommand_draws (w : Word) : (s.illegalCommand w).draws = s.draws := rfl
@[simp] theorem State.illegalCommand_port (w : Word) : (s.illegalCommand w).port = s.port := rfl
@[simp] theorem State.illegalCommand_replies (w : Word) : (s.illegalCommand w).replies = s.replies := rfl

/-! ## `State.writeFreq` -/

@[simp] theorem State.writeFreq_txt (l : List FtEntry) : (s.writeFreq l).txt = s.txt := rfl
@[simp] theorem State.writeFreq_ft (l : List FtEntry) : (s.writeFreq l).ft = Buf.full l s.draws := rfl
@[simp] theorem State.writeFreq_node (l : List FtEntry) : (s.writeFreq l).node = s.node := rfl
@[simp] theorem State.writeFreq_ct (l : List FtEntry) : (s.writeFreq l).ct = s.ct := rfl
@[simp] theorem State.writeFreq_ctb (l : List FtEntry) : (s.writeFreq l).ctb = s.ctb := rfl
@[simp] theorem State.writeFreq_bits (l : List FtEntry) : (s.writeFreq l).bits = s.bits := rfl
@[simp] theorem State.writeFreq_pay (l : List FtEntry) : (s.writeFreq l).pay = s.pay := rfl
@[simp] theorem State.writeFreq_txtLen (l : List FtEntry) : (s.writeFreq l).txtLen = s.txtLen := rfl
@[simp] theorem State.writeFreq_ftCnt (l : List FtEntry) : (s.writeFreq l).ftCnt = BitVec.ofNat 32 l.length := rfl
@[simp] theorem State.writeFreq_nodeCnt (l : List FtEntry) : (s.writeFreq l).nodeCnt = s.nodeCnt := rfl
@[simp] theorem State.writeFreq_root (l : List FtEntry) : (s.writeFreq l).root = s.root := rfl
@[simp] theorem State.writeFreq_ctCnt (l : List FtEntry) : (s.writeFreq l).ctCnt = s.ctCnt := rfl
@[simp] theorem State.writeFreq_bitLen (l : List FtEntry) : (s.writeFreq l).bitLen = s.bitLen := rfl
@[simp] theorem State.writeFreq_pad (l : List FtEntry) : (s.writeFreq l).pad = s.pad := rfl
@[simp] theorem State.writeFreq_payLen (l : List FtEntry) : (s.writeFreq l).payLen = s.payLen := rfl
@[simp] theorem State.writeFreq_status (l : List FtEntry) : (s.writeFreq l).status = s.status := rfl
@[simp] theorem State.writeFreq_err (l : List FtEntry) : (s.writeFreq l).err = s.err := rfl
@[simp] theorem State.writeFreq_errInfo (l : List FtEntry) : (s.writeFreq l).errInfo = s.errInfo := rfl
@[simp] theorem State.writeFreq_origBits (l : List FtEntry) : (s.writeFreq l).origBits = s.origBits := rfl
@[simp] theorem State.writeFreq_compBits (l : List FtEntry) : (s.writeFreq l).compBits = s.compBits := rfl
@[simp] theorem State.writeFreq_ratio (l : List FtEntry) : (s.writeFreq l).ratio = s.ratio := rfl
@[simp] theorem State.writeFreq_savings (l : List FtEntry) : (s.writeFreq l).savings = s.savings := rfl
@[simp] theorem State.writeFreq_phase (l : List FtEntry) : (s.writeFreq l).phase = s.phase := rfl
@[simp] theorem State.writeFreq_work (l : List FtEntry) : (s.writeFreq l).work = s.work := rfl
@[simp] theorem State.writeFreq_cfg (l : List FtEntry) : (s.writeFreq l).cfg = s.cfg := rfl
@[simp] theorem State.writeFreq_running (l : List FtEntry) : (s.writeFreq l).running = s.running := rfl
@[simp] theorem State.writeFreq_busyLeft (l : List FtEntry) : (s.writeFreq l).busyLeft = s.busyLeft := rfl
@[simp] theorem State.writeFreq_draws (l : List FtEntry) : (s.writeFreq l).draws = s.draws + 1 := rfl
@[simp] theorem State.writeFreq_port (l : List FtEntry) : (s.writeFreq l).port = s.port := rfl
@[simp] theorem State.writeFreq_replies (l : List FtEntry) : (s.writeFreq l).replies = s.replies := rfl

/-! ## `State.spoilFreq` -/

@[simp] theorem State.spoilFreq_txt : (s.spoilFreq).txt = s.txt := rfl
@[simp] theorem State.spoilFreq_ft : (s.spoilFreq).ft = Buf.unspec s.draws := rfl
@[simp] theorem State.spoilFreq_node : (s.spoilFreq).node = s.node := rfl
@[simp] theorem State.spoilFreq_ct : (s.spoilFreq).ct = s.ct := rfl
@[simp] theorem State.spoilFreq_ctb : (s.spoilFreq).ctb = s.ctb := rfl
@[simp] theorem State.spoilFreq_bits : (s.spoilFreq).bits = s.bits := rfl
@[simp] theorem State.spoilFreq_pay : (s.spoilFreq).pay = s.pay := rfl
@[simp] theorem State.spoilFreq_txtLen : (s.spoilFreq).txtLen = s.txtLen := rfl
@[simp] theorem State.spoilFreq_ftCnt : (s.spoilFreq).ftCnt = Config.freeWord s.draws (.csr 5) := rfl
@[simp] theorem State.spoilFreq_nodeCnt : (s.spoilFreq).nodeCnt = s.nodeCnt := rfl
@[simp] theorem State.spoilFreq_root : (s.spoilFreq).root = s.root := rfl
@[simp] theorem State.spoilFreq_ctCnt : (s.spoilFreq).ctCnt = s.ctCnt := rfl
@[simp] theorem State.spoilFreq_bitLen : (s.spoilFreq).bitLen = s.bitLen := rfl
@[simp] theorem State.spoilFreq_pad : (s.spoilFreq).pad = s.pad := rfl
@[simp] theorem State.spoilFreq_payLen : (s.spoilFreq).payLen = s.payLen := rfl
@[simp] theorem State.spoilFreq_status : (s.spoilFreq).status = s.status := rfl
@[simp] theorem State.spoilFreq_err : (s.spoilFreq).err = s.err := rfl
@[simp] theorem State.spoilFreq_errInfo : (s.spoilFreq).errInfo = s.errInfo := rfl
@[simp] theorem State.spoilFreq_origBits : (s.spoilFreq).origBits = s.origBits := rfl
@[simp] theorem State.spoilFreq_compBits : (s.spoilFreq).compBits = s.compBits := rfl
@[simp] theorem State.spoilFreq_ratio : (s.spoilFreq).ratio = s.ratio := rfl
@[simp] theorem State.spoilFreq_savings : (s.spoilFreq).savings = s.savings := rfl
@[simp] theorem State.spoilFreq_phase : (s.spoilFreq).phase = s.phase := rfl
@[simp] theorem State.spoilFreq_work : (s.spoilFreq).work = s.work := rfl
@[simp] theorem State.spoilFreq_cfg : (s.spoilFreq).cfg = s.cfg := rfl
@[simp] theorem State.spoilFreq_running : (s.spoilFreq).running = s.running := rfl
@[simp] theorem State.spoilFreq_busyLeft : (s.spoilFreq).busyLeft = s.busyLeft := rfl
@[simp] theorem State.spoilFreq_draws : (s.spoilFreq).draws = s.draws + 1 := rfl
@[simp] theorem State.spoilFreq_port : (s.spoilFreq).port = s.port := rfl
@[simp] theorem State.spoilFreq_replies : (s.spoilFreq).replies = s.replies := rfl

/-! ## `State.writeBuild` -/

@[simp] theorem State.writeBuild_txt (l : List Node) : (s.writeBuild l).txt = s.txt := rfl
@[simp] theorem State.writeBuild_ft (l : List Node) : (s.writeBuild l).ft = s.ft := rfl
@[simp] theorem State.writeBuild_node (l : List Node) : (s.writeBuild l).node = s.node.putAll (arenaCells 0 (l.take s.cfg.maxNodes)) := rfl
@[simp] theorem State.writeBuild_ct (l : List Node) : (s.writeBuild l).ct = s.ct := rfl
@[simp] theorem State.writeBuild_ctb (l : List Node) : (s.writeBuild l).ctb = s.ctb := rfl
@[simp] theorem State.writeBuild_bits (l : List Node) : (s.writeBuild l).bits = s.bits := rfl
@[simp] theorem State.writeBuild_pay (l : List Node) : (s.writeBuild l).pay = s.pay := rfl
@[simp] theorem State.writeBuild_txtLen (l : List Node) : (s.writeBuild l).txtLen = s.txtLen := rfl
@[simp] theorem State.writeBuild_ftCnt (l : List Node) : (s.writeBuild l).ftCnt = s.ftCnt := rfl
@[simp] theorem State.writeBuild_nodeCnt (l : List Node) : (s.writeBuild l).nodeCnt = regOr (Config.freeWord s.draws (.csr 6)) l.length := rfl
@[simp] theorem State.writeBuild_root (l : List Node) : (s.writeBuild l).root = regOr (Config.freeWord s.draws (.csr 7)) (l.length - 1) := rfl
@[simp] theorem State.writeBuild_ctCnt (l : List Node) : (s.writeBuild l).ctCnt = s.ctCnt := rfl
@[simp] theorem State.writeBuild_bitLen (l : List Node) : (s.writeBuild l).bitLen = s.bitLen := rfl
@[simp] theorem State.writeBuild_pad (l : List Node) : (s.writeBuild l).pad = s.pad := rfl
@[simp] theorem State.writeBuild_payLen (l : List Node) : (s.writeBuild l).payLen = s.payLen := rfl
@[simp] theorem State.writeBuild_status (l : List Node) : (s.writeBuild l).status = s.status := rfl
@[simp] theorem State.writeBuild_err (l : List Node) : (s.writeBuild l).err = s.err := rfl
@[simp] theorem State.writeBuild_errInfo (l : List Node) : (s.writeBuild l).errInfo = s.errInfo := rfl
@[simp] theorem State.writeBuild_origBits (l : List Node) : (s.writeBuild l).origBits = s.origBits := rfl
@[simp] theorem State.writeBuild_compBits (l : List Node) : (s.writeBuild l).compBits = s.compBits := rfl
@[simp] theorem State.writeBuild_ratio (l : List Node) : (s.writeBuild l).ratio = s.ratio := rfl
@[simp] theorem State.writeBuild_savings (l : List Node) : (s.writeBuild l).savings = s.savings := rfl
@[simp] theorem State.writeBuild_phase (l : List Node) : (s.writeBuild l).phase = s.phase := rfl
@[simp] theorem State.writeBuild_work (l : List Node) : (s.writeBuild l).work = s.work := rfl
@[simp] theorem State.writeBuild_cfg (l : List Node) : (s.writeBuild l).cfg = s.cfg := rfl
@[simp] theorem State.writeBuild_running (l : List Node) : (s.writeBuild l).running = s.running := rfl
@[simp] theorem State.writeBuild_busyLeft (l : List Node) : (s.writeBuild l).busyLeft = s.busyLeft := rfl
@[simp] theorem State.writeBuild_draws (l : List Node) : (s.writeBuild l).draws = s.draws + 1 := rfl
@[simp] theorem State.writeBuild_port (l : List Node) : (s.writeBuild l).port = s.port := rfl
@[simp] theorem State.writeBuild_replies (l : List Node) : (s.writeBuild l).replies = s.replies := rfl

/-! ## `State.spoilBuild` -/

@[simp] theorem State.spoilBuild_txt : (s.spoilBuild).txt = s.txt := rfl
@[simp] theorem State.spoilBuild_ft : (s.spoilBuild).ft = s.ft := rfl
@[simp] theorem State.spoilBuild_node : (s.spoilBuild).node = Buf.unspec s.draws := rfl
@[simp] theorem State.spoilBuild_ct : (s.spoilBuild).ct = s.ct := rfl
@[simp] theorem State.spoilBuild_ctb : (s.spoilBuild).ctb = s.ctb := rfl
@[simp] theorem State.spoilBuild_bits : (s.spoilBuild).bits = s.bits := rfl
@[simp] theorem State.spoilBuild_pay : (s.spoilBuild).pay = s.pay := rfl
@[simp] theorem State.spoilBuild_txtLen : (s.spoilBuild).txtLen = s.txtLen := rfl
@[simp] theorem State.spoilBuild_ftCnt : (s.spoilBuild).ftCnt = s.ftCnt := rfl
@[simp] theorem State.spoilBuild_nodeCnt : (s.spoilBuild).nodeCnt = Config.freeWord s.draws (.csr 6) := rfl
@[simp] theorem State.spoilBuild_root : (s.spoilBuild).root = Config.freeWord s.draws (.csr 7) := rfl
@[simp] theorem State.spoilBuild_ctCnt : (s.spoilBuild).ctCnt = s.ctCnt := rfl
@[simp] theorem State.spoilBuild_bitLen : (s.spoilBuild).bitLen = s.bitLen := rfl
@[simp] theorem State.spoilBuild_pad : (s.spoilBuild).pad = s.pad := rfl
@[simp] theorem State.spoilBuild_payLen : (s.spoilBuild).payLen = s.payLen := rfl
@[simp] theorem State.spoilBuild_status : (s.spoilBuild).status = s.status := rfl
@[simp] theorem State.spoilBuild_err : (s.spoilBuild).err = s.err := rfl
@[simp] theorem State.spoilBuild_errInfo : (s.spoilBuild).errInfo = s.errInfo := rfl
@[simp] theorem State.spoilBuild_origBits : (s.spoilBuild).origBits = s.origBits := rfl
@[simp] theorem State.spoilBuild_compBits : (s.spoilBuild).compBits = s.compBits := rfl
@[simp] theorem State.spoilBuild_ratio : (s.spoilBuild).ratio = s.ratio := rfl
@[simp] theorem State.spoilBuild_savings : (s.spoilBuild).savings = s.savings := rfl
@[simp] theorem State.spoilBuild_phase : (s.spoilBuild).phase = s.phase := rfl
@[simp] theorem State.spoilBuild_work : (s.spoilBuild).work = s.work := rfl
@[simp] theorem State.spoilBuild_cfg : (s.spoilBuild).cfg = s.cfg := rfl
@[simp] theorem State.spoilBuild_running : (s.spoilBuild).running = s.running := rfl
@[simp] theorem State.spoilBuild_busyLeft : (s.spoilBuild).busyLeft = s.busyLeft := rfl
@[simp] theorem State.spoilBuild_draws : (s.spoilBuild).draws = s.draws + 1 := rfl
@[simp] theorem State.spoilBuild_port : (s.spoilBuild).port = s.port := rfl
@[simp] theorem State.spoilBuild_replies : (s.spoilBuild).replies = s.replies := rfl

/-! ## `State.writeGen` -/

@[simp] theorem State.writeGen_txt (l : List CodeRow) : (s.writeGen l).txt = s.txt := rfl
@[simp] theorem State.writeGen_ft (l : List CodeRow) : (s.writeGen l).ft = s.ft := rfl
@[simp] theorem State.writeGen_node (l : List CodeRow) : (s.writeGen l).node = s.node := rfl
@[simp] theorem State.writeGen_ct (l : List CodeRow) : (s.writeGen l).ct = Buf.full (l.map fun e => ⟨e.sym, BitVec.ofNat 32 e.code.length⟩) s.draws := rfl
@[simp] theorem State.writeGen_ctb (l : List CodeRow) : (s.writeGen l).ctb = Buf.full (l.map CodeRow.code) s.draws := rfl
@[simp] theorem State.writeGen_bits (l : List CodeRow) : (s.writeGen l).bits = s.bits := rfl
@[simp] theorem State.writeGen_pay (l : List CodeRow) : (s.writeGen l).pay = s.pay := rfl
@[simp] theorem State.writeGen_txtLen (l : List CodeRow) : (s.writeGen l).txtLen = s.txtLen := rfl
@[simp] theorem State.writeGen_ftCnt (l : List CodeRow) : (s.writeGen l).ftCnt = s.ftCnt := rfl
@[simp] theorem State.writeGen_nodeCnt (l : List CodeRow) : (s.writeGen l).nodeCnt = s.nodeCnt := rfl
@[simp] theorem State.writeGen_root (l : List CodeRow) : (s.writeGen l).root = s.root := rfl
@[simp] theorem State.writeGen_ctCnt (l : List CodeRow) : (s.writeGen l).ctCnt = BitVec.ofNat 32 l.length := rfl
@[simp] theorem State.writeGen_bitLen (l : List CodeRow) : (s.writeGen l).bitLen = s.bitLen := rfl
@[simp] theorem State.writeGen_pad (l : List CodeRow) : (s.writeGen l).pad = s.pad := rfl
@[simp] theorem State.writeGen_payLen (l : List CodeRow) : (s.writeGen l).payLen = s.payLen := rfl
@[simp] theorem State.writeGen_status (l : List CodeRow) : (s.writeGen l).status = s.status := rfl
@[simp] theorem State.writeGen_err (l : List CodeRow) : (s.writeGen l).err = s.err := rfl
@[simp] theorem State.writeGen_errInfo (l : List CodeRow) : (s.writeGen l).errInfo = s.errInfo := rfl
@[simp] theorem State.writeGen_origBits (l : List CodeRow) : (s.writeGen l).origBits = s.origBits := rfl
@[simp] theorem State.writeGen_compBits (l : List CodeRow) : (s.writeGen l).compBits = s.compBits := rfl
@[simp] theorem State.writeGen_ratio (l : List CodeRow) : (s.writeGen l).ratio = s.ratio := rfl
@[simp] theorem State.writeGen_savings (l : List CodeRow) : (s.writeGen l).savings = s.savings := rfl
@[simp] theorem State.writeGen_phase (l : List CodeRow) : (s.writeGen l).phase = s.phase := rfl
@[simp] theorem State.writeGen_work (l : List CodeRow) : (s.writeGen l).work = s.work := rfl
@[simp] theorem State.writeGen_cfg (l : List CodeRow) : (s.writeGen l).cfg = s.cfg := rfl
@[simp] theorem State.writeGen_running (l : List CodeRow) : (s.writeGen l).running = s.running := rfl
@[simp] theorem State.writeGen_busyLeft (l : List CodeRow) : (s.writeGen l).busyLeft = s.busyLeft := rfl
@[simp] theorem State.writeGen_draws (l : List CodeRow) : (s.writeGen l).draws = s.draws + 1 := rfl
@[simp] theorem State.writeGen_port (l : List CodeRow) : (s.writeGen l).port = s.port := rfl
@[simp] theorem State.writeGen_replies (l : List CodeRow) : (s.writeGen l).replies = s.replies := rfl

/-! ## `State.spoilGen` -/

@[simp] theorem State.spoilGen_txt : (s.spoilGen).txt = s.txt := rfl
@[simp] theorem State.spoilGen_ft : (s.spoilGen).ft = s.ft := rfl
@[simp] theorem State.spoilGen_node : (s.spoilGen).node = s.node := rfl
@[simp] theorem State.spoilGen_ct : (s.spoilGen).ct = Buf.unspec s.draws := rfl
@[simp] theorem State.spoilGen_ctb : (s.spoilGen).ctb = Buf.unspec s.draws := rfl
@[simp] theorem State.spoilGen_bits : (s.spoilGen).bits = s.bits := rfl
@[simp] theorem State.spoilGen_pay : (s.spoilGen).pay = s.pay := rfl
@[simp] theorem State.spoilGen_txtLen : (s.spoilGen).txtLen = s.txtLen := rfl
@[simp] theorem State.spoilGen_ftCnt : (s.spoilGen).ftCnt = s.ftCnt := rfl
@[simp] theorem State.spoilGen_nodeCnt : (s.spoilGen).nodeCnt = s.nodeCnt := rfl
@[simp] theorem State.spoilGen_root : (s.spoilGen).root = s.root := rfl
@[simp] theorem State.spoilGen_ctCnt : (s.spoilGen).ctCnt = Config.freeWord s.draws (.csr 8) := rfl
@[simp] theorem State.spoilGen_bitLen : (s.spoilGen).bitLen = s.bitLen := rfl
@[simp] theorem State.spoilGen_pad : (s.spoilGen).pad = s.pad := rfl
@[simp] theorem State.spoilGen_payLen : (s.spoilGen).payLen = s.payLen := rfl
@[simp] theorem State.spoilGen_status : (s.spoilGen).status = s.status := rfl
@[simp] theorem State.spoilGen_err : (s.spoilGen).err = s.err := rfl
@[simp] theorem State.spoilGen_errInfo : (s.spoilGen).errInfo = s.errInfo := rfl
@[simp] theorem State.spoilGen_origBits : (s.spoilGen).origBits = s.origBits := rfl
@[simp] theorem State.spoilGen_compBits : (s.spoilGen).compBits = s.compBits := rfl
@[simp] theorem State.spoilGen_ratio : (s.spoilGen).ratio = s.ratio := rfl
@[simp] theorem State.spoilGen_savings : (s.spoilGen).savings = s.savings := rfl
@[simp] theorem State.spoilGen_phase : (s.spoilGen).phase = s.phase := rfl
@[simp] theorem State.spoilGen_work : (s.spoilGen).work = s.work := rfl
@[simp] theorem State.spoilGen_cfg : (s.spoilGen).cfg = s.cfg := rfl
@[simp] theorem State.spoilGen_running : (s.spoilGen).running = s.running := rfl
@[simp] theorem State.spoilGen_busyLeft : (s.spoilGen).busyLeft = s.busyLeft := rfl
@[simp] theorem State.spoilGen_draws : (s.spoilGen).draws = s.draws + 1 := rfl
@[simp] theorem State.spoilGen_port : (s.spoilGen).port = s.port := rfl
@[simp] theorem State.spoilGen_replies : (s.spoilGen).replies = s.replies := rfl

/-! ## `State.writeEncode` -/

@[simp] theorem State.writeEncode_txt (l : List Bool) : (s.writeEncode l).txt = s.txt := rfl
@[simp] theorem State.writeEncode_ft (l : List Bool) : (s.writeEncode l).ft = s.ft := rfl
@[simp] theorem State.writeEncode_node (l : List Bool) : (s.writeEncode l).node = s.node := rfl
@[simp] theorem State.writeEncode_ct (l : List Bool) : (s.writeEncode l).ct = s.ct := rfl
@[simp] theorem State.writeEncode_ctb (l : List Bool) : (s.writeEncode l).ctb = s.ctb := rfl
@[simp] theorem State.writeEncode_bits (l : List Bool) : (s.writeEncode l).bits = Buf.full l s.draws := rfl
@[simp] theorem State.writeEncode_pay (l : List Bool) : (s.writeEncode l).pay = s.pay := rfl
@[simp] theorem State.writeEncode_txtLen (l : List Bool) : (s.writeEncode l).txtLen = s.txtLen := rfl
@[simp] theorem State.writeEncode_ftCnt (l : List Bool) : (s.writeEncode l).ftCnt = s.ftCnt := rfl
@[simp] theorem State.writeEncode_nodeCnt (l : List Bool) : (s.writeEncode l).nodeCnt = s.nodeCnt := rfl
@[simp] theorem State.writeEncode_root (l : List Bool) : (s.writeEncode l).root = s.root := rfl
@[simp] theorem State.writeEncode_ctCnt (l : List Bool) : (s.writeEncode l).ctCnt = s.ctCnt := rfl
@[simp] theorem State.writeEncode_bitLen (l : List Bool) : (s.writeEncode l).bitLen = BitVec.ofNat 32 l.length := rfl
@[simp] theorem State.writeEncode_pad (l : List Bool) : (s.writeEncode l).pad = s.pad := rfl
@[simp] theorem State.writeEncode_payLen (l : List Bool) : (s.writeEncode l).payLen = s.payLen := rfl
@[simp] theorem State.writeEncode_status (l : List Bool) : (s.writeEncode l).status = s.status := rfl
@[simp] theorem State.writeEncode_err (l : List Bool) : (s.writeEncode l).err = s.err := rfl
@[simp] theorem State.writeEncode_errInfo (l : List Bool) : (s.writeEncode l).errInfo = s.errInfo := rfl
@[simp] theorem State.writeEncode_origBits (l : List Bool) : (s.writeEncode l).origBits = s.origBits := rfl
@[simp] theorem State.writeEncode_compBits (l : List Bool) : (s.writeEncode l).compBits = s.compBits := rfl
@[simp] theorem State.writeEncode_ratio (l : List Bool) : (s.writeEncode l).ratio = s.ratio := rfl
@[simp] theorem State.writeEncode_savings (l : List Bool) : (s.writeEncode l).savings = s.savings := rfl
@[simp] theorem State.writeEncode_phase (l : List Bool) : (s.writeEncode l).phase = s.phase := rfl
@[simp] theorem State.writeEncode_work (l : List Bool) : (s.writeEncode l).work = s.work := rfl
@[simp] theorem State.writeEncode_cfg (l : List Bool) : (s.writeEncode l).cfg = s.cfg := rfl
@[simp] theorem State.writeEncode_running (l : List Bool) : (s.writeEncode l).running = s.running := rfl
@[simp] theorem State.writeEncode_busyLeft (l : List Bool) : (s.writeEncode l).busyLeft = s.busyLeft := rfl
@[simp] theorem State.writeEncode_draws (l : List Bool) : (s.writeEncode l).draws = s.draws + 1 := rfl
@[simp] theorem State.writeEncode_port (l : List Bool) : (s.writeEncode l).port = s.port := rfl
@[simp] theorem State.writeEncode_replies (l : List Bool) : (s.writeEncode l).replies = s.replies := rfl

/-! ## `State.spoilEncode` -/

@[simp] theorem State.spoilEncode_txt : (s.spoilEncode).txt = s.txt := rfl
@[simp] theorem State.spoilEncode_ft : (s.spoilEncode).ft = s.ft := rfl
@[simp] theorem State.spoilEncode_node : (s.spoilEncode).node = s.node := rfl
@[simp] theorem State.spoilEncode_ct : (s.spoilEncode).ct = s.ct := rfl
@[simp] theorem State.spoilEncode_ctb : (s.spoilEncode).ctb = s.ctb := rfl
@[simp] theorem State.spoilEncode_bits : (s.spoilEncode).bits = Buf.unspec s.draws := rfl
@[simp] theorem State.spoilEncode_pay : (s.spoilEncode).pay = s.pay := rfl
@[simp] theorem State.spoilEncode_txtLen : (s.spoilEncode).txtLen = s.txtLen := rfl
@[simp] theorem State.spoilEncode_ftCnt : (s.spoilEncode).ftCnt = s.ftCnt := rfl
@[simp] theorem State.spoilEncode_nodeCnt : (s.spoilEncode).nodeCnt = s.nodeCnt := rfl
@[simp] theorem State.spoilEncode_root : (s.spoilEncode).root = s.root := rfl
@[simp] theorem State.spoilEncode_ctCnt : (s.spoilEncode).ctCnt = s.ctCnt := rfl
@[simp] theorem State.spoilEncode_bitLen : (s.spoilEncode).bitLen = Config.freeWord s.draws (.csr 9) := rfl
@[simp] theorem State.spoilEncode_pad : (s.spoilEncode).pad = s.pad := rfl
@[simp] theorem State.spoilEncode_payLen : (s.spoilEncode).payLen = s.payLen := rfl
@[simp] theorem State.spoilEncode_status : (s.spoilEncode).status = s.status := rfl
@[simp] theorem State.spoilEncode_err : (s.spoilEncode).err = s.err := rfl
@[simp] theorem State.spoilEncode_errInfo : (s.spoilEncode).errInfo = s.errInfo := rfl
@[simp] theorem State.spoilEncode_origBits : (s.spoilEncode).origBits = s.origBits := rfl
@[simp] theorem State.spoilEncode_compBits : (s.spoilEncode).compBits = s.compBits := rfl
@[simp] theorem State.spoilEncode_ratio : (s.spoilEncode).ratio = s.ratio := rfl
@[simp] theorem State.spoilEncode_savings : (s.spoilEncode).savings = s.savings := rfl
@[simp] theorem State.spoilEncode_phase : (s.spoilEncode).phase = s.phase := rfl
@[simp] theorem State.spoilEncode_work : (s.spoilEncode).work = s.work := rfl
@[simp] theorem State.spoilEncode_cfg : (s.spoilEncode).cfg = s.cfg := rfl
@[simp] theorem State.spoilEncode_running : (s.spoilEncode).running = s.running := rfl
@[simp] theorem State.spoilEncode_busyLeft : (s.spoilEncode).busyLeft = s.busyLeft := rfl
@[simp] theorem State.spoilEncode_draws : (s.spoilEncode).draws = s.draws + 1 := rfl
@[simp] theorem State.spoilEncode_port : (s.spoilEncode).port = s.port := rfl
@[simp] theorem State.spoilEncode_replies : (s.spoilEncode).replies = s.replies := rfl

/-! ## `State.writeDecode` -/

@[simp] theorem State.writeDecode_txt (l : List Symbol) : (s.writeDecode l).txt = Buf.full l s.draws := rfl
@[simp] theorem State.writeDecode_ft (l : List Symbol) : (s.writeDecode l).ft = s.ft := rfl
@[simp] theorem State.writeDecode_node (l : List Symbol) : (s.writeDecode l).node = s.node := rfl
@[simp] theorem State.writeDecode_ct (l : List Symbol) : (s.writeDecode l).ct = s.ct := rfl
@[simp] theorem State.writeDecode_ctb (l : List Symbol) : (s.writeDecode l).ctb = s.ctb := rfl
@[simp] theorem State.writeDecode_bits (l : List Symbol) : (s.writeDecode l).bits = s.bits := rfl
@[simp] theorem State.writeDecode_pay (l : List Symbol) : (s.writeDecode l).pay = s.pay := rfl
@[simp] theorem State.writeDecode_txtLen (l : List Symbol) : (s.writeDecode l).txtLen = BitVec.ofNat 32 l.length := rfl
@[simp] theorem State.writeDecode_ftCnt (l : List Symbol) : (s.writeDecode l).ftCnt = s.ftCnt := rfl
@[simp] theorem State.writeDecode_nodeCnt (l : List Symbol) : (s.writeDecode l).nodeCnt = s.nodeCnt := rfl
@[simp] theorem State.writeDecode_root (l : List Symbol) : (s.writeDecode l).root = s.root := rfl
@[simp] theorem State.writeDecode_ctCnt (l : List Symbol) : (s.writeDecode l).ctCnt = s.ctCnt := rfl
@[simp] theorem State.writeDecode_bitLen (l : List Symbol) : (s.writeDecode l).bitLen = s.bitLen := rfl
@[simp] theorem State.writeDecode_pad (l : List Symbol) : (s.writeDecode l).pad = s.pad := rfl
@[simp] theorem State.writeDecode_payLen (l : List Symbol) : (s.writeDecode l).payLen = s.payLen := rfl
@[simp] theorem State.writeDecode_status (l : List Symbol) : (s.writeDecode l).status = s.status := rfl
@[simp] theorem State.writeDecode_err (l : List Symbol) : (s.writeDecode l).err = s.err := rfl
@[simp] theorem State.writeDecode_errInfo (l : List Symbol) : (s.writeDecode l).errInfo = s.errInfo := rfl
@[simp] theorem State.writeDecode_origBits (l : List Symbol) : (s.writeDecode l).origBits = s.origBits := rfl
@[simp] theorem State.writeDecode_compBits (l : List Symbol) : (s.writeDecode l).compBits = s.compBits := rfl
@[simp] theorem State.writeDecode_ratio (l : List Symbol) : (s.writeDecode l).ratio = s.ratio := rfl
@[simp] theorem State.writeDecode_savings (l : List Symbol) : (s.writeDecode l).savings = s.savings := rfl
@[simp] theorem State.writeDecode_phase (l : List Symbol) : (s.writeDecode l).phase = s.phase := rfl
@[simp] theorem State.writeDecode_work (l : List Symbol) : (s.writeDecode l).work = s.work := rfl
@[simp] theorem State.writeDecode_cfg (l : List Symbol) : (s.writeDecode l).cfg = s.cfg := rfl
@[simp] theorem State.writeDecode_running (l : List Symbol) : (s.writeDecode l).running = s.running := rfl
@[simp] theorem State.writeDecode_busyLeft (l : List Symbol) : (s.writeDecode l).busyLeft = s.busyLeft := rfl
@[simp] theorem State.writeDecode_draws (l : List Symbol) : (s.writeDecode l).draws = s.draws + 1 := rfl
@[simp] theorem State.writeDecode_port (l : List Symbol) : (s.writeDecode l).port = s.port := rfl
@[simp] theorem State.writeDecode_replies (l : List Symbol) : (s.writeDecode l).replies = s.replies := rfl

/-! ## `State.spoilDecode` -/

@[simp] theorem State.spoilDecode_txt : (s.spoilDecode).txt = Buf.unspec s.draws := rfl
@[simp] theorem State.spoilDecode_ft : (s.spoilDecode).ft = s.ft := rfl
@[simp] theorem State.spoilDecode_node : (s.spoilDecode).node = s.node := rfl
@[simp] theorem State.spoilDecode_ct : (s.spoilDecode).ct = s.ct := rfl
@[simp] theorem State.spoilDecode_ctb : (s.spoilDecode).ctb = s.ctb := rfl
@[simp] theorem State.spoilDecode_bits : (s.spoilDecode).bits = s.bits := rfl
@[simp] theorem State.spoilDecode_pay : (s.spoilDecode).pay = s.pay := rfl
@[simp] theorem State.spoilDecode_txtLen : (s.spoilDecode).txtLen = Config.freeWord s.draws (.csr 4) := rfl
@[simp] theorem State.spoilDecode_ftCnt : (s.spoilDecode).ftCnt = s.ftCnt := rfl
@[simp] theorem State.spoilDecode_nodeCnt : (s.spoilDecode).nodeCnt = s.nodeCnt := rfl
@[simp] theorem State.spoilDecode_root : (s.spoilDecode).root = s.root := rfl
@[simp] theorem State.spoilDecode_ctCnt : (s.spoilDecode).ctCnt = s.ctCnt := rfl
@[simp] theorem State.spoilDecode_bitLen : (s.spoilDecode).bitLen = s.bitLen := rfl
@[simp] theorem State.spoilDecode_pad : (s.spoilDecode).pad = s.pad := rfl
@[simp] theorem State.spoilDecode_payLen : (s.spoilDecode).payLen = s.payLen := rfl
@[simp] theorem State.spoilDecode_status : (s.spoilDecode).status = s.status := rfl
@[simp] theorem State.spoilDecode_err : (s.spoilDecode).err = s.err := rfl
@[simp] theorem State.spoilDecode_errInfo : (s.spoilDecode).errInfo = s.errInfo := rfl
@[simp] theorem State.spoilDecode_origBits : (s.spoilDecode).origBits = s.origBits := rfl
@[simp] theorem State.spoilDecode_compBits : (s.spoilDecode).compBits = s.compBits := rfl
@[simp] theorem State.spoilDecode_ratio : (s.spoilDecode).ratio = s.ratio := rfl
@[simp] theorem State.spoilDecode_savings : (s.spoilDecode).savings = s.savings := rfl
@[simp] theorem State.spoilDecode_phase : (s.spoilDecode).phase = s.phase := rfl
@[simp] theorem State.spoilDecode_work : (s.spoilDecode).work = s.work := rfl
@[simp] theorem State.spoilDecode_cfg : (s.spoilDecode).cfg = s.cfg := rfl
@[simp] theorem State.spoilDecode_running : (s.spoilDecode).running = s.running := rfl
@[simp] theorem State.spoilDecode_busyLeft : (s.spoilDecode).busyLeft = s.busyLeft := rfl
@[simp] theorem State.spoilDecode_draws : (s.spoilDecode).draws = s.draws + 1 := rfl
@[simp] theorem State.spoilDecode_port : (s.spoilDecode).port = s.port := rfl
@[simp] theorem State.spoilDecode_replies : (s.spoilDecode).replies = s.replies := rfl

/-! ## `State.writePack` -/

@[simp] theorem State.writePack_txt (l : List Byte) (n : Nat) : (s.writePack l n).txt = s.txt := rfl
@[simp] theorem State.writePack_ft (l : List Byte) (n : Nat) : (s.writePack l n).ft = s.ft := rfl
@[simp] theorem State.writePack_node (l : List Byte) (n : Nat) : (s.writePack l n).node = s.node := rfl
@[simp] theorem State.writePack_ct (l : List Byte) (n : Nat) : (s.writePack l n).ct = s.ct := rfl
@[simp] theorem State.writePack_ctb (l : List Byte) (n : Nat) : (s.writePack l n).ctb = s.ctb := rfl
@[simp] theorem State.writePack_bits (l : List Byte) (n : Nat) : (s.writePack l n).bits = s.bits := rfl
@[simp] theorem State.writePack_pay (l : List Byte) (n : Nat) : (s.writePack l n).pay = Buf.full l s.draws := rfl
@[simp] theorem State.writePack_txtLen (l : List Byte) (n : Nat) : (s.writePack l n).txtLen = s.txtLen := rfl
@[simp] theorem State.writePack_ftCnt (l : List Byte) (n : Nat) : (s.writePack l n).ftCnt = s.ftCnt := rfl
@[simp] theorem State.writePack_nodeCnt (l : List Byte) (n : Nat) : (s.writePack l n).nodeCnt = s.nodeCnt := rfl
@[simp] theorem State.writePack_root (l : List Byte) (n : Nat) : (s.writePack l n).root = s.root := rfl
@[simp] theorem State.writePack_ctCnt (l : List Byte) (n : Nat) : (s.writePack l n).ctCnt = s.ctCnt := rfl
@[simp] theorem State.writePack_bitLen (l : List Byte) (n : Nat) : (s.writePack l n).bitLen = s.bitLen := rfl
@[simp] theorem State.writePack_pad (l : List Byte) (n : Nat) : (s.writePack l n).pad = BitVec.ofNat 3 n := rfl
@[simp] theorem State.writePack_payLen (l : List Byte) (n : Nat) : (s.writePack l n).payLen = BitVec.ofNat 32 l.length := rfl
@[simp] theorem State.writePack_status (l : List Byte) (n : Nat) : (s.writePack l n).status = s.status := rfl
@[simp] theorem State.writePack_err (l : List Byte) (n : Nat) : (s.writePack l n).err = s.err := rfl
@[simp] theorem State.writePack_errInfo (l : List Byte) (n : Nat) : (s.writePack l n).errInfo = s.errInfo := rfl
@[simp] theorem State.writePack_origBits (l : List Byte) (n : Nat) : (s.writePack l n).origBits = s.origBits := rfl
@[simp] theorem State.writePack_compBits (l : List Byte) (n : Nat) : (s.writePack l n).compBits = s.compBits := rfl
@[simp] theorem State.writePack_ratio (l : List Byte) (n : Nat) : (s.writePack l n).ratio = s.ratio := rfl
@[simp] theorem State.writePack_savings (l : List Byte) (n : Nat) : (s.writePack l n).savings = s.savings := rfl
@[simp] theorem State.writePack_phase (l : List Byte) (n : Nat) : (s.writePack l n).phase = s.phase := rfl
@[simp] theorem State.writePack_work (l : List Byte) (n : Nat) : (s.writePack l n).work = s.work := rfl
@[simp] theorem State.writePack_cfg (l : List Byte) (n : Nat) : (s.writePack l n).cfg = s.cfg := rfl
@[simp] theorem State.writePack_running (l : List Byte) (n : Nat) : (s.writePack l n).running = s.running := rfl
@[simp] theorem State.writePack_busyLeft (l : List Byte) (n : Nat) : (s.writePack l n).busyLeft = s.busyLeft := rfl
@[simp] theorem State.writePack_draws (l : List Byte) (n : Nat) : (s.writePack l n).draws = s.draws + 1 := rfl
@[simp] theorem State.writePack_port (l : List Byte) (n : Nat) : (s.writePack l n).port = s.port := rfl
@[simp] theorem State.writePack_replies (l : List Byte) (n : Nat) : (s.writePack l n).replies = s.replies := rfl

/-! ## `State.spoilPack` -/

@[simp] theorem State.spoilPack_txt : (s.spoilPack).txt = s.txt := rfl
@[simp] theorem State.spoilPack_ft : (s.spoilPack).ft = s.ft := rfl
@[simp] theorem State.spoilPack_node : (s.spoilPack).node = s.node := rfl
@[simp] theorem State.spoilPack_ct : (s.spoilPack).ct = s.ct := rfl
@[simp] theorem State.spoilPack_ctb : (s.spoilPack).ctb = s.ctb := rfl
@[simp] theorem State.spoilPack_bits : (s.spoilPack).bits = s.bits := rfl
@[simp] theorem State.spoilPack_pay : (s.spoilPack).pay = Buf.unspec s.draws := rfl
@[simp] theorem State.spoilPack_txtLen : (s.spoilPack).txtLen = s.txtLen := rfl
@[simp] theorem State.spoilPack_ftCnt : (s.spoilPack).ftCnt = s.ftCnt := rfl
@[simp] theorem State.spoilPack_nodeCnt : (s.spoilPack).nodeCnt = s.nodeCnt := rfl
@[simp] theorem State.spoilPack_root : (s.spoilPack).root = s.root := rfl
@[simp] theorem State.spoilPack_ctCnt : (s.spoilPack).ctCnt = s.ctCnt := rfl
@[simp] theorem State.spoilPack_bitLen : (s.spoilPack).bitLen = s.bitLen := rfl
@[simp] theorem State.spoilPack_pad : (s.spoilPack).pad = (Config.freeWord s.draws (.csr 10)).setWidth 3 := rfl
@[simp] theorem State.spoilPack_payLen : (s.spoilPack).payLen = Config.freeWord s.draws (.csr 11) := rfl
@[simp] theorem State.spoilPack_status : (s.spoilPack).status = s.status := rfl
@[simp] theorem State.spoilPack_err : (s.spoilPack).err = s.err := rfl
@[simp] theorem State.spoilPack_errInfo : (s.spoilPack).errInfo = s.errInfo := rfl
@[simp] theorem State.spoilPack_origBits : (s.spoilPack).origBits = s.origBits := rfl
@[simp] theorem State.spoilPack_compBits : (s.spoilPack).compBits = s.compBits := rfl
@[simp] theorem State.spoilPack_ratio : (s.spoilPack).ratio = s.ratio := rfl
@[simp] theorem State.spoilPack_savings : (s.spoilPack).savings = s.savings := rfl
@[simp] theorem State.spoilPack_phase : (s.spoilPack).phase = s.phase := rfl
@[simp] theorem State.spoilPack_work : (s.spoilPack).work = s.work := rfl
@[simp] theorem State.spoilPack_cfg : (s.spoilPack).cfg = s.cfg := rfl
@[simp] theorem State.spoilPack_running : (s.spoilPack).running = s.running := rfl
@[simp] theorem State.spoilPack_busyLeft : (s.spoilPack).busyLeft = s.busyLeft := rfl
@[simp] theorem State.spoilPack_draws : (s.spoilPack).draws = s.draws + 1 := rfl
@[simp] theorem State.spoilPack_port : (s.spoilPack).port = s.port := rfl
@[simp] theorem State.spoilPack_replies : (s.spoilPack).replies = s.replies := rfl

/-! ## `State.spoilUnpack` -/

@[simp] theorem State.spoilUnpack_txt : (s.spoilUnpack).txt = s.txt := rfl
@[simp] theorem State.spoilUnpack_ft : (s.spoilUnpack).ft = s.ft := rfl
@[simp] theorem State.spoilUnpack_node : (s.spoilUnpack).node = s.node := rfl
@[simp] theorem State.spoilUnpack_ct : (s.spoilUnpack).ct = s.ct := rfl
@[simp] theorem State.spoilUnpack_ctb : (s.spoilUnpack).ctb = s.ctb := rfl
@[simp] theorem State.spoilUnpack_bits : (s.spoilUnpack).bits = Buf.unspec s.draws := rfl
@[simp] theorem State.spoilUnpack_pay : (s.spoilUnpack).pay = s.pay := rfl
@[simp] theorem State.spoilUnpack_txtLen : (s.spoilUnpack).txtLen = s.txtLen := rfl
@[simp] theorem State.spoilUnpack_ftCnt : (s.spoilUnpack).ftCnt = s.ftCnt := rfl
@[simp] theorem State.spoilUnpack_nodeCnt : (s.spoilUnpack).nodeCnt = s.nodeCnt := rfl
@[simp] theorem State.spoilUnpack_root : (s.spoilUnpack).root = s.root := rfl
@[simp] theorem State.spoilUnpack_ctCnt : (s.spoilUnpack).ctCnt = s.ctCnt := rfl
@[simp] theorem State.spoilUnpack_bitLen : (s.spoilUnpack).bitLen = s.bitLen := rfl
@[simp] theorem State.spoilUnpack_pad : (s.spoilUnpack).pad = s.pad := rfl
@[simp] theorem State.spoilUnpack_payLen : (s.spoilUnpack).payLen = s.payLen := rfl
@[simp] theorem State.spoilUnpack_status : (s.spoilUnpack).status = s.status := rfl
@[simp] theorem State.spoilUnpack_err : (s.spoilUnpack).err = s.err := rfl
@[simp] theorem State.spoilUnpack_errInfo : (s.spoilUnpack).errInfo = s.errInfo := rfl
@[simp] theorem State.spoilUnpack_origBits : (s.spoilUnpack).origBits = s.origBits := rfl
@[simp] theorem State.spoilUnpack_compBits : (s.spoilUnpack).compBits = s.compBits := rfl
@[simp] theorem State.spoilUnpack_ratio : (s.spoilUnpack).ratio = s.ratio := rfl
@[simp] theorem State.spoilUnpack_savings : (s.spoilUnpack).savings = s.savings := rfl
@[simp] theorem State.spoilUnpack_phase : (s.spoilUnpack).phase = s.phase := rfl
@[simp] theorem State.spoilUnpack_work : (s.spoilUnpack).work = s.work := rfl
@[simp] theorem State.spoilUnpack_cfg : (s.spoilUnpack).cfg = s.cfg := rfl
@[simp] theorem State.spoilUnpack_running : (s.spoilUnpack).running = s.running := rfl
@[simp] theorem State.spoilUnpack_busyLeft : (s.spoilUnpack).busyLeft = s.busyLeft := rfl
@[simp] theorem State.spoilUnpack_draws : (s.spoilUnpack).draws = s.draws + 1 := rfl
@[simp] theorem State.spoilUnpack_port : (s.spoilUnpack).port = s.port := rfl
@[simp] theorem State.spoilUnpack_replies : (s.spoilUnpack).replies = s.replies := rfl

/-! ## `State.writeStats` -/

@[simp] theorem State.writeStats_txt : (s.writeStats).txt = s.txt := rfl
@[simp] theorem State.writeStats_ft : (s.writeStats).ft = s.ft := rfl
@[simp] theorem State.writeStats_node : (s.writeStats).node = s.node := rfl
@[simp] theorem State.writeStats_ct : (s.writeStats).ct = s.ct := rfl
@[simp] theorem State.writeStats_ctb : (s.writeStats).ctb = s.ctb := rfl
@[simp] theorem State.writeStats_bits : (s.writeStats).bits = s.bits := rfl
@[simp] theorem State.writeStats_pay : (s.writeStats).pay = s.pay := rfl
@[simp] theorem State.writeStats_txtLen : (s.writeStats).txtLen = s.txtLen := rfl
@[simp] theorem State.writeStats_ftCnt : (s.writeStats).ftCnt = s.ftCnt := rfl
@[simp] theorem State.writeStats_nodeCnt : (s.writeStats).nodeCnt = s.nodeCnt := rfl
@[simp] theorem State.writeStats_root : (s.writeStats).root = s.root := rfl
@[simp] theorem State.writeStats_ctCnt : (s.writeStats).ctCnt = s.ctCnt := rfl
@[simp] theorem State.writeStats_bitLen : (s.writeStats).bitLen = s.bitLen := rfl
@[simp] theorem State.writeStats_pad : (s.writeStats).pad = s.pad := rfl
@[simp] theorem State.writeStats_payLen : (s.writeStats).payLen = s.payLen := rfl
@[simp] theorem State.writeStats_status : (s.writeStats).status = s.status := rfl
@[simp] theorem State.writeStats_err : (s.writeStats).err = s.err := rfl
@[simp] theorem State.writeStats_errInfo : (s.writeStats).errInfo = s.errInfo := rfl
@[simp] theorem State.writeStats_origBits : (s.writeStats).origBits = 8 * s.txtLen := rfl
@[simp] theorem State.writeStats_compBits : (s.writeStats).compBits = s.bitLen := rfl
@[simp] theorem State.writeStats_ratio : (s.writeStats).ratio = ratioOf s.bitLen (8 * s.txtLen) := rfl
@[simp] theorem State.writeStats_savings : (s.writeStats).savings = savingsOf (ratioOf s.bitLen (8 * s.txtLen)) := rfl
@[simp] theorem State.writeStats_phase : (s.writeStats).phase = s.phase := rfl
@[simp] theorem State.writeStats_work : (s.writeStats).work = s.work := rfl
@[simp] theorem State.writeStats_cfg : (s.writeStats).cfg = s.cfg := rfl
@[simp] theorem State.writeStats_running : (s.writeStats).running = s.running := rfl
@[simp] theorem State.writeStats_busyLeft : (s.writeStats).busyLeft = s.busyLeft := rfl
@[simp] theorem State.writeStats_draws : (s.writeStats).draws = s.draws := rfl
@[simp] theorem State.writeStats_port : (s.writeStats).port = s.port := rfl
@[simp] theorem State.writeStats_replies : (s.writeStats).replies = s.replies := rfl

/-! ## `State.writeEmptyResult` -/

@[simp] theorem State.writeEmptyResult_txt : (s.writeEmptyResult).txt = s.txt := rfl
@[simp] theorem State.writeEmptyResult_ft : (s.writeEmptyResult).ft = s.ft := rfl
@[simp] theorem State.writeEmptyResult_node : (s.writeEmptyResult).node = s.node := rfl
@[simp] theorem State.writeEmptyResult_ct : (s.writeEmptyResult).ct = s.ct := rfl
@[simp] theorem State.writeEmptyResult_ctb : (s.writeEmptyResult).ctb = s.ctb := rfl
@[simp] theorem State.writeEmptyResult_bits : (s.writeEmptyResult).bits = s.bits := rfl
@[simp] theorem State.writeEmptyResult_pay : (s.writeEmptyResult).pay = s.pay := rfl
@[simp] theorem State.writeEmptyResult_txtLen : (s.writeEmptyResult).txtLen = s.txtLen := rfl
@[simp] theorem State.writeEmptyResult_ftCnt : (s.writeEmptyResult).ftCnt = s.ftCnt := rfl
@[simp] theorem State.writeEmptyResult_nodeCnt : (s.writeEmptyResult).nodeCnt = 0 := rfl
@[simp] theorem State.writeEmptyResult_root : (s.writeEmptyResult).root = noneHandle := rfl
@[simp] theorem State.writeEmptyResult_ctCnt : (s.writeEmptyResult).ctCnt = 0 := rfl
@[simp] theorem State.writeEmptyResult_bitLen : (s.writeEmptyResult).bitLen = 0 := rfl
@[simp] theorem State.writeEmptyResult_pad : (s.writeEmptyResult).pad = 0 := rfl
@[simp] theorem State.writeEmptyResult_payLen : (s.writeEmptyResult).payLen = 0 := rfl
@[simp] theorem State.writeEmptyResult_status : (s.writeEmptyResult).status = s.status := rfl
@[simp] theorem State.writeEmptyResult_err : (s.writeEmptyResult).err = s.err := rfl
@[simp] theorem State.writeEmptyResult_errInfo : (s.writeEmptyResult).errInfo = s.errInfo := rfl
@[simp] theorem State.writeEmptyResult_origBits : (s.writeEmptyResult).origBits = 0 := rfl
@[simp] theorem State.writeEmptyResult_compBits : (s.writeEmptyResult).compBits = 0 := rfl
@[simp] theorem State.writeEmptyResult_ratio : (s.writeEmptyResult).ratio = 0 := rfl
@[simp] theorem State.writeEmptyResult_savings : (s.writeEmptyResult).savings = 0 := rfl
@[simp] theorem State.writeEmptyResult_phase : (s.writeEmptyResult).phase = s.phase := rfl
@[simp] theorem State.writeEmptyResult_work : (s.writeEmptyResult).work = s.work := rfl
@[simp] theorem State.writeEmptyResult_cfg : (s.writeEmptyResult).cfg = s.cfg := rfl
@[simp] theorem State.writeEmptyResult_running : (s.writeEmptyResult).running = s.running := rfl
@[simp] theorem State.writeEmptyResult_busyLeft : (s.writeEmptyResult).busyLeft = s.busyLeft := rfl
@[simp] theorem State.writeEmptyResult_draws : (s.writeEmptyResult).draws = s.draws := rfl
@[simp] theorem State.writeEmptyResult_port : (s.writeEmptyResult).port = s.port := rfl
@[simp] theorem State.writeEmptyResult_replies : (s.writeEmptyResult).replies = s.replies := rfl

/-! ## `State.writeClear` -/

@[simp] theorem State.writeClear_txt : (s.writeClear).txt = s.txt := rfl
@[simp] theorem State.writeClear_ft : (s.writeClear).ft = s.ft := rfl
@[simp] theorem State.writeClear_node : (s.writeClear).node = s.node := rfl
@[simp] theorem State.writeClear_ct : (s.writeClear).ct = s.ct := rfl
@[simp] theorem State.writeClear_ctb : (s.writeClear).ctb = s.ctb := rfl
@[simp] theorem State.writeClear_bits : (s.writeClear).bits = s.bits := rfl
@[simp] theorem State.writeClear_pay : (s.writeClear).pay = s.pay := rfl
@[simp] theorem State.writeClear_txtLen : (s.writeClear).txtLen = 0 := rfl
@[simp] theorem State.writeClear_ftCnt : (s.writeClear).ftCnt = 0 := rfl
@[simp] theorem State.writeClear_nodeCnt : (s.writeClear).nodeCnt = 0 := rfl
@[simp] theorem State.writeClear_root : (s.writeClear).root = noneHandle := rfl
@[simp] theorem State.writeClear_ctCnt : (s.writeClear).ctCnt = 0 := rfl
@[simp] theorem State.writeClear_bitLen : (s.writeClear).bitLen = 0 := rfl
@[simp] theorem State.writeClear_pad : (s.writeClear).pad = 0 := rfl
@[simp] theorem State.writeClear_payLen : (s.writeClear).payLen = 0 := rfl
@[simp] theorem State.writeClear_status : (s.writeClear).status = s.status := rfl
@[simp] theorem State.writeClear_err : (s.writeClear).err = s.err := rfl
@[simp] theorem State.writeClear_errInfo : (s.writeClear).errInfo = s.errInfo := rfl
@[simp] theorem State.writeClear_origBits : (s.writeClear).origBits = 0 := rfl
@[simp] theorem State.writeClear_compBits : (s.writeClear).compBits = 0 := rfl
@[simp] theorem State.writeClear_ratio : (s.writeClear).ratio = 0 := rfl
@[simp] theorem State.writeClear_savings : (s.writeClear).savings = 0 := rfl
@[simp] theorem State.writeClear_phase : (s.writeClear).phase = s.phase := rfl
@[simp] theorem State.writeClear_work : (s.writeClear).work = s.work := rfl
@[simp] theorem State.writeClear_cfg : (s.writeClear).cfg = s.cfg := rfl
@[simp] theorem State.writeClear_running : (s.writeClear).running = s.running := rfl
@[simp] theorem State.writeClear_busyLeft : (s.writeClear).busyLeft = s.busyLeft := rfl
@[simp] theorem State.writeClear_draws : (s.writeClear).draws = s.draws := rfl
@[simp] theorem State.writeClear_port : (s.writeClear).port = s.port := rfl
@[simp] theorem State.writeClear_replies : (s.writeClear).replies = s.replies := rfl

/-! ## `State.reply` -/

@[simp] theorem State.reply_txt (w : Word) : (s.reply w).txt = s.txt := rfl
@[simp] theorem State.reply_ft (w : Word) : (s.reply w).ft = s.ft := rfl
@[simp] theorem State.reply_node (w : Word) : (s.reply w).node = s.node := rfl
@[simp] theorem State.reply_ct (w : Word) : (s.reply w).ct = s.ct := rfl
@[simp] theorem State.reply_ctb (w : Word) : (s.reply w).ctb = s.ctb := rfl
@[simp] theorem State.reply_bits (w : Word) : (s.reply w).bits = s.bits := rfl
@[simp] theorem State.reply_pay (w : Word) : (s.reply w).pay = s.pay := rfl
@[simp] theorem State.reply_txtLen (w : Word) : (s.reply w).txtLen = s.txtLen := rfl
@[simp] theorem State.reply_ftCnt (w : Word) : (s.reply w).ftCnt = s.ftCnt := rfl
@[simp] theorem State.reply_nodeCnt (w : Word) : (s.reply w).nodeCnt = s.nodeCnt := rfl
@[simp] theorem State.reply_root (w : Word) : (s.reply w).root = s.root := rfl
@[simp] theorem State.reply_ctCnt (w : Word) : (s.reply w).ctCnt = s.ctCnt := rfl
@[simp] theorem State.reply_bitLen (w : Word) : (s.reply w).bitLen = s.bitLen := rfl
@[simp] theorem State.reply_pad (w : Word) : (s.reply w).pad = s.pad := rfl
@[simp] theorem State.reply_payLen (w : Word) : (s.reply w).payLen = s.payLen := rfl
@[simp] theorem State.reply_status (w : Word) : (s.reply w).status = s.status := rfl
@[simp] theorem State.reply_err (w : Word) : (s.reply w).err = s.err := rfl
@[simp] theorem State.reply_errInfo (w : Word) : (s.reply w).errInfo = s.errInfo := rfl
@[simp] theorem State.reply_origBits (w : Word) : (s.reply w).origBits = s.origBits := rfl
@[simp] theorem State.reply_compBits (w : Word) : (s.reply w).compBits = s.compBits := rfl
@[simp] theorem State.reply_ratio (w : Word) : (s.reply w).ratio = s.ratio := rfl
@[simp] theorem State.reply_savings (w : Word) : (s.reply w).savings = s.savings := rfl
@[simp] theorem State.reply_phase (w : Word) : (s.reply w).phase = s.phase := rfl
@[simp] theorem State.reply_work (w : Word) : (s.reply w).work = s.work := rfl
@[simp] theorem State.reply_cfg (w : Word) : (s.reply w).cfg = s.cfg := rfl
@[simp] theorem State.reply_running (w : Word) : (s.reply w).running = s.running := rfl
@[simp] theorem State.reply_busyLeft (w : Word) : (s.reply w).busyLeft = s.busyLeft := rfl
@[simp] theorem State.reply_draws (w : Word) : (s.reply w).draws = s.draws := rfl
@[simp] theorem State.reply_port (w : Word) : (s.reply w).port = s.port := rfl
@[simp] theorem State.reply_replies (w : Word) : (s.reply w).replies = w :: s.replies := rfl

/-! ## `State.hostReset` -/

@[simp] theorem State.hostReset_txt : (s.hostReset).txt = Buf.unspec s.draws := rfl
@[simp] theorem State.hostReset_ft : (s.hostReset).ft = Buf.unspec s.draws := rfl
@[simp] theorem State.hostReset_node : (s.hostReset).node = Buf.unspec s.draws := rfl
@[simp] theorem State.hostReset_ct : (s.hostReset).ct = Buf.unspec s.draws := rfl
@[simp] theorem State.hostReset_ctb : (s.hostReset).ctb = Buf.unspec s.draws := rfl
@[simp] theorem State.hostReset_bits : (s.hostReset).bits = Buf.unspec s.draws := rfl
@[simp] theorem State.hostReset_pay : (s.hostReset).pay = Buf.unspec s.draws := rfl
@[simp] theorem State.hostReset_txtLen : (s.hostReset).txtLen = 0 := rfl
@[simp] theorem State.hostReset_ftCnt : (s.hostReset).ftCnt = 0 := rfl
@[simp] theorem State.hostReset_nodeCnt : (s.hostReset).nodeCnt = 0 := rfl
@[simp] theorem State.hostReset_root : (s.hostReset).root = noneHandle := rfl
@[simp] theorem State.hostReset_ctCnt : (s.hostReset).ctCnt = 0 := rfl
@[simp] theorem State.hostReset_bitLen : (s.hostReset).bitLen = 0 := rfl
@[simp] theorem State.hostReset_pad : (s.hostReset).pad = 0 := rfl
@[simp] theorem State.hostReset_payLen : (s.hostReset).payLen = 0 := rfl
@[simp] theorem State.hostReset_status : (s.hostReset).status = 0 := rfl
@[simp] theorem State.hostReset_err : (s.hostReset).err = 0 := rfl
@[simp] theorem State.hostReset_errInfo : (s.hostReset).errInfo = 0 := rfl
@[simp] theorem State.hostReset_origBits : (s.hostReset).origBits = 0 := rfl
@[simp] theorem State.hostReset_compBits : (s.hostReset).compBits = 0 := rfl
@[simp] theorem State.hostReset_ratio : (s.hostReset).ratio = 0 := rfl
@[simp] theorem State.hostReset_savings : (s.hostReset).savings = 0 := rfl
@[simp] theorem State.hostReset_phase : (s.hostReset).phase = .idle := rfl
@[simp] theorem State.hostReset_work : (s.hostReset).work = .dead := rfl
@[simp] theorem State.hostReset_cfg : (s.hostReset).cfg = s.cfg := rfl
@[simp] theorem State.hostReset_running : (s.hostReset).running = none := rfl
@[simp] theorem State.hostReset_busyLeft : (s.hostReset).busyLeft = 0 := rfl
@[simp] theorem State.hostReset_draws : (s.hostReset).draws = s.draws + 1 := rfl
@[simp] theorem State.hostReset_port : (s.hostReset).port = s.port := rfl
@[simp] theorem State.hostReset_replies : (s.hostReset).replies = s.replies := rfl

/-! ## `State.writeUnpack` -/

theorem State.writeUnpack_nil : s.writeUnpack [] = s := rfl

theorem State.writeUnpack_of_ne {l : List Bool} (h : l ≠ []) :
    s.writeUnpack l = { s with bits := Buf.full l s.draws, draws := s.draws + 1 } := by
  simp [State.writeUnpack, h]

@[simp] theorem State.writeUnpack_txt (l : List Bool) : (s.writeUnpack l).txt = s.txt := by
  unfold State.writeUnpack; split <;> rfl
@[simp] theorem State.writeUnpack_ft (l : List Bool) : (s.writeUnpack l).ft = s.ft := by
  unfold State.writeUnpack; split <;> rfl
@[simp] theorem State.writeUnpack_node (l : List Bool) : (s.writeUnpack l).node = s.node := by
  unfold State.writeUnpack; split <;> rfl
@[simp] theorem State.writeUnpack_ct (l : List Bool) : (s.writeUnpack l).ct = s.ct := by
  unfold State.writeUnpack; split <;> rfl
@[simp] theorem State.writeUnpack_ctb (l : List Bool) : (s.writeUnpack l).ctb = s.ctb := by
  unfold State.writeUnpack; split <;> rfl
@[simp] theorem State.writeUnpack_pay (l : List Bool) : (s.writeUnpack l).pay = s.pay := by
  unfold State.writeUnpack; split <;> rfl
@[simp] theorem State.writeUnpack_txtLen (l : List Bool) : (s.writeUnpack l).txtLen = s.txtLen := by
  unfold State.writeUnpack; split <;> rfl
@[simp] theorem State.writeUnpack_ftCnt (l : List Bool) : (s.writeUnpack l).ftCnt = s.ftCnt := by
  unfold State.writeUnpack; split <;> rfl
@[simp] theorem State.writeUnpack_nodeCnt (l : List Bool) : (s.writeUnpack l).nodeCnt = s.nodeCnt := by
  unfold State.writeUnpack; split <;> rfl
@[simp] theorem State.writeUnpack_root (l : List Bool) : (s.writeUnpack l).root = s.root := by
  unfold State.writeUnpack; split <;> rfl
@[simp] theorem State.writeUnpack_ctCnt (l : List Bool) : (s.writeUnpack l).ctCnt = s.ctCnt := by
  unfold State.writeUnpack; split <;> rfl
@[simp] theorem State.writeUnpack_bitLen (l : List Bool) : (s.writeUnpack l).bitLen = s.bitLen := by
  unfold State.writeUnpack; split <;> rfl
@[simp] theorem State.writeUnpack_pad (l : List Bool) : (s.writeUnpack l).pad = s.pad := by
  unfold State.writeUnpack; split <;> rfl
@[simp] theorem State.writeUnpack_payLen (l : List Bool) : (s.writeUnpack l).payLen = s.payLen := by
  unfold State.writeUnpack; split <;> rfl
@[simp] theorem State.writeUnpack_status (l : List Bool) : (s.writeUnpack l).status = s.status := by
  unfold State.writeUnpack; split <;> rfl
@[simp] theorem State.writeUnpack_err (l : List Bool) : (s.writeUnpack l).err = s.err := by
  unfold State.writeUnpack; split <;> rfl
@[simp] theorem State.writeUnpack_errInfo (l : List Bool) : (s.writeUnpack l).errInfo = s.errInfo := by
  unfold State.writeUnpack; split <;> rfl
@[simp] theorem State.writeUnpack_origBits (l : List Bool) : (s.writeUnpack l).origBits = s.origBits := by
  unfold State.writeUnpack; split <;> rfl
@[simp] theorem State.writeUnpack_compBits (l : List Bool) : (s.writeUnpack l).compBits = s.compBits := by
  unfold State.writeUnpack; split <;> rfl
@[simp] theorem State.writeUnpack_ratio (l : List Bool) : (s.writeUnpack l).ratio = s.ratio := by
  unfold State.writeUnpack; split <;> rfl
@[simp] theorem State.writeUnpack_savings (l : List Bool) : (s.writeUnpack l).savings = s.savings := by
  unfold State.writeUnpack; split <;> rfl
@[simp] theorem State.writeUnpack_phase (l : List Bool) : (s.writeUnpack l).phase = s.phase := by
  unfold State.writeUnpack; split <;> rfl
@[simp] theorem State.writeUnpack_work (l : List Bool) : (s.writeUnpack l).work = s.work := by
  unfold State.writeUnpack; split <;> rfl
@[simp] theorem State.writeUnpack_cfg (l : List Bool) : (s.writeUnpack l).cfg = s.cfg := by
  unfold State.writeUnpack; split <;> rfl
@[simp] theorem State.writeUnpack_running (l : List Bool) : (s.writeUnpack l).running = s.running := by
  unfold State.writeUnpack; split <;> rfl
@[simp] theorem State.writeUnpack_busyLeft (l : List Bool) : (s.writeUnpack l).busyLeft = s.busyLeft := by
  unfold State.writeUnpack; split <;> rfl
@[simp] theorem State.writeUnpack_port (l : List Bool) : (s.writeUnpack l).port = s.port := by
  unfold State.writeUnpack; split <;> rfl
@[simp] theorem State.writeUnpack_replies (l : List Bool) : (s.writeUnpack l).replies = s.replies := by
  unfold State.writeUnpack; split <;> rfl

end Sys2Proof.Machine
end

