-- ==== Sys2Proof/Laws/Memory.lean ====
section
/-! SUPPORT. Every operation on the memory keeps its canonical form (`Memory.wf`), and the elements a command reads are
within their widths. -/

namespace Sys2Proof.Machine

variable {s : State}

/-! ## Widths of elements -/

theorem symTrunc_lt (p : Params) (w : Word) : (symTrunc p w).toNat < 2 ^ p.symW := by
  have h : w.toNat % 2 ^ p.symW < 2 ^ p.symW := Nat.mod_lt _ (by positivity)
  simp only [symTrunc, BitVec.toNat_ofNat]
  exact Nat.lt_of_le_of_lt (Nat.mod_le _ _) h

theorem symTrunc_of_lt {p : Params} {w : Word} (h : w.toNat < 2 ^ p.symW) : symTrunc p w = w := by
  simp [symTrunc, Nat.mod_eq_of_lt h]

theorem symTrunc_symTrunc (p : Params) (w : Word) : symTrunc p (symTrunc p w) = symTrunc p w :=
  symTrunc_of_lt (symTrunc_lt p w)

theorem nodeTrunc_nodeTrunc (p : Params) (f : Nat) (w : Word) : nodeTrunc p f (nodeTrunc p f w) = nodeTrunc p f w := by
  match f with
  | 0 => simp [nodeTrunc, BitVec.and_assoc]
  | 1 => exact symTrunc_symTrunc p w
  | _ + 2 => rfl

/-- A value read from a buffer has every property of the listed cells and of the free value. -/
theorem Buf.get_cases {α : Type} {P : α → Prop} {b : Buf α} {i : Nat} {free : α} (h : ∀ p ∈ b.cells, p.1 = i → P p.2)
    (hf : P free) : P (b.get i free) := by
  unfold Buf.get
  cases hx : lookupCell b.cells i with
  | none => exact hf
  | some v => exact h _ (mem_of_lookupCell hx) rfl

theorem State.txtAt_lt (h : Memory.wf s) (i : Nat) : (s.txtAt i).toNat < 2 ^ s.cfg.symW :=
  Buf.get_cases (P := fun w : Word => w.toNat < 2 ^ s.cfg.symW) (fun p hp _ => h.1.2.2 p hp) (symTrunc_lt _ _)

theorem State.ftAt_sym_lt (h : Memory.wf s) (j : Nat) : (s.ftAt j).sym.toNat < 2 ^ s.cfg.symW :=
  Buf.get_cases (P := fun e : FtEntry => e.sym.toNat < 2 ^ s.cfg.symW) (fun p hp _ => h.2.1.2.2 p hp) (symTrunc_lt _ _)

theorem State.nodeWord_trunc (h : Memory.wf s) (x : Nat) : nodeTrunc s.cfg (x % 8) (s.nodeWord x) = s.nodeWord x :=
  Buf.get_cases (P := fun w => nodeTrunc s.cfg (x % 8) w = w)
    (fun p hp hx => by have := (h.2.2.1.2.2 p hp).2; rwa [hx] at this) (nodeTrunc_nodeTrunc _ _ _)

theorem State.nodeAt_sym_lt (h : Memory.wf s) (k : Nat) : (s.nodeAt k).sym.toNat < 2 ^ s.cfg.symW := by
  have hw := State.nodeWord_trunc h (8 * k + 1)
  rw [show (8 * k + 1) % 8 = 1 by omega] at hw
  change (s.nodeWord (8 * k + 1)).toNat < _
  rw [← hw]
  exact symTrunc_lt _ _

/-! ## The canonical form -/

theorem Memory.wf_reset : Memory.wf State.reset := by decide

/-- An update that leaves the buffers and the parameters alone keeps the canonical form. -/
theorem Memory.wf_congr {t : State} (h : Memory.wf s) (h₁ : t.txt = s.txt) (h₂ : t.ft = s.ft) (h₃ : t.node = s.node)
    (h₄ : t.ct = s.ct) (h₅ : t.ctb = s.ctb) (h₆ : t.bits = s.bits) (h₇ : t.pay = s.pay) (h₈ : t.cfg = s.cfg) :
    Memory.wf t := by
  unfold Memory.wf at *
  rw [h₁, h₂, h₃, h₄, h₅, h₆, h₇, h₈]
  exact h

theorem Memory.wf_enter (h : Memory.wf s) (p : Phase) : Memory.wf (s.enter p) := h

theorem Memory.wf_accept (h : Memory.wf s) (w : Word) (i : Instr) : Memory.wf (s.accept w i) := h

theorem Memory.wf_commandEnd (h : Memory.wf s) : Memory.wf s.commandEnd := h

theorem Memory.wf_errorEntry (h : Memory.wf s) (r : Raise) : Memory.wf (s.errorEntry r) := h

theorem Memory.wf_hostReset (s : State) : Memory.wf s.hostReset := by
  simp [Memory.wf, Buf.Sorted, Buf.Within]

/-! ### The stages -/

theorem Memory.wf_writeFreq (h : Memory.wf s) {l : List FtEntry} (hl : l.length ≤ s.cfg.maxSyms)
    (hw : ∀ e ∈ l, e.sym.toNat < 2 ^ s.cfg.symW) : Memory.wf (s.writeFreq l) :=
  ⟨h.1, ⟨Buf.sorted_full _ _, Buf.forall_full fun _ _ hi _ => Nat.lt_of_lt_of_le hi hl,
    Buf.forall_full fun _ v _ hv => hw v hv⟩, h.2.2⟩

theorem Memory.wf_spoilFreq (h : Memory.wf s) : Memory.wf s.spoilFreq :=
  ⟨h.1, ⟨Buf.sorted_unspec _, by simp [Buf.Within], by simp⟩, h.2.2⟩

/-- The word of an arena entry lies in the entry, in one of its five fields, within the field's width. -/
theorem mem_nodeCells {p : Params} {k : Nat} {n : Node} (hn : n.sym.toNat < 2 ^ p.symW) {c : Nat × Word}
    (hc : c ∈ nodeCells k n) : c.1 / 8 = k ∧ c.1 % 8 < 5 ∧ nodeTrunc p (c.1 % 8) c.2 = c.2 := by
  simp only [nodeCells, List.mem_cons, List.not_mem_nil, or_false] at hc
  rcases hc with rfl | rfl | rfl | rfl | rfl
  · refine ⟨by simp, by simp, ?_⟩
    simp only [Nat.mul_mod_right, nodeTrunc]
    split <;> rfl
  · refine ⟨by simp; omega, by simp, ?_⟩
    simp only [show (8 * k + 1) % 8 = 1 by omega, nodeTrunc]
    exact symTrunc_of_lt hn
  · exact ⟨by simp; omega, by simp, by simp only [show (8 * k + 2) % 8 = 2 by omega, nodeTrunc]⟩
  · exact ⟨by simp; omega, by simp, by simp only [show (8 * k + 3) % 8 = 3 by omega, nodeTrunc]⟩
  · exact ⟨by simp; omega, by simp, by simp only [show (8 * k + 4) % 8 = 4 by omega, nodeTrunc]⟩

theorem mem_arenaCells {p : Params} {k : Nat} {l : List Node} (hn : ∀ n ∈ l, n.sym.toNat < 2 ^ p.symW) {c : Nat × Word}
    (hc : c ∈ arenaCells k l) :
    k ≤ c.1 / 8 ∧ c.1 / 8 < k + l.length ∧ c.1 % 8 < 5 ∧ nodeTrunc p (c.1 % 8) c.2 = c.2 := by
  induction l generalizing k with
  | nil => simp [arenaCells] at hc
  | cons n l ih =>
    rcases List.mem_append.1 hc with hc | hc
    · obtain ⟨h₁, h₂, h₃⟩ := mem_nodeCells (hn n (by simp)) hc
      exact ⟨by omega, by simp only [List.length_cons]; omega, h₂, h₃⟩
    · obtain ⟨h₁, h₂, h₃⟩ := ih (fun m hm => hn m (by simp [hm])) hc
      exact ⟨by omega, by simp only [List.length_cons]; omega, h₃⟩

theorem Memory.wf_writeBuild (h : Memory.wf s) {l : List Node} (hn : ∀ n ∈ l, n.sym.toNat < 2 ^ s.cfg.symW) :
    Memory.wf (s.writeBuild l) := by
  have hc : ∀ c ∈ arenaCells 0 (l.take s.cfg.maxNodes),
      c.1 < 8 * s.cfg.maxNodes ∧ c.1 % 8 < 5 ∧ nodeTrunc s.cfg (c.1 % 8) c.2 = c.2 := fun c hc => by
    obtain ⟨_, h₂, h₃⟩ := mem_arenaCells (p := s.cfg) (fun n hm => hn n (List.mem_of_mem_take hm)) hc
    have := List.length_take_le s.cfg.maxNodes l
    exact ⟨by omega, h₃⟩
  obtain ⟨h₁, h₂, ⟨n₁, n₂, n₃⟩, h₄⟩ := h
  exact ⟨h₁, h₂, ⟨Buf.sorted_putAll n₁ _, Buf.forall_putAll n₂ fun p hp => (hc p hp).1,
    Buf.forall_putAll n₃ fun p hp => (hc p hp).2⟩, h₄⟩

theorem Memory.wf_spoilBuild (h : Memory.wf s) : Memory.wf s.spoilBuild :=
  ⟨h.1, h.2.1, ⟨Buf.sorted_unspec _, by simp [Buf.Within], by simp⟩, h.2.2.2⟩

theorem Memory.wf_writeGen (h : Memory.wf s) {l : List CodeRow} (hl : l.length ≤ s.cfg.maxNodes)
    (hw : ∀ e ∈ l, e.sym.toNat < 2 ^ s.cfg.symW) (hd : ∀ e ∈ l, e.code.length ≤ s.cfg.maxDepth) :
    Memory.wf (s.writeGen l) := by
  obtain ⟨h₁, h₂, h₃, _, _, h₆⟩ := h
  refine ⟨h₁, h₂, h₃, ⟨Buf.sorted_full _ _, Buf.forall_full fun _ _ hi _ => ?_, Buf.forall_full fun _ v _ hv => ?_⟩,
    ⟨Buf.sorted_full _ _, Buf.forall_full fun _ _ hi _ => ?_, Buf.forall_full fun _ v _ hv => ?_⟩, h₆⟩
  · simp only [List.length_map] at hi
    exact Nat.lt_of_lt_of_le hi hl
  · obtain ⟨e, he, rfl⟩ := List.mem_map.1 hv
    exact hw e he
  · simp only [List.length_map] at hi
    exact Nat.lt_of_lt_of_le hi hl
  · obtain ⟨e, he, rfl⟩ := List.mem_map.1 hv
    exact hd e he

theorem Memory.wf_spoilGen (h : Memory.wf s) : Memory.wf s.spoilGen := by
  obtain ⟨h₁, h₂, h₃, _, _, h₆⟩ := h
  exact ⟨h₁, h₂, h₃, ⟨Buf.sorted_unspec _, by simp [Buf.Within], by simp⟩,
    ⟨Buf.sorted_unspec _, by simp [Buf.Within], by simp⟩, h₆⟩

/-- A number of bits within MAX_BITS is within the words of BITS. -/
theorem bits_within {n m : Nat} (h : n ≤ m) : n ≤ 32 * ((m + 31) / 32) := by omega

theorem Memory.wf_writeEncode (h : Memory.wf s) {l : List Bool} (hl : l.length ≤ s.cfg.maxBits) :
    Memory.wf (s.writeEncode l) := by
  obtain ⟨h₁, h₂, h₃, h₄, h₅, _, h₇⟩ := h
  exact ⟨h₁, h₂, h₃, h₄, h₅, ⟨Buf.sorted_full _ _,
    Buf.forall_full fun _ _ hi _ => Nat.lt_of_lt_of_le hi (bits_within hl)⟩, h₇⟩

theorem Memory.wf_spoilEncode (h : Memory.wf s) : Memory.wf s.spoilEncode := by
  obtain ⟨h₁, h₂, h₃, h₄, h₅, _, h₇⟩ := h
  exact ⟨h₁, h₂, h₃, h₄, h₅, ⟨Buf.sorted_unspec _, by simp [Buf.Within]⟩, h₇⟩

theorem Memory.wf_writeUnpack (h : Memory.wf s) {l : List Bool} (hl : l.length ≤ s.cfg.maxBits) :
    Memory.wf (s.writeUnpack l) := by
  by_cases hn : l = []
  · subst hn; exact h
  · rw [State.writeUnpack_of_ne s hn]
    exact Memory.wf_writeEncode h hl

theorem Memory.wf_spoilUnpack (h : Memory.wf s) : Memory.wf s.spoilUnpack := Memory.wf_spoilEncode h

theorem Memory.wf_writeDecode (h : Memory.wf s) {l : List Symbol} (hl : l.length ≤ s.cfg.maxTxt)
    (hw : ∀ x ∈ l, x.toNat < 2 ^ s.cfg.symW) : Memory.wf (s.writeDecode l) :=
  ⟨⟨Buf.sorted_full _ _, Buf.forall_full fun _ _ hi _ => Nat.lt_of_lt_of_le hi hl,
    Buf.forall_full fun _ v _ hv => hw v hv⟩, h.2⟩

theorem Memory.wf_spoilDecode (h : Memory.wf s) : Memory.wf s.spoilDecode :=
  ⟨⟨Buf.sorted_unspec _, by simp [Buf.Within], by simp⟩, h.2⟩

theorem Memory.wf_writePack (h : Memory.wf s) {l : List Byte} (hl : l.length ≤ s.cfg.maxPay) (n : Nat) :
    Memory.wf (s.writePack l n) := by
  obtain ⟨h₁, h₂, h₃, h₄, h₅, h₆, _⟩ := h
  exact ⟨h₁, h₂, h₃, h₄, h₅, h₆, Buf.sorted_full _ _, Buf.forall_full fun _ _ hi _ => Nat.lt_of_lt_of_le hi hl⟩

theorem Memory.wf_spoilPack (h : Memory.wf s) : Memory.wf s.spoilPack := by
  obtain ⟨h₁, h₂, h₃, h₄, h₅, h₆, _⟩ := h
  exact ⟨h₁, h₂, h₃, h₄, h₅, h₆, Buf.sorted_unspec _, by simp [Buf.Within]⟩

/-! ### The host's writes -/

theorem Memory.wf_csrWrite (h : Memory.wf s) (x : Nat) (w : Word) : Memory.wf (s.csrWrite x w) := by
  unfold State.csrWrite
  split <;> exact h

theorem Memory.wf_setBits (h : Memory.wf s) {b : Buf Bool} (hs : b.Sorted)
    (hw : b.Within (32 * ((s.cfg.maxBits + 31) / 32))) : Memory.wf { s with bits := b } := by
  obtain ⟨h₁, h₂, h₃, h₄, h₅, _, h₇⟩ := h
  exact ⟨h₁, h₂, h₃, h₄, h₅, ⟨hs, hw⟩, h₇⟩

theorem mem_bitsCells {x : Nat} {w : Word} {p : Nat × Bool} (h : p ∈ bitsCells x w) : p.1 / 32 = x := by
  obtain ⟨t, ht, rfl⟩ := List.mem_map.1 h
  have := List.mem_range.1 ht
  dsimp only
  omega

theorem Memory.wf_spaceWrite (h : Memory.wf s) {sp : Space} {x : Nat} (hx : x < spaceWords s.cfg sp) (w : Word) :
    Memory.wf (s.spaceWrite sp x w) := by
  obtain ⟨⟨t₁, t₂, t₃⟩, h₂, ⟨n₁, n₂, n₃⟩, h₄, h₅, ⟨b₁, b₂⟩, p₁, p₂⟩ := id h
  cases sp with
  | csr => exact Memory.wf_csrWrite h x w
  | txt =>
    exact ⟨⟨Buf.sorted_put t₁ _ _, Buf.forall_put t₂ hx, Buf.forall_put t₃ (symTrunc_lt _ _)⟩, h.2⟩
  | ft => exact h
  | node =>
    simp only [State.spaceWrite]
    split
    · rename_i hf
      exact ⟨h.1, h₂, ⟨Buf.sorted_put n₁ _ _, Buf.forall_put n₂ hx,
        Buf.forall_put n₃ ⟨hf, nodeTrunc_nodeTrunc _ _ _⟩⟩, h₄, h₅, ⟨b₁, b₂⟩, p₁, p₂⟩
    · exact h
  | ct => exact h
  | ctb => exact h
  | bits =>
    refine Memory.wf_setBits h (Buf.sorted_putAll b₁ _) (Buf.forall_putAll b₂ fun p hp => ?_)
    have := mem_bitsCells hp
    simp only [spaceWords] at hx
    omega
  | pay => exact ⟨h.1, h₂, h.2.2.1, h₄, h₅, h.2.2.2.2.2.1, Buf.sorted_put p₁ _ _, Buf.forall_put p₂ hx⟩

/-- Every host write keeps the canonical form. -/
theorem Memory.wf_memWrite (h : Memory.wf s) (space : BitVec 4) (index data : Word) :
    Memory.wf (s.memWrite space index data) := by
  unfold State.memWrite
  split
  · exact h
  · split
    · unfold State.cmdWrite
      split <;> exact h
    · split
      · exact Memory.wf_spaceWrite h ‹_› _
      · exact h

end Sys2Proof.Machine
end

