-- ==== Sys2Proof/Laws/Operands.lean ====
section
/-! SUPPORT. What a command reads after a stage has written: each stage's outputs, read back as the next stage's operands. -/

namespace Sys2Proof.Machine

variable {s : State}

/-- Reading `0 .. n − 1` of a list of `n` elements gives the list. -/
theorem map_range_getD {α : Type} (l : List α) (free : Nat → α) :
    (List.range l.length).map (fun i => l.getD i (free i)) = l := by
  apply List.ext_getElem?
  intro i
  by_cases h : i < l.length
  · simp [h, List.getD_eq_getElem?_getD]
  · simp [h]

theorem toNat_ofNat_of_lt {n : Nat} (h : n < 2 ^ 32) : (BitVec.ofNat 32 n).toNat = n := by
  rw [BitVec.toNat_ofNat, Nat.mod_eq_of_lt h]

/-- FREQ's table, read back (41_frequency_analyzer.md R141). -/
theorem State.freqTable_writeFreq {l : List FtEntry} (h : l.length < 2 ^ 32) : (s.writeFreq l).freqTable = l := by
  simp only [State.freqTable, State.writeFreq_ftCnt, toNat_ofNat_of_lt h]
  change (List.range _).map (fun i => (s.writeFreq l).ftAt i) = l
  simp only [State.ftAt, State.writeFreq_ft, Buf.get_full]
  exact map_range_getD l _

/-- DECODE's text, read back (45_decoder.md R191). -/
theorem State.text_writeDecode {l : List Symbol} (h : l.length < 2 ^ 32) : (s.writeDecode l).text = l := by
  simp only [State.text, State.writeDecode_txtLen, toNat_ofNat_of_lt h]
  change (List.range _).map (fun i => (s.writeDecode l).txtAt i) = l
  simp only [State.txtAt, State.writeDecode_txt, Buf.get_full]
  exact map_range_getD l _

/-- ENCODE's bits, read back (44_encoder.md R181). -/
theorem State.bitSeq_writeEncode {l : List Bool} (h : l.length < 2 ^ 32) : (s.writeEncode l).bitSeq = l := by
  simp only [State.bitSeq, State.writeEncode_bitLen, toNat_ofNat_of_lt h]
  change (List.range _).map (fun i => (s.writeEncode l).bitAt i) = l
  simp only [State.bitAt, State.writeEncode_bits, Buf.get_full]
  exact map_range_getD l _

/-- UNPACK's bits, read back: as many as BIT_LEN asks for (46_bit_packer.md R203). -/
theorem State.bitSeq_writeUnpack {l : List Bool} (h : l.length = s.bitLen.toNat) : (s.writeUnpack l).bitSeq = l := by
  by_cases hn : l = []
  · subst hn
    have h0 : s.bitLen.toNat = 0 := h.symm
    simp only [State.bitSeq, State.writeUnpack_bitLen, h0, List.range_zero, List.map_nil]
  · simp only [State.bitSeq, State.writeUnpack_bitLen, ← h]
    rw [State.writeUnpack_of_ne s hn]
    change (List.range _).map (fun i => State.bitAt _ i) = l
    simp only [State.bitAt, Buf.get_full]
    exact map_range_getD l _

/-- PACK's payload, read back (46_bit_packer.md R201). -/
theorem State.payload_writePack {l : List Byte} (h : l.length < 2 ^ 32) (n : Nat) :
    (s.writePack l n).payload = l := by
  simp only [State.payload, State.writePack_payLen, toNat_ofNat_of_lt h]
  change (List.range _).map (fun i => (s.writePack l n).payAt i) = l
  simp only [State.payAt, State.writePack_pay, Buf.get_full]
  exact map_range_getD l _

/-- GEN's code table, read back (43_code_table_generator.md R172). -/
theorem State.codeTable_writeGen {l : List CodeRow} (h : l.length < 2 ^ 32) (hc : ∀ e ∈ l, e.code.length < 2 ^ 32) :
    (s.writeGen l).codeTable = l := by
  apply List.ext_getElem?
  intro j
  simp only [State.codeTable, State.writeGen_ctCnt, toNat_ofNat_of_lt h, List.getElem?_map]
  by_cases hj : j < l.length
  · have hlen := hc _ (List.getElem_mem hj)
    have hct : (s.writeGen l).ctAt j = ⟨l[j].sym, BitVec.ofNat 32 l[j].code.length⟩ := by
      simp [State.ctAt, Buf.get_full, List.getD_eq_getElem?_getD, hj]
    have hcode : (s.writeGen l).codeBit j = fun t => l[j].code.getD t false := by
      funext t
      simp [State.codeBit, Buf.full, lookupCell_numberFrom, hj]
    have hbits : (List.range l[j].code.length).map (fun t => l[j].code.getD t false) = l[j].code :=
      map_range_getD l[j].code fun _ => false
    simp only [List.getElem?_range hj, Option.map_some, hct, hcode, toNat_ofNat_of_lt hlen, hbits,
      List.getElem?_eq_getElem hj]
  · simp [Nat.not_lt.1 hj]

/-! ## The arena -/

theorem arenaCells_lt {k : Nat} {l : List Node} {c : Nat × Word} (h : c ∈ arenaCells k l) : 8 * k ≤ c.1 := by
  induction l generalizing k with
  | nil => simp [arenaCells] at h
  | cons n l ih =>
    rcases List.mem_append.1 h with h | h
    · simp only [nodeCells, List.mem_cons, List.not_mem_nil, or_false] at h
      rcases h with rfl | rfl | rfl | rfl | rfl <;> simp
    · have := ih h
      omega

theorem nodeCells_lt {k : Nat} {n : Node} {c : Nat × Word} (h : c ∈ nodeCells k n) : c.1 < 8 * k + 5 := by
  simp only [nodeCells, List.mem_cons, List.not_mem_nil, or_false] at h
  rcases h with rfl | rfl | rfl | rfl | rfl <;> simp

/-- A word of entry `k + j` of a written arena. -/
theorem Buf.get_putAll_arena {l : List Node} {k j : Nat} (hj : j < l.length) (b : Buf Word) {x : Nat} {v : Word}
    (hm : (x, v) ∈ nodeCells (k + j) l[j]) (free : Word) : (b.putAll (arenaCells k l)).get x free = v := by
  induction l generalizing k j b with
  | nil => simp at hj
  | cons n l ih =>
    have happ : b.putAll (arenaCells k (n :: l)) = (b.putAll (nodeCells k n)).putAll (arenaCells (k + 1) l) := by
      simp [Buf.putAll, arenaCells, List.foldl_append]
    rw [happ]
    cases j with
    | zero =>
      simp only [Nat.add_zero, List.getElem_cons_zero] at hm
      rw [Buf.get_putAll_of_not_mem fun p hp he => by have := arenaCells_lt hp; have := nodeCells_lt hm; omega]
      refine Buf.get_putAll_of_mem hm (fun w hw => ?_) free
      simp only [nodeCells, List.mem_cons, Prod.mk.injEq, List.not_mem_nil, or_false] at hm hw
      rcases hm with ⟨rfl, rfl⟩ | ⟨rfl, rfl⟩ | ⟨rfl, rfl⟩ | ⟨rfl, rfl⟩ | ⟨rfl, rfl⟩ <;>
        rcases hw with ⟨h, rfl⟩ | ⟨h, rfl⟩ | ⟨h, rfl⟩ | ⟨h, rfl⟩ | ⟨h, rfl⟩ <;> first | rfl | omega
    | succ j =>
      refine ih (k := k + 1) (j := j) (by simpa using hj) _ ?_
      simpa [Nat.add_assoc, Nat.add_comm 1 j] using hm

/-- BUILD's arena, read back: entry `k` of the arena it made, when NODE has it (42_tree_builder.md R155). -/
theorem State.nodeAt_writeBuild {l : List Node} {k : Nat} (hk : k < l.length) (hm : k < s.cfg.maxNodes) :
    (s.writeBuild l).nodeAt k = l[k] := by
  have hk' : k < (l.take s.cfg.maxNodes).length := by simp [hk, hm]
  have hg : (l.take s.cfg.maxNodes)[k] = l[k] := by simp
  have hw : ∀ x v, (x, v) ∈ nodeCells k l[k] → (s.writeBuild l).nodeWord x = v := fun x v hv => by
    simp only [State.nodeWord, State.writeBuild_node]
    exact Buf.get_putAll_arena hk' s.node (by rw [Nat.zero_add, hg]; exact hv) _
  simp only [State.nodeAt, hw (8 * k) (if l[k].leaf then 1 else 0) (by simp [nodeCells]),
    hw (8 * k + 1) l[k].sym (by simp [nodeCells]), hw (8 * k + 2) l[k].weight (by simp [nodeCells]),
    hw (8 * k + 3) l[k].left (by simp [nodeCells]), hw (8 * k + 4) l[k].right (by simp [nodeCells])]
  cases h : l[k] with
  | mk leaf sym weight left right => cases leaf <;> simp

/-- BUILD leaves the words of the arena entries from the end of its tree on (42_tree_builder.md R155). -/
theorem State.nodeWord_writeBuild_of_ge {l : List Node} {x : Nat} (hx : 8 * l.length ≤ x) :
    (s.writeBuild l).nodeWord x = s.nodeWord x := by
  simp only [State.nodeWord, State.writeBuild_node, Buf.putAll_epoch, State.writeBuild_cfg]
  refine Buf.get_putAll_of_not_mem (fun p hp he => ?_) _
  have aux : ∀ (l : List Node) (k : Nat), ∀ p ∈ arenaCells k l, p.1 < 8 * (k + l.length) := by
    intro l
    induction l with
    | nil => simp [arenaCells]
    | cons n l ih =>
      intro k p hp
      rcases List.mem_append.1 hp with hp | hp
      · have := nodeCells_lt hp
        simp only [List.length_cons]; omega
      · have := ih (k + 1) p hp
        simp only [List.length_cons]; omega
  have := aux _ 0 p hp
  have := List.length_take_le' s.cfg.maxNodes l
  omega

end Sys2Proof.Machine
end

