-- ==== Sys2Proof/Laws/PerInstr.lean ====
section
/-! SUPPORT. Per command: its word is well-formed, decodes to it, and is the only word that does (30_encoding.md R90 to
R92). -/

namespace Sys2Proof.Laws

/-- A word is its reserved field above its opcode. -/
theorem word_eq_fields (w : Word) : w = (fieldsOf w).rsvd ++ (fieldsOf w).opcode := by
  apply BitVec.eq_of_getLsbD_eq
  intro i hi
  simp only [fieldsOf, BitVec.getLsbD_append, BitVec.getLsbD_extractLsb']
  by_cases h : i < 8
  · simp [h]
  · simp [h, show i - 8 < 24 by omega, show 8 + (i - 8) = i by omega]

/-- The only opcode that selects a command is the command's. -/
theorem decodeOpcode_eq_some {b : Byte} {i : Instr} (h : decodeOpcode b = some i) : b = opcodeOf i := by
  revert h
  revert i
  revert b
  decide

/-- The only word that decodes to a command is its encoding. -/
theorem eq_encode_of_decode {w : Word} {i : Instr} (h : decode w = .ok i) : w = encode i := by
  unfold decode at h
  split at h
  · rename_i hr
    split at h
    · rename_i j hj
      cases h
      rw [word_eq_fields w, hr, decodeOpcode_eq_some hj]
      rfl
    · cases h
  · cases h

/-- What is said of each command's encoding. -/
def Encoding.Statement (i : Instr) : Prop :=
  i.wellFormed = true ∧ (fieldsOf (encode i)).wellFormed = true ∧ decode (encode i) = .ok i ∧
    ∀ w, decode w = .ok i → w = encode i

theorem Encoding.freq : Encoding.Statement .freq := ⟨by decide, by decide, by decide, fun _ => eq_encode_of_decode⟩
theorem Encoding.build : Encoding.Statement .build := ⟨by decide, by decide, by decide, fun _ => eq_encode_of_decode⟩
theorem Encoding.gen : Encoding.Statement .gen := ⟨by decide, by decide, by decide, fun _ => eq_encode_of_decode⟩
theorem Encoding.encode : Encoding.Statement .encode := ⟨by decide, by decide, by decide, fun _ => eq_encode_of_decode⟩
theorem Encoding.pack : Encoding.Statement .pack := ⟨by decide, by decide, by decide, fun _ => eq_encode_of_decode⟩
theorem Encoding.unpack : Encoding.Statement .unpack := ⟨by decide, by decide, by decide, fun _ => eq_encode_of_decode⟩
theorem Encoding.decode : Encoding.Statement .decode := ⟨by decide, by decide, by decide, fun _ => eq_encode_of_decode⟩
theorem Encoding.compress : Encoding.Statement .compress :=
  ⟨by decide, by decide, by decide, fun _ => eq_encode_of_decode⟩
theorem Encoding.decompress : Encoding.Statement .decompress :=
  ⟨by decide, by decide, by decide, fun _ => eq_encode_of_decode⟩
theorem Encoding.clear : Encoding.Statement .clear := ⟨by decide, by decide, by decide, fun _ => eq_encode_of_decode⟩

end Sys2Proof.Laws
end

