-- ==== Sys2Proof/Laws/Stages.lean ====
section
/-! SUPPORT. What each stage, a command's end and a step can do, said once: a stage finishes with its writes or raises with
its outputs unspecified; a command ends in one of two ways; a step is one of five things. -/

namespace Sys2Proof.Machine

/-! ## Stages -/

/-- The stage FREQ either finishes with its writes or raises with its outputs unspecified. -/
theorem stageFreq_cases (s : State) :
    (∃ l, s.freqResult = .ok l ∧ stageFreq s = .ok ((s.enter .freq).writeFreq l)) ∨
    (∃ r, s.freqResult = .error r ∧ stageFreq s = .raised (s.enter .freq).spoilFreq r) := by
  unfold stageFreq
  cases h : s.freqResult with
  | ok l => exact .inl ⟨l, rfl, rfl⟩
  | error r => exact .inr ⟨r, rfl, rfl⟩

theorem stageFreq_ok {s : State} {l} (h : s.freqResult = .ok l) : stageFreq s = .ok ((s.enter .freq).writeFreq l) := by
  simp only [stageFreq, h]

theorem stageFreq_error {s : State} {r} (h : s.freqResult = .error r) :
    stageFreq s = .raised (s.enter .freq).spoilFreq r := by
  simp only [stageFreq, h]

/-- The stage GEN either finishes with its writes or raises with its outputs unspecified. -/
theorem stageGen_cases (s : State) :
    (∃ l, s.genResult = .ok l ∧ stageGen s = .ok ((s.enter .gen).writeGen l)) ∨
    (∃ r, s.genResult = .error r ∧ stageGen s = .raised (s.enter .gen).spoilGen r) := by
  unfold stageGen
  cases h : s.genResult with
  | ok l => exact .inl ⟨l, rfl, rfl⟩
  | error r => exact .inr ⟨r, rfl, rfl⟩

theorem stageGen_ok {s : State} {l} (h : s.genResult = .ok l) : stageGen s = .ok ((s.enter .gen).writeGen l) := by
  simp only [stageGen, h]

theorem stageGen_error {s : State} {r} (h : s.genResult = .error r) :
    stageGen s = .raised (s.enter .gen).spoilGen r := by
  simp only [stageGen, h]

/-- The stage ENCODE either finishes with its writes or raises with its outputs unspecified. -/
theorem stageEncode_cases (s : State) :
    (∃ l, s.encodeResult = .ok l ∧ stageEncode s = .ok ((s.enter .encode).writeEncode l)) ∨
    (∃ r, s.encodeResult = .error r ∧ stageEncode s = .raised (s.enter .encode).spoilEncode r) := by
  unfold stageEncode
  cases h : s.encodeResult with
  | ok l => exact .inl ⟨l, rfl, rfl⟩
  | error r => exact .inr ⟨r, rfl, rfl⟩

theorem stageEncode_ok {s : State} {l} (h : s.encodeResult = .ok l) : stageEncode s = .ok ((s.enter .encode).writeEncode l) := by
  simp only [stageEncode, h]

theorem stageEncode_error {s : State} {r} (h : s.encodeResult = .error r) :
    stageEncode s = .raised (s.enter .encode).spoilEncode r := by
  simp only [stageEncode, h]

/-- The stage DECODE either finishes with its writes or raises with its outputs unspecified. -/
theorem stageDecode_cases (s : State) :
    (∃ l, s.decodeResult = .ok l ∧ stageDecode s = .ok ((s.enter .decode).writeDecode l)) ∨
    (∃ r, s.decodeResult = .error r ∧ stageDecode s = .raised (s.enter .decode).spoilDecode r) := by
  unfold stageDecode
  cases h : s.decodeResult with
  | ok l => exact .inl ⟨l, rfl, rfl⟩
  | error r => exact .inr ⟨r, rfl, rfl⟩

theorem stageDecode_ok {s : State} {l} (h : s.decodeResult = .ok l) : stageDecode s = .ok ((s.enter .decode).writeDecode l) := by
  simp only [stageDecode, h]

theorem stageDecode_error {s : State} {r} (h : s.decodeResult = .error r) :
    stageDecode s = .raised (s.enter .decode).spoilDecode r := by
  simp only [stageDecode, h]

/-- The stage UNPACK either finishes with its writes or raises with its outputs unspecified. -/
theorem stageUnpack_cases (s : State) :
    (∃ l, s.unpackResult = .ok l ∧ stageUnpack s = .ok ((s.enter .unpack).writeUnpack l)) ∨
    (∃ r, s.unpackResult = .error r ∧ stageUnpack s = .raised (s.enter .unpack).spoilUnpack r) := by
  unfold stageUnpack
  cases h : s.unpackResult with
  | ok l => exact .inl ⟨l, rfl, rfl⟩
  | error r => exact .inr ⟨r, rfl, rfl⟩

theorem stageUnpack_ok {s : State} {l} (h : s.unpackResult = .ok l) : stageUnpack s = .ok ((s.enter .unpack).writeUnpack l) := by
  simp only [stageUnpack, h]

theorem stageUnpack_error {s : State} {r} (h : s.unpackResult = .error r) :
    stageUnpack s = .raised (s.enter .unpack).spoilUnpack r := by
  simp only [stageUnpack, h]

/-- The stage BUILD raises EmptyTable exactly when FT_CNT = 0. -/
theorem stageBuild_cases (s : State) :
    (s.ftCnt ≠ 0 ∧ stageBuild s = .ok ((s.enter .build).writeBuild s.buildResult)) ∨
    (s.ftCnt = 0 ∧ stageBuild s = .raised (s.enter .build).spoilBuild ⟨.emptyTable, 0⟩) := by
  unfold stageBuild
  by_cases h : s.ftCnt = 0
  · exact .inr ⟨h, if_pos h⟩
  · exact .inl ⟨h, if_neg h⟩

/-- The stage PACK raises CapacityExceeded(0) exactly when BIT_LEN > MAX_BITS. -/
theorem stagePack_cases (s : State) :
    (s.bitLen.toNat ≤ s.cfg.maxBits ∧
      stagePack s = .ok ((s.enter .pack).writePack (packPayload s.bitSeq) (padCount s.bitLen.toNat))) ∨
    (s.cfg.maxBits < s.bitLen.toNat ∧ stagePack s = .raised (s.enter .pack).spoilPack capacityExceeded) := by
  unfold stagePack State.packResult
  by_cases h : s.cfg.maxBits < s.bitLen.toNat
  · exact .inr ⟨h, by simp only [if_pos h]⟩
  · exact .inl ⟨Nat.not_lt.1 h, by simp only [if_neg h]⟩

/-- The stage STATS writes the empty result or the statistics. -/
theorem stageStats_cases (s : State) :
    (s.ftCnt = 0 ∧ stageStats s = .ok (s.enter .stats).writeEmptyResult) ∨
    (s.ftCnt ≠ 0 ∧ stageStats s = .ok (s.enter .stats).writeStats) := by
  unfold stageStats
  by_cases h : s.ftCnt = 0
  · exact .inl ⟨h, if_pos h⟩
  · exact .inr ⟨h, if_neg h⟩

/-- The walk of GEN never runs out of levels: above the handle it starts from, the number of levels does not matter. -/
theorem walk_fuel (nodes : Nat → Node) (maxNodes : Nat) {k f f' : Nat} (h : k < f) (h' : k < f') (path : List Bool)
    (ct : List CodeRow) : walk nodes maxNodes f k path ct = walk nodes maxNodes f' k path ct := by
  induction f generalizing k f' path ct with
  | zero => omega
  | succ f ih =>
    obtain ⟨f', rfl⟩ : ∃ g, f' = g + 1 := ⟨f' - 1, by omega⟩
    have side : ∀ c : Word, ¬ k ≤ c.toNat → ∀ path ct,
        walk nodes maxNodes f c.toNat path ct = walk nodes maxNodes f' c.toNat path ct :=
      fun c hc path ct => ih (by omega) (by omega) path ct
    have left : (if (nodes k).left = noneHandle then Except.ok ct
          else if k ≤ (nodes k).left.toNat then .error ⟨.badTree, BitVec.ofNat 32 k⟩
          else walk nodes maxNodes f (nodes k).left.toNat (path ++ [false]) ct) =
        (if (nodes k).left = noneHandle then Except.ok ct
          else if k ≤ (nodes k).left.toNat then .error ⟨.badTree, BitVec.ofNat 32 k⟩
          else walk nodes maxNodes f' (nodes k).left.toNat (path ++ [false]) ct) := by
      split
      · rfl
      · split
        · rfl
        · exact side _ ‹_› _ _
    simp only [walk, left]
    split
    · rfl
    · split
      · rfl
      · split
        · rfl
        · split
          · rfl
          · exact side _ ‹_› _ _

/-! ## The end of a command -/

theorem State.endedOk_commandEnd (s : State) : s.commandEnd.EndedOk := ⟨rfl, rfl, rfl, rfl, rfl, rfl⟩

theorem State.endedWith_errorEntry (s : State) (r : Raise) : (s.errorEntry r).EndedWith r.kind r.info :=
  ⟨rfl, rfl, rfl, rfl, rfl, rfl⟩

/-- An error's code is never 0. -/
theorem ErrKind.code_ne_zero (k : ErrKind) : k.code ≠ 0 := by cases k <;> decide

/-- A command ends in one of two ways. -/
theorem Run.finish_cases (r : Run) :
    (∃ s, r = .ok s ∧ r.finish = s.commandEnd) ∨ (∃ s e, r = .raised s e ∧ r.finish = s.errorEntry e) := by
  cases r with
  | ok s => exact .inl ⟨s, rfl, rfl⟩
  | raised s e => exact .inr ⟨s, e, rfl, rfl⟩

/-- Every command answers a next state, the end of its run. -/
theorem exec_eq_finish (i : Instr) (s : State) : ∃ r : Run, exec i s = .next r.finish := by
  cases i with
  | freq => exact ⟨stageFreq s, rfl⟩
  | build => exact ⟨stageBuild s, rfl⟩
  | gen => exact ⟨stageGen s, rfl⟩
  | encode => exact ⟨stageEncode s, rfl⟩
  | pack => exact ⟨stagePack s, rfl⟩
  | unpack => exact ⟨stageUnpack s, rfl⟩
  | decode => exact ⟨stageDecode s, rfl⟩
  | compress => exact ⟨compressRun s, rfl⟩
  | decompress => exact ⟨decompressRun s, rfl⟩
  | clear => exact ⟨stageClear s, rfl⟩

/-- A run of two parts: the second is reached exactly when the first finishes. -/
theorem Run.andThen_cases (r : Run) (f : State → Run) :
    (∃ s, r = .ok s ∧ r.andThen f = f s) ∨ (∃ s e, r = .raised s e ∧ r.andThen f = .raised s e) := by
  cases r with
  | ok s => exact .inl ⟨s, rfl, rfl⟩
  | raised s e => exact .inr ⟨s, e, rfl, rfl⟩

/-! ## A step -/

/-- Everything a step can do: hold, serve an event while idle, serve one while busy, or end the running command. -/
theorem step_cases (s : State) :
    (s.running = none ∧ s.port = [] ∧ step s = .next s) ∨
    (∃ e rest, s.running = none ∧ s.port = e :: rest ∧ step s = .next (State.serve { s with port := rest } e)) ∨
    (∃ w e rest n, s.running = some w ∧ s.port = e :: rest ∧ s.busyLeft = n + 1 ∧
      step s = .next (State.serveBusy { s with port := rest, busyLeft := n } e)) ∨
    (∃ w i, s.running = some w ∧ (s.port = [] ∨ s.busyLeft = 0) ∧ decode w = .ok i ∧ step s = exec i s) ∨
    (∃ w r, s.running = some w ∧ (s.port = [] ∨ s.busyLeft = 0) ∧ decode w = .error r ∧
      step s = .next (s.illegalCommand w)) := by
  have run : ∀ w, s.running = some w → (s.port = [] ∨ s.busyLeft = 0) → step s = runWord w s := by
    intro w hw hp
    unfold step advance
    rcases hp with hp | hb
    · rw [hw, hp]
    · cases hp : s.port with
      | nil => rw [hw]
      | cons e rest => simp only [hw, hb]
  have ends : ∀ w, s.running = some w → (s.port = [] ∨ s.busyLeft = 0) →
      (∃ w i, s.running = some w ∧ (s.port = [] ∨ s.busyLeft = 0) ∧ decode w = .ok i ∧ step s = exec i s) ∨
      (∃ w r, s.running = some w ∧ (s.port = [] ∨ s.busyLeft = 0) ∧ decode w = .error r ∧
        step s = .next (s.illegalCommand w)) := by
    intro w hw hp
    have hr := run w hw hp
    unfold runWord at hr
    cases hd : decode w with
    | ok i => rw [hd] at hr; exact .inl ⟨w, i, hw, hp, hd, hr⟩
    | error r => rw [hd] at hr; exact .inr ⟨w, r, hw, hp, hd, hr⟩
  have hport : s.port = [] ∨ ∃ e rest, s.port = e :: rest := by cases s.port <;> simp
  have hrun : s.running = none ∨ ∃ w, s.running = some w := by cases s.running <;> simp
  have hbusy : s.busyLeft = 0 ∨ ∃ n, s.busyLeft = n + 1 := by cases s.busyLeft <;> simp
  rcases hrun with hw | ⟨w, hw⟩
  · rcases hport with hp | ⟨e, rest, hp⟩
    · exact .inl ⟨hw, hp, by simp only [step, advance, hw, hp]⟩
    · exact .inr (.inl ⟨e, rest, hw, hp, by simp only [step, advance, hw, hp]⟩)
  · rcases hport with hp | ⟨e, rest, hp⟩
    · exact .inr (.inr (.inr (ends w hw (.inl hp))))
    · rcases hbusy with hb | ⟨n, hb⟩
      · exact .inr (.inr (.inr (ends w hw (.inr hb))))
      · exact .inr (.inr (.inl ⟨w, e, rest, n, hw, hp, hb, by simp only [step, advance, hw, hp, hb]⟩))

end Sys2Proof.Machine
end

