-- ==== Sys2Proof/Tests/Slice0.lean ====
section
/-! SUPPORT. The model's own tests: the checks of WellFormed refuse ill-formed terms, words written out from 30_encoding.md
R90 and R91 decode, one step of each command on the worked examples of files 41 to 47, and for every statement with
hypotheses a witness that meets them. -/

namespace Sys2Proof.Tests

open Sys2Proof Sys2Proof.Machine

set_option Elab.async false

/-! ## Small states -/

/-- A small legal configuration: MAX_TXT 16, MAX_SYMS 4 (MAX_NODES 8), MAX_BITS 64, MAX_PAY 12. -/
def small : Params := ⟨8, 16, 4, 64, 12⟩

/-- The smallest configuration with room for two symbols (MAX_NODES 4). -/
def tiny : Params := ⟨8, 16, 2, 8, 4⟩

/-- The state after reset in the small configuration. -/
def idle : State := { State.reset with cfg := small }

/-- A text written by the host. -/
def withText (l : List Symbol) : State := { idle with txt := Buf.full l 0, txtLen := BitVec.ofNat 32 l.length }

/-- The text "aaaabbbcc" of the examples. -/
def example9 : List Symbol := [0x61, 0x61, 0x61, 0x61, 0x62, 0x62, 0x62, 0x63, 0x63]

/-- A leaf and an internal node as the host writes them (30_encoding.md R105). -/
def leaf (x : Symbol) : Node := ⟨true, x, 0, noneHandle, noneHandle⟩
def inode (l r : Word) : Node := ⟨false, 0, 0, l, r⟩

/-- A tree written by the host, its last entry the root. -/
def withTree (l : List Node) (s : State) : State :=
  { s with node := (Buf.unspec 0).putAll (arenaCells 0 l), nodeCnt := BitVec.ofNat 32 l.length,
           root := BitVec.ofNat 32 (l.length - 1) }

/-- A bit sequence and a payload written by the host. -/
def withBits (l : List Bool) (s : State) : State := { s with bits := Buf.full l 0, bitLen := BitVec.ofNat 32 l.length }
def withPay (l : List Byte) (s : State) : State := { s with pay := Buf.full l 0, payLen := BitVec.ofNat 32 l.length }

/-- A frequency table and a code table as FREQ and GEN leave them. -/
def withTable (l : List FtEntry) (s : State) : State := { s with ft := Buf.full l 0, ftCnt := BitVec.ofNat 32 l.length }
def withCodes (l : List CodeRow) (s : State) : State := s.writeGen l

/-- The state a command leads to. -/
def after (i : Instr) (s : State) : State :=
  match exec i s with
  | .next t => t
  | _ => s

theorem exec_after (i : Instr) (s : State) : exec i s = .next (after i s) := by cases i <;> rfl

/-- The tree of "aaaabbbcc" (42_tree_builder.md R155, example). -/
def tree9 : List Node := [leaf 0x61, leaf 0x62, leaf 0x63, inode 2 1, inode 0 3]

/-- The bits of "aaaabbbcc" (44_encoder.md R181, example): "00001111111010". -/
def bits9 : List Bool :=
  [false, false, false, false, true, true, true, true, true, true, true, false, true, false]

/-- The code table of "aaaabbbcc" (43_code_table_generator.md R172, example). -/
def codes9 : List CodeRow := [⟨0x61, [false]⟩, ⟨0x63, [true, false]⟩, ⟨0x62, [true, true]⟩]

/-- The payload "D+g=" (46_bit_packer.md R201, example). -/
def pay9 : List Byte := [0x44, 0x2B, 0x67, 0x3D]

/-! ## WellFormed refuses ill-formed terms -/

theorem test_fields_reserved_bits : CmdFields.wellFormed ⟨1, 1⟩ = false := by decide
theorem test_fields_opcode_zero : CmdFields.wellFormed ⟨0, 0x00⟩ = false := by decide
theorem test_fields_opcode_gap : CmdFields.wellFormed ⟨0, 0x0A⟩ = false ∧ CmdFields.wellFormed ⟨0, 0x0E⟩ = false := by decide
theorem test_fields_opcode_high : CmdFields.wellFormed ⟨0, 0x10⟩ = false ∧ CmdFields.wellFormed ⟨0, 0xFF⟩ = false := by decide
theorem test_fields_legal : CmdFields.wellFormed ⟨0, 0x09⟩ = true ∧ CmdFields.wellFormed ⟨0, 0x0F⟩ = true := by decide
theorem test_params_legal : small.Valid ∧ tiny.Valid ∧ Params.ref.Valid := by decide
theorem test_params_sym_width : ¬ Params.Valid { small with symW := 0, maxSyms := 1 } ∧ ¬ Params.Valid { small with symW := 33 } := by
  decide
theorem test_params_text : ¬ Params.Valid { small with maxTxt := 0 } ∧ ¬ Params.Valid { small with maxTxt := 2 ^ 29 } := by decide
theorem test_params_symbols : ¬ Params.Valid { small with maxSyms := 0 } ∧ ¬ Params.Valid { small with maxSyms := 257 } ∧
    ¬ Params.Valid { small with symW := 32, maxSyms := 2 ^ 30 + 1 } := by decide
theorem test_params_bits : ¬ Params.Valid { small with maxBits := 0 } ∧
    ¬ Params.Valid { small with maxBits := 2 ^ 32, maxPay := 2 ^ 32 - 1 } := by decide
theorem test_params_payload : ¬ Params.Valid { small with maxPay := 11 } ∧ ¬ Params.Valid { small with maxPay := 2 ^ 32 } := by decide

/-! ## Decoding: words written out from the format (R90) and the opcode map (R91) -/

theorem test_word_freq : decode 0b00000000000000000000000000000001#32 = .ok .freq := by decide
theorem test_word_build : decode 0b00000000000000000000000000000010#32 = .ok .build := by decide
theorem test_word_gen : decode 0b00000000000000000000000000000011#32 = .ok .gen := by decide
theorem test_word_encode : decode 0b00000000000000000000000000000100#32 = .ok .encode := by decide
theorem test_word_pack : decode 0b00000000000000000000000000000101#32 = .ok .pack := by decide
theorem test_word_unpack : decode 0b00000000000000000000000000000110#32 = .ok .unpack := by decide
theorem test_word_decode : decode 0b00000000000000000000000000000111#32 = .ok .decode := by decide
theorem test_word_compress : decode 0b00000000000000000000000000001000#32 = .ok .compress := by decide
theorem test_word_decompress : decode 0b00000000000000000000000000001001#32 = .ok .decompress := by decide
theorem test_word_clear : decode 0b00000000000000000000000000001111#32 = .ok .clear := by decide
theorem test_word_undefined : decode 0#32 = .error .undefinedOpcode ∧ decode 0x0A#32 = .error .undefinedOpcode ∧
    decode 0x0E#32 = .error .undefinedOpcode ∧ decode 0x10#32 = .error .undefinedOpcode := by decide
theorem test_word_reserved : decode 0x00000101#32 = .error .reservedBits ∧ decode 0x80000001#32 = .error .reservedBits := by decide
theorem test_table_word : decodeTableWord 32 9 = some .decompress ∧ decodeTableWord 32 10 = none ∧
    decodeTableWord 8 0x101 = some .freq ∧ decodeTableWord 40 (2 ^ 32 + 1) = none := by decide

/-! ## FREQ (41_frequency_analyzer.md R141: the example; one symbol too many) -/

theorem test_freq_example : (after .freq (withText example9)).freqTable = [⟨0x61, 4⟩, ⟨0x62, 3⟩, ⟨0x63, 2⟩] ∧
    (after .freq (withText example9)).status = 2 := by decide +kernel
theorem test_freq_full : (after .freq (withText [1, 2, 3, 4, 5])).status = 6 ∧
    (after .freq (withText [1, 2, 3, 4, 5])).err = 6 ∧ (after .freq (withText [1, 2, 3, 4])).ftCnt = 4 := by decide +kernel

/-! ## BUILD (42_tree_builder.md R155: the example; R154: one symbol) -/

theorem test_build_example :
    (after .build (withTable [⟨0x61, 4⟩, ⟨0x62, 3⟩, ⟨0x63, 2⟩] idle)).nodeAt 3 = ⟨false, 0, 5, 2, 1⟩ ∧
    (after .build (withTable [⟨0x61, 4⟩, ⟨0x62, 3⟩, ⟨0x63, 2⟩] idle)).nodeAt 4 = ⟨false, 0, 9, 0, 3⟩ ∧
    (after .build (withTable [⟨0x61, 4⟩, ⟨0x62, 3⟩, ⟨0x63, 2⟩] idle)).root = 4 := by decide +kernel
theorem test_build_single : (after .build (withTable [⟨0x61, 4⟩] idle)).nodeAt 1 = ⟨false, 0, 4, 0, noneHandle⟩ ∧
    (after .build (withTable [⟨0x61, 4⟩] idle)).nodeCnt = 2 := by decide +kernel

/-! ## GEN (43_code_table_generator.md R172: the example; R171: a leaf root) -/

theorem test_gen_example : (after .gen (withTree tree9 idle)).codeTable = codes9 := by decide +kernel
theorem test_gen_leaf_root : (after .gen (withTree [leaf 7] idle)).codeTable = [⟨7, [false]⟩] := by decide +kernel

/-! ## ENCODE (44_encoder.md R181: the example; MissingCode at the first symbol without a code) -/

theorem test_encode_example : (after .encode (withCodes codes9 (withText example9))).bitSeq = bits9 := by decide +kernel
theorem test_encode_missing : (after .encode (withCodes codes9 (withText [0x61, 0x64]))).err = 3 ∧
    (after .encode (withCodes codes9 (withText [0x61, 0x64]))).errInfo = 1 := by decide +kernel

/-! ## PACK and UNPACK (46_bit_packer.md R201, R203: the examples; 30_encoding.md R99: unused bits must be zero) -/

theorem test_pack_example : (after .pack (withBits bits9 idle)).payload = pay9 ∧
    (after .pack (withBits bits9 idle)).pad = 2 := by decide +kernel
theorem test_pack_empty : (after .pack idle).payLen = 0 ∧ (after .pack idle).pad = 0 ∧ (after .pack idle).status = 2 := by
  decide +kernel
theorem test_unpack_example : (after .unpack { withPay pay9 idle with bitLen := 14 }).bitSeq = bits9 := by decide +kernel
theorem test_unpack_unused_bits : (after .unpack { withPay [0x44, 0x2B, 0x6B, 0x3D] idle with bitLen := 14 }).err = 0 ∧
    (after .unpack { withPay [0x44, 0x2B, 0x68, 0x3D] idle with bitLen := 14 }).err = 2 := by decide +kernel

/-! ## DECODE (45_decoder.md R191: the example; R193: a bit 1 at the synthetic root) -/

theorem test_decode_example : (after .decode (withBits bits9 (withTree tree9 idle))).text = example9 := by decide +kernel
theorem test_decode_absent_child :
    (after .decode (withBits [false, true] (withTree [leaf 0x61, inode 0 noneHandle] idle))).err = 1 ∧
    (after .decode (withBits [false, true] (withTree [leaf 0x61, inode 0 noneHandle] idle))).errInfo = 1 := by decide +kernel

/-! ## COMPRESS, DECOMPRESS, CLEAR (47_facade.md R220, R223, R225: the examples) -/

theorem test_compress_payload : (after .compress (withText example9)).payload = pay9 ∧
    (after .compress (withText example9)).codeTable = codes9 ∧ (after .compress (withText example9)).bitLen = 14 := by decide +kernel
theorem test_compress_statistics : (after .compress (withText example9)).origBits = 72 ∧
    (after .compress (withText example9)).ratio = 0x3FC8E38E38E38E39#64 ∧
    (after .compress (withText example9)).savings = 0x4054238E38E38E39#64 := by decide +kernel
theorem test_decompress_example :
    (after .decompress { withPay pay9 (withTree tree9 idle) with bitLen := 14 }).text = example9 := by decide +kernel
theorem test_decompress_orig_bits :
    (after .decompress { withPay pay9 (withTree tree9 idle) with bitLen := 32 }).err = 7 ∧
    (after .decompress { withPay pay9 (withTree tree9 idle) with bitLen := 32 }).errInfo = 16 := by decide +kernel
theorem test_clear : (after .clear (withBits bits9 (withTree tree9 idle))).root = noneHandle ∧
    (after .clear (withBits bits9 (withTree tree9 idle))).bitLen = 0 ∧
    (after .clear (withBits bits9 (withTree tree9 idle))).status = 2 ∧
    (after .clear (withBits bits9 (withTree tree9 idle))).bitAt 4 = true := by decide +kernel

/-! ## The host port (20_memory.md R63, R69, R70) -/

theorem test_port_narrow : (idle.memWrite 1 15 0x161).memRead 1 15 = 0x61 ∧ (idle.memWrite 7 0 0x144).memRead 7 0 = 0x44 := by
  decide +kernel
theorem test_port_bits_word : (idle.memWrite 6 0 0x0FE80000).bitAt 4 = true ∧ (idle.memWrite 6 0 0x0FE80000).bitAt 3 = false ∧
    (idle.memWrite 6 1 1).bitAt 63 = true := by decide +kernel
theorem test_port_code_word : (withCodes [⟨1, [true, true, false]⟩] idle).memRead 5 0 = 0xC0000000 := by decide +kernel

/-! ## Witnesses: for every statement with hypotheses, a state and operands that meet them all -/

/-- An idle state with one host event pending. -/
def pending (e : HostEvent) : State := { idle with port := [e] }

/-- A state in which FREQ has been accepted, with one host event to serve first. -/
def busyWith (e : HostEvent) : State :=
  { idle with status := 1, phase := .freq, work := .freq 0, running := some 1, busyLeft := 1, port := [e] }

theorem witness_control_idle (e : HostEvent) : ControlOk (pending e) where
  idle := fun _ => ⟨rfl, rfl, rfl, .inl rfl⟩
  busy := fun _ h => by cases h
  errf := (by decide : (0 : Word) = statusError ↔ (0 : Byte) ≠ 0)
  info := fun _ => rfl
  code := (by decide : (0 : Byte).toNat ≤ 8)

theorem witness_control_busy (e : HostEvent) : ControlOk (busyWith e) where
  idle := fun h => by cases h
  busy := fun w h => by cases h; exact ⟨rfl, .freq, by decide, rfl, rfl⟩
  errf := (by decide : (1 : Word) = statusError ↔ (0 : Byte) ≠ 0)
  info := fun _ => rfl
  code := (by decide : (0 : Byte).toNat ≤ 8)

/-! ### The step and the port -/

theorem witness_StepRunsTheAcceptedCommand :
    (idle.loadWord 1).running = some 1 ∧ decode 1#32 = .ok .freq ∧ (idle.loadWord 1).port = [] ∧
    ({ busyWith .reset with busyLeft := 0 } : State).running = some 1 ∧
    ({ busyWith .reset with busyLeft := 0 } : State).busyLeft = 0 := ⟨rfl, by decide, rfl, rfl, rfl⟩

theorem witness_PlacedWordRunsNext : decodeTableWord 32 1 = some .freq ∧ decodeTableWord 4 15 = some .clear := by decide

theorem witness_CommandWordIsAcceptedWhenIdle :
    (pending (.write 0 0 15)).running = none ∧ (pending (.write 0 0 15)).port = .write 0 0 15 :: [] ∧
    decode 15#32 = .ok .clear ∧
    (busyWith (.write 0 0 8)).running = some 1 ∧ (busyWith (.write 0 0 8)).port = .write 0 0 8 :: [] ∧
    (busyWith (.write 0 0 8)).busyLeft = 0 + 1 := ⟨rfl, rfl, by decide, rfl, rfl, rfl⟩

/-- At the ends of the ranges of illegal words. -/
theorem witness_IllegalWordEndsWithIllegalCommand (w : Word) (h : w ∈ [0#32, 10, 14, 16, 0x101, 0xFFFFFFFF]) :
    ControlOk (pending (.write 0 0 w)) ∧ (pending (.write 0 0 w)).running = none ∧
    (pending (.write 0 0 w)).port = .write 0 0 w :: [] ∧ ¬ (1 ≤ w.toNat ∧ w.toNat ≤ 9) ∧ w.toNat ≠ 15 := by
  refine ⟨witness_control_idle _, rfl, rfl, ?_⟩
  simp only [List.mem_cons, List.not_mem_nil, or_false] at h
  rcases h with rfl | rfl | rfl | rfl | rfl | rfl <;> decide

/-- A read of STATUS, another read, and a write. -/
theorem witness_HostIsLockedOutWhileBusy (e : HostEvent) (h : e ∈ [.read 0 1, .read 1 0, .write 1 0 5]) :
    ControlOk (busyWith e) ∧ (busyWith e).running = some 1 ∧ (busyWith e).port = e :: [] ∧
    (busyWith e).busyLeft = 0 + 1 ∧ e ≠ .reset := by
  refine ⟨witness_control_busy e, rfl, rfl, rfl, ?_⟩
  rintro rfl
  simp at h

theorem witness_EveryStepGoesOn : idle.running = none ∧ idle.port = [] := ⟨rfl, rfl⟩

theorem witness_EveryAcceptedCommandEnds :
    (busyWith (.read 0 1)).running = some 1 ∧ ∀ e ∈ (busyWith (.read 0 1)).port, e ≠ .reset := by decide

theorem witness_ResetEventFromAnyState :
    (pending .reset).port = .reset :: [] ∧ (pending .reset).running = none ∧
    (busyWith .reset).port = .reset :: [] ∧ (busyWith .reset).busyLeft ≠ 0 := by decide

theorem witness_HostReadHasNoSideEffect :
    (pending (.read 15 0xFFFFFFFF)).running = none ∧ (pending (.read 15 0xFFFFFFFF)).port = .read 15 0xFFFFFFFF :: [] :=
  ⟨rfl, rfl⟩

/-- What a read returns: the last word of each space. -/
theorem witness_HostReadHasNoSideEffect_words :
    (15#32).toNat < small.maxTxt ∧ (7#32).toNat < 2 * small.maxSyms ∧ (15#32).toNat < 2 * small.maxNodes ∧
    (7#32).toNat < small.codeWords * small.maxNodes ∧ (1#32).toNat < (small.maxBits + 31) / 32 ∧
    (11#32).toNat < small.maxPay := by decide

/-- The last field of the last NODE entry, in a state that meets the invariant. -/
theorem witness_HostReadHasNoSideEffect_node :
    Inv (pending (.read 3 60)) ∧ (60#32).toNat < 8 * (pending (.read 3 60)).cfg.maxNodes ∧ (60#32).toNat % 8 < 5 :=
  ⟨⟨by decide, by decide, witness_control_idle _⟩, by decide, by decide⟩

/-- Each clause at the ends of its range. -/
theorem witness_ReservedAccesses :
    8 ≤ (8#4).toNat ∧ 8 ≤ (15#4).toNat ∧
    (spaceOf 0 = some .csr ∧ spaceWords small .csr ≤ (18#32).toNat) ∧
    (spaceOf 1 = some .txt ∧ spaceWords small .txt ≤ (16#32).toNat) ∧
    (spaceOf 3 = some .node ∧ spaceWords small .node ≤ (64#32).toNat) ∧
    (spaceOf 7 = some .pay ∧ spaceWords small .pay ≤ (0xFFFFFFFF#32).toNat) ∧
    5 ≤ (5#32).toNat % 8 ∧ 5 ≤ (63#32).toNat % 8 ∧ (1#32).toNat ∈ [1, 2, 3, 5, 8, 10, 12, 13, 14, 15, 16, 17] ∧
    (17#32).toNat ∈ [1, 2, 3, 5, 8, 10, 12, 13, 14, 15, 16, 17] := by decide

/-- Each clause at the last word of its space. -/
theorem witness_HostWriteReadsBack :
    (15#32).toNat < small.maxTxt ∧ (56#32).toNat < 8 * small.maxNodes ∧ (56#32).toNat % 8 = 0 ∧
    (57#32).toNat < 8 * small.maxNodes ∧ (57#32).toNat % 8 = 1 ∧ (60#32).toNat < 8 * small.maxNodes ∧
    2 ≤ (60#32).toNat % 8 ∧ (60#32).toNat % 8 ≤ 4 ∧ (1#32).toNat < (small.maxBits + 31) / 32 ∧
    (11#32).toNat < small.maxPay ∧ (11#32).toNat ∈ [4, 6, 7, 9, 11] := by decide

theorem witness_HostWriteLeavesEveryOtherWord :
    ((0#4 : BitVec 4) = 0 → (4#32 : Word) ≠ 0) ∧ ((0#4 : BitVec 4) ≠ 0 ∨ (5#32 : Word) ≠ 4) := by decide

/-- A write to the CSR next to CMD, and one to index 0 of another space. -/
theorem witness_HostWriteLeavesEveryOtherWord_step :
    ((pending (.write 0 1 5)).running = none ∧ (pending (.write 0 1 5)).port = .write 0 1 5 :: [] ∧
      ((0#4 : BitVec 4) = 0 → (1#32 : Word) ≠ 0)) ∧
    (pending (.write 1 0 5)).running = none ∧ (pending (.write 1 0 5)).port = .write 1 0 5 :: [] ∧
    ((1#4 : BitVec 4) = 0 → (0#32 : Word) ≠ 0) := ⟨⟨rfl, rfl, by decide⟩, rfl, rfl, by decide⟩

/-! ### The invariant -/

theorem witness_invariant_busy : Inv (busyWith (.write 1 0 5)) where
  valid := by decide
  memory := by decide
  control := witness_control_busy _

theorem witness_EveryStepKeepsTheInvariant :
    Inv (pending (.write 1 0 5)) ∧ step (pending (.write 1 0 5)) = .next (idle.memWrite 1 0 5) :=
  ⟨⟨by decide, by decide, witness_control_idle _⟩, rfl⟩

/-! ### Every command -/

theorem witness_CommandsWriteOnlyTheirOutputs (i : Instr) : exec i idle = .next (after i idle) := exec_after i idle

theorem witness_CommandsEnd : Instr.freq ≠ .compress ∧ Instr.decompress ≠ .compress := by decide

/-! ### FREQ -/

/-- A text of exactly MAX_TXT symbols with exactly MAX_SYMS distinct ones. -/
theorem witness_FreqCountsTheText :
    let s := withText ([1, 2, 3, 4] ++ List.replicate 12 4)
    s.cfg.Valid ∧ s.txtLen.toNat ≤ s.cfg.maxTxt ∧ s.text.eraseDups.length ≤ s.cfg.maxSyms := by decide +kernel

theorem witness_FreqTrapsOnCapacity :
    (withText (List.replicate 17 4)).cfg.Valid ∧
    (withText (List.replicate 17 4)).cfg.maxTxt < (withText (List.replicate 17 4)).txtLen.toNat ∧
    (withText [1, 2, 3, 4, 5]).cfg.Valid ∧
    (withText [1, 2, 3, 4, 5]).cfg.maxSyms < (withText [1, 2, 3, 4, 5]).text.eraseDups.length := by decide +kernel

/-- How a command's end without error is shown: the command's field values, one by one. -/
theorem ended_ok {t : State} (h : t.status = 2 ∧ t.err = 0 ∧ t.errInfo = 0 ∧ t.phase = .idle ∧ t.work = .dead ∧
    t.running = none) : t.EndedOk := h

theorem witness_FreqTableAddsUp : (withText example9).cfg.Valid ∧
    exec .freq (withText example9) = .next (after .freq (withText example9)) ∧ (after .freq (withText example9)).EndedOk ∧
    Instr.decompress ∈ [Instr.build, .gen, .encode, .pack, .unpack, .decode, .decompress] ∧
    exec .decompress idle = .next (after .decompress idle) :=
  ⟨by decide, exec_after _ _, ended_ok (by decide +kernel), by decide, exec_after _ _⟩

/-! ### BUILD -/

theorem witness_ExtractMin : [2, 0, 1] ≠ [] := by decide

theorem witness_BuildWrapsASingleLeaf :
    (withTable [⟨0x61, 4⟩] idle).cfg.Valid ∧ (withTable [⟨0x61, 4⟩] idle).ftCnt = 1 := by decide

/-- Two entries, and MAX_SYMS entries of equal weight. -/
theorem witness_BuildMakesTheGreedyArena : ∀ l ∈ [[⟨1, 7⟩, ⟨2, 7⟩], [⟨1, 1⟩, ⟨2, 1⟩, ⟨3, 1⟩, (⟨4, 1⟩ : FtEntry)]],
    (withTable l idle).cfg.Valid ∧ 2 ≤ (withTable l idle).ftCnt.toNat ∧
    (withTable l idle).ftCnt.toNat ≤ (withTable l idle).cfg.maxSyms ∧
    ((withTable l idle).freqTable.map fun e => e.count.toNat).sum < 2 ^ 32 := by decide +kernel

theorem witness_BuildArenaIsOneTree :
    let s := withTable [⟨1, 1⟩, ⟨2, 1⟩, ⟨3, 1⟩, ⟨4, 1⟩] idle
    s.cfg.Valid ∧ 2 ≤ s.ftCnt.toNat ∧ s.ftCnt.toNat ≤ s.cfg.maxSyms ∧
    (s.freqTable.map fun e => e.count.toNat).sum < 2 ^ 32 ∧ exec .build s = .next (after .build s) :=
  ⟨by decide, by decide, by decide, by decide +kernel, exec_after _ _⟩

theorem witness_BuildTrapsOnTheEmptyTable : idle.ftCnt = 0 ∧ exec .compress idle = .next (after .compress idle) :=
  ⟨rfl, exec_after _ _⟩

theorem witness_BuildKeepsEntriesPastTheTree : idle.cfg.Valid ∧ (withTable [⟨1, 1⟩] idle).ftCnt ≠ 0 ∧
    (withTable [⟨1, 1⟩] idle).ftCnt.toNat ≤ idle.cfg.maxSyms ∧
    exec .build (withTable [⟨1, 1⟩] idle) = .next (after .build (withTable [⟨1, 1⟩] idle)) ∧
    (after .build (withTable [⟨1, 1⟩] idle)).nodeCnt.toNat ≤ 2 :=
  ⟨by decide, by decide, by decide, exec_after _ _, by decide +kernel⟩

/-! ### GEN -/

theorem witness_GenRecordsTheLeafPaths :
    let s := withTree tree9 idle
    s.cfg.Valid ∧ rootValid s.cfg s.nodeCnt s.root = true ∧
    leafPaths s.nodeAt (s.root.toNat + 1) s.root.toNat = some codes9 ∧ codes9.length ≤ s.cfg.maxNodes := by decide +kernel

/-- A root that is itself a leaf (R171). -/
theorem witness_GenRecordsTheLeafPaths_leaf :
    let s := withTree [leaf 7] idle
    rootValid s.cfg s.nodeCnt s.root = true ∧
    leafPaths s.nodeAt (s.root.toNat + 1) s.root.toNat = some [⟨7, []⟩] := by decide +kernel

/-- The first clause: no tree. -/
theorem witness_GenTrapsOnABadTree_root : idle.cfg.Valid ∧ rootValid idle.cfg idle.nodeCnt idle.root = false := by decide

/-- The second clause where the leaves before the bad child are exactly MAX_NODES: 4 leaves, then a root that is its own right
child. -/
theorem witness_GenTrapsOnABadTree_child :
    let s := withTree [leaf 1, inode 0 0, inode 1 1, inode 2 3] { idle with cfg := tiny }
    s.cfg.Valid ∧ rootValid s.cfg s.nodeCnt s.root = true ∧
    leafPaths s.nodeAt (s.root.toNat + 1) s.root.toNat = none ∧
    firstBadChild s.nodeAt (s.root.toNat + 1) s.root.toNat = some (4, 3) ∧ 4 ≤ s.cfg.maxNodes := by decide +kernel

/-- The second clause where they are one more: 9 leaves, MAX_NODES 8. -/
theorem witness_GenTrapsOnABadTree_late_child :
    let s := withTree [leaf 1, inode 0 0, inode 1 1, inode 2 2, inode 3 0, inode 4 5] idle
    s.cfg.Valid ∧ rootValid s.cfg s.nodeCnt s.root = true ∧
    leafPaths s.nodeAt (s.root.toNat + 1) s.root.toNat = none ∧
    firstBadChild s.nodeAt (s.root.toNat + 1) s.root.toNat = some (9, 5) ∧ s.cfg.maxNodes < 9 := by decide +kernel

/-- The third clause: shared subtrees give 8 leaves where MAX_NODES is 4. -/
theorem witness_GenTrapsOnABadTree_leaves :
    let s := withTree [leaf 1, inode 0 0, inode 1 1, inode 2 2] { idle with cfg := tiny }
    s.cfg.Valid ∧ rootValid s.cfg s.nodeCnt s.root = true ∧
    (leafPaths s.nodeAt (s.root.toNat + 1) s.root.toNat).isSome = true ∧
    s.cfg.maxNodes < ((leafPaths s.nodeAt (s.root.toNat + 1) s.root.toNat).getD []).length := by decide +kernel

theorem witness_GenTableIsAnOrderedPrefixCode : idle.cfg.Valid ∧
    exec .gen (withTree tree9 idle) = .next (after .gen (withTree tree9 idle)) ∧ (after .gen (withTree tree9 idle)).EndedOk :=
  ⟨by decide, exec_after _ _, ended_ok (by decide +kernel)⟩

/-! ### ENCODE -/

/-- How it is shown that a table has a code for every symbol of a text. -/
theorem covered {text : List Symbol} {table : List CodeRow}
    (h : (text.all fun x => table.any fun e => e.sym == x) = true) : ∀ x ∈ text, ∃ e ∈ table, e.sym = x := by
  simpa using h

theorem witness_EncodeConcatenatesTheCodes :
    let s := withCodes codes9 (withText example9)
    s.cfg.Valid ∧ s.txtLen.toNat ≤ s.cfg.maxTxt ∧ (∀ x ∈ s.text, ∃ e ∈ s.codeTable, e.sym = x) ∧
    (s.text.flatMap fun x => (lookupCode s.codeTable x).getD []).length ≤ s.cfg.maxBits :=
  ⟨by decide, by decide, covered (by decide +kernel), by decide +kernel⟩

/-- The three clauses: a text longer than MAX_TXT, a symbol without a code, a code that does not fit (MAX_BITS 8, nine
bits). -/
theorem witness_EncodeTraps_text :
    (withText (List.replicate 17 4)).cfg.maxTxt < (withText (List.replicate 17 4)).txtLen.toNat := by decide

theorem witness_EncodeTraps_missing :
    let s := withCodes codes9 (withText [0x61, 0x64])
    s.cfg.Valid ∧ s.txtLen.toNat ≤ s.cfg.maxTxt ∧ s.text = [0x61] ++ 0x64 :: [] ∧
    (∀ y ∈ [0x61#32], ∃ e ∈ s.codeTable, e.sym = y) ∧
    ([0x61#32].flatMap fun y => (lookupCode s.codeTable y).getD []).length ≤ s.cfg.maxBits ∧
    ∀ e ∈ s.codeTable, e.sym ≠ 0x64 :=
  ⟨by decide, by decide, by decide +kernel, covered (by decide +kernel), by decide +kernel, by decide +kernel⟩

theorem witness_EncodeTraps_capacity :
    let s := withCodes codes9 { withText (List.replicate 9 0x61) with cfg := tiny }
    s.cfg.Valid ∧ s.txtLen.toNat ≤ s.cfg.maxTxt ∧ s.text = List.replicate 8 0x61 ++ 0x61 :: [] ∧
    (∀ y ∈ List.replicate 8 0x61#32, ∃ e ∈ s.codeTable, e.sym = y) ∧
    ((List.replicate 8 0x61#32).flatMap fun y => (lookupCode s.codeTable y).getD []).length ≤ s.cfg.maxBits ∧
    lookupCode s.codeTable 0x61 = some [false] ∧
    s.cfg.maxBits < ((List.replicate 8 0x61#32).flatMap fun y => (lookupCode s.codeTable y).getD []).length +
      [false].length :=
  ⟨by decide, by decide, by decide +kernel, covered (by decide +kernel), by decide +kernel, by decide +kernel,
    by decide +kernel⟩

/-! ### DECODE -/

/-- The root of "aaaabbbcc"'s tree reaches leaf `a` by "0" and leaf `c` by "10"; "1" leads to the inner node 3. -/
theorem witness_codewords (s : State) (h : ∀ k, (withTree tree9 s).nodeAt k = (withTree tree9 idle).nodeAt k) :
    IsCodeword (withTree tree9 s).nodeAt 4 ⟨0x61, [false]⟩ ∧
    IsCodeword (withTree tree9 s).nodeAt 4 ⟨0x63, [true, false]⟩ := by
  have h : (withTree tree9 s).nodeAt = (withTree tree9 idle).nodeAt := funext h
  rw [h]
  exact ⟨⟨by decide, 0, by decide +kernel, by decide +kernel, by decide +kernel⟩,
    ⟨by decide, 2, by decide +kernel, by decide +kernel, by decide +kernel⟩⟩

/-- A host-written bit sequence with the tree of the example. -/
def coded (l : List Bool) : State := withBits l (withTree tree9 idle)

theorem coded_codeword_a (l : List Bool) : IsCodeword (coded l).nodeAt 4 ⟨0x61, [false]⟩ :=
  (witness_codewords idle fun _ => rfl).1

theorem coded_codeword_c (l : List Bool) : IsCodeword (coded l).nodeAt 4 ⟨0x63, [true, false]⟩ :=
  (witness_codewords idle fun _ => rfl).2

theorem coded_codewords (l : List Bool) :
    ∀ e ∈ [(⟨0x61, [false]⟩ : CodeRow), ⟨0x63, [true, false]⟩], IsCodeword (coded l).nodeAt (coded l).root.toNat e := by
  intro e he
  simp only [List.mem_cons, List.not_mem_nil, or_false] at he
  rcases he with rfl | rfl
  · exact coded_codeword_a l
  · exact coded_codeword_c l

/-- "010": two codewords. -/
theorem witness_DecodeReadsCodewords :
    let s := coded [false, true, false]
    let rows : List CodeRow := [⟨0x61, [false]⟩, ⟨0x63, [true, false]⟩]
    s.cfg.Valid ∧ s.bitLen.toNat ≤ s.cfg.maxBits ∧ rootValid s.cfg s.nodeCnt s.root = true ∧
    (∀ e ∈ rows, IsCodeword s.nodeAt s.root.toNat e) ∧ s.bitSeq = codewordBits rows ∧ rows.length ≤ s.cfg.maxTxt :=
  ⟨by decide, by decide, by decide, coded_codewords _, by decide +kernel, by decide⟩

/-- "0101" ends inside a codeword: its last "1" leads to node 3, which is no leaf. -/
theorem witness_DecodeTrapsInsideACodeword :
    let s := coded [false, true, false, true]
    let rows : List CodeRow := [⟨0x61, [false]⟩, ⟨0x63, [true, false]⟩]
    s.cfg.Valid ∧ s.bitLen.toNat ≤ s.cfg.maxBits ∧ rootValid s.cfg s.nodeCnt s.root = true ∧
    (∀ e ∈ rows, IsCodeword s.nodeAt s.root.toNat e) ∧ rows.length ≤ s.cfg.maxTxt ∧ [true] ≠ [] ∧
    descend s.nodeAt s.root.toNat [true] = some 3 ∧ (s.nodeAt 3).leaf = false ∧
    s.bitSeq = codewordBits rows ++ [true] :=
  ⟨by decide, by decide, by decide, coded_codewords _, by decide, by decide, by decide +kernel, by decide +kernel,
    by decide +kernel⟩

/-- A leaf root, at which every bit selects an absent child. -/
theorem witness_DecodeTrapsAtAnAbsentChild_leaf :
    let s := withBits [false] (withTree [leaf 0x61] idle)
    s.cfg.Valid ∧ s.bitLen.toNat ≤ s.cfg.maxBits ∧ rootValid s.cfg s.nodeCnt s.root = true ∧
    (∀ e ∈ ([] : List CodeRow), IsCodeword s.nodeAt s.root.toNat e) ∧ ([] : List CodeRow).length ≤ s.cfg.maxTxt ∧
    descend s.nodeAt s.root.toNat [] = some 0 ∧ (s.nodeAt 0).leaf = true ∧
    s.bitSeq = codewordBits [] ++ [] ++ false :: [] :=
  ⟨by decide, by decide, by decide, by simp, by decide, by decide +kernel, by decide +kernel, by decide +kernel⟩

/-- The synthetic root, at which a bit 1 selects an absent child. -/
theorem witness_DecodeTrapsAtAnAbsentChild_synthetic :
    let s := withBits [true] (withTree [leaf 0x61, inode 0 noneHandle] idle)
    s.cfg.Valid ∧ s.bitLen.toNat ≤ s.cfg.maxBits ∧ rootValid s.cfg s.nodeCnt s.root = true ∧
    (∀ e ∈ ([] : List CodeRow), IsCodeword s.nodeAt s.root.toNat e) ∧ ([] : List CodeRow).length ≤ s.cfg.maxTxt ∧
    descend s.nodeAt s.root.toNat [] = some 1 ∧ (s.nodeAt 1).leaf = false ∧
    (if true then (s.nodeAt 1).right else (s.nodeAt 1).left) = noneHandle ∧
    s.bitSeq = codewordBits [] ++ [] ++ true :: [] :=
  ⟨by decide, by decide, by decide, by simp, by decide, by decide +kernel, by decide +kernel, by decide +kernel,
    by decide +kernel⟩

theorem witness_DecodeTrapsOnABadTree_root :
    let s := withBits [true] idle
    s.bitLen ≠ 0 ∧ s.bitLen.toNat ≤ s.cfg.maxBits ∧ rootValid s.cfg s.nodeCnt s.root = false := by decide

/-- A root that is its own right child. -/
theorem witness_DecodeTrapsOnABadTree_child :
    let s := withBits [true] (withTree [leaf 0x61, inode 0 1] idle)
    s.cfg.Valid ∧ s.bitLen.toNat ≤ s.cfg.maxBits ∧ rootValid s.cfg s.nodeCnt s.root = true ∧
    (∀ e ∈ ([] : List CodeRow), IsCodeword s.nodeAt s.root.toNat e) ∧ ([] : List CodeRow).length ≤ s.cfg.maxTxt ∧
    descend s.nodeAt s.root.toNat [] = some 1 ∧ (s.nodeAt 1).leaf = false ∧
    (if true then (s.nodeAt 1).right else (s.nodeAt 1).left) ≠ noneHandle ∧
    1 ≤ (if true then (s.nodeAt 1).right else (s.nodeAt 1).left).toNat ∧
    s.bitSeq = codewordBits [] ++ [] ++ true :: [] :=
  ⟨by decide, by decide, by decide, by simp, by decide, by decide +kernel, by decide +kernel, by decide +kernel,
    by decide +kernel, by decide +kernel⟩

/-- BIT_LEN = MAX_BITS + 1. -/
theorem witness_DecodeTrapsOnCapacity_bits :
    idle.cfg.maxBits < ({ idle with bitLen := 65 } : State).bitLen.toNat := by decide

/-- A text of MAX_TXT + 1 = 17 symbols. -/
theorem witness_DecodeTrapsOnCapacity_text :
    let s := coded (List.replicate 17 false)
    let rows := List.replicate 16 (⟨0x61, [false]⟩ : CodeRow)
    s.cfg.Valid ∧ s.bitLen.toNat ≤ s.cfg.maxBits ∧ rootValid s.cfg s.nodeCnt s.root = true ∧
    (∀ e ∈ rows, IsCodeword s.nodeAt s.root.toNat e) ∧ rows.length = s.cfg.maxTxt ∧
    IsCodeword s.nodeAt s.root.toNat ⟨0x61, [false]⟩ ∧ s.bitSeq = codewordBits rows ++ [false] ++ [] :=
  ⟨by decide, by decide, by decide, fun e he => by rw [(List.mem_replicate.1 he).2]; exact coded_codeword_a _, by decide,
    coded_codeword_a _, by decide +kernel⟩

/-! ### PACK and UNPACK -/

theorem witness_BytesTakeTheFirstBit : (List.replicate 16 true).length % 8 = 0 ∧ 1 < (List.replicate 16 true).length / 8 := by
  decide

theorem witness_PackWritesThePaddedBase64 : idle.cfg.Valid ∧ (withBits bits9 idle).bitLen.toNat ≤ idle.cfg.maxBits ∧
    ({ idle with bitLen := 64 } : State).bitLen.toNat ≤ idle.cfg.maxBits := by decide

theorem witness_UnpackWritesTheFirstBits :
    let s : State := { withPay pay9 idle with bitLen := 16 }
    s.cfg.Valid ∧ s.payLen.toNat ≤ s.cfg.maxPay ∧ s.bitLen.toNat ≤ s.cfg.maxBits ∧
    b64Dec s.payload = some [0x0F, 0xE8] ∧ s.bitLen.toNat ≤ 8 * [0x0F#8, 0xE8].length := by decide +kernel

theorem witness_PackerTrapsInOrder :
    idle.cfg.maxBits < ({ idle with bitLen := 65 } : State).bitLen.toNat ∧
    idle.cfg.maxPay < ({ idle with payLen := 13 } : State).payLen.toNat ∧
    (let s : State := { withPay pay9 idle with bitLen := 17 }
     s.payLen.toNat ≤ s.cfg.maxPay ∧ s.bitLen.toNat ≤ s.cfg.maxBits ∧ b64Enc [0x0F, 0xE8] = s.payload ∧
     8 * [0x0F#8, 0xE8].length < s.bitLen.toNat) := by decide +kernel

/-- B64Enc never gives one character alone, so the payload "A" is no encoding. -/
theorem witness_PackerTrapsInOrder_encoding :
    (withPay [0x41] idle).payLen.toNat ≤ idle.cfg.maxPay ∧ (withPay [0x41] idle).bitLen.toNat ≤ idle.cfg.maxBits ∧
    ∀ bytes, b64Enc bytes ≠ (withPay [0x41] idle).payload := by
  refine ⟨by decide, by decide, fun bytes h => ?_⟩
  rw [show (withPay [0x41] idle).payload = [0x41] from by decide +kernel] at h
  match bytes with
  | [] => simp [b64Enc] at h
  | [_] => simp [b64Enc] at h
  | [_, _] => simp [b64Enc] at h
  | _ :: _ :: _ :: _ => simp [b64Enc, encGroup] at h

/-! ### COMPRESS -/

theorem witness_CompressOfTheEmptyText : idle.txtLen = 0 := rfl

theorem witness_CompressOfOneRepeatedSymbol :
    let s := withText (List.replicate 16 0x61)
    s.cfg.Valid ∧ 1 ≤ 16 ∧ 16 ≤ s.cfg.maxTxt ∧ 16 ≤ s.cfg.maxBits ∧ s.text = List.replicate 16 0x61 := by decide +kernel

theorem compressed9 : (after .compress (withText example9)).EndedOk := ended_ok (by decide +kernel)

theorem witness_CompressWritesTheStatistics : (withText example9).cfg.Valid ∧ (withText example9).txtLen ≠ 0 ∧
    exec .compress (withText example9) = .next (after .compress (withText example9)) ∧
    (after .compress (withText example9)).EndedOk := ⟨by decide, by decide, exec_after _ _, compressed9⟩

/-- The first clause: every stage ends without error. -/
theorem witness_CompressIsItsStages_ok :
    let s := withText example9
    let a := after .freq s
    let b := after .build a
    let c := after .gen b
    let d := after .encode c
    exec .freq s = .next a ∧ a.EndedOk ∧ a.ftCnt ≠ 0 ∧ exec .build a = .next b ∧ b.EndedOk ∧ exec .gen b = .next c ∧
    c.EndedOk ∧ exec .encode c = .next d ∧ d.EndedOk ∧ exec .pack d = .next (after .pack d) ∧ (after .pack d).EndedOk :=
  ⟨exec_after _ _, ended_ok (by decide +kernel), by decide +kernel, exec_after _ _, ended_ok (by decide +kernel),
    exec_after _ _, ended_ok (by decide +kernel), exec_after _ _, ended_ok (by decide +kernel), exec_after _ _,
    ended_ok (by decide +kernel)⟩

/-- The second clause: FREQ raises. -/
theorem witness_CompressIsItsStages_freq :
    let s := withText [1, 2, 3, 4, 5]
    exec .freq s = .next (after .freq s) ∧ ¬ (after .freq s).EndedOk :=
  ⟨exec_after _ _, fun h => absurd h.1 (by decide +kernel)⟩

/-- The third clause: ENCODE raises (nine bits, MAX_BITS 8). -/
theorem witness_CompressIsItsStages_encode :
    let s : State := { withText (List.replicate 9 0x61) with cfg := tiny }
    let a := after .freq s
    let b := after .build a
    let c := after .gen b
    exec .freq s = .next a ∧ a.EndedOk ∧ a.ftCnt ≠ 0 ∧ exec .build a = .next b ∧ b.EndedOk ∧ exec .gen b = .next c ∧
    c.EndedOk ∧ exec .encode c = .next (after .encode c) ∧ ¬ (after .encode c).EndedOk :=
  ⟨exec_after _ _, ended_ok (by decide +kernel), by decide +kernel, exec_after _ _, ended_ok (by decide +kernel),
    exec_after _ _, ended_ok (by decide +kernel), exec_after _ _, fun h => absurd h.1 (by decide +kernel)⟩

theorem witness_CompressSucceedsWithinTheCapacities :
    let s := withText ([1, 2, 3, 4] ++ List.replicate 12 4)
    s.cfg.Valid ∧ s.txtLen ≠ 0 ∧ s.txtLen.toNat ≤ s.cfg.maxTxt ∧ s.text.eraseDups.length ≤ s.cfg.maxSyms ∧
    s.txtLen.toNat * s.text.eraseDups.length ≤ s.cfg.maxBits := by decide +kernel

theorem witness_HeavierSymbols : (withText example9).cfg.Valid ∧
    exec .compress (withText example9) = .next (after .compress (withText example9)) ∧
    (after .compress (withText example9)).EndedOk ∧
    (⟨0x61, [false]⟩ : CodeRow) ∈ (after .compress (withText example9)).codeTable ∧
    (⟨0x63, [true, false]⟩ : CodeRow) ∈ (after .compress (withText example9)).codeTable ∧
    (withText example9).text.count 0x63 < (withText example9).text.count 0x61 :=
  ⟨by decide, exec_after _ _, compressed9, by decide +kernel, by decide +kernel, by decide +kernel⟩

/-- The same text in a state that differs elsewhere. -/
theorem witness_CompressDependsOnTheTextAlone :
    let s := withBits bits9 (withTree tree9 (withText example9))
    (withText example9).cfg.Valid ∧ s.cfg = (withText example9).cfg ∧ s.txtLen = (withText example9).txtLen ∧
    s.text = (withText example9).text ∧
    exec .compress (withText example9) = .next (after .compress (withText example9)) ∧
    (after .compress (withText example9)).EndedOk :=
  ⟨by decide, by decide, by decide, by decide +kernel, exec_after _ _, compressed9⟩

theorem f64Value_one : f64Value f64One = 1 := by
  have h : exactOf f64One = ⟨false, 2 ^ 52, -52⟩ := by decide +kernel
  norm_num [f64Value, h]

theorem witness_BinaryOperations : F64Finite f64One ∧ f64Value f64One ≠ 0 ∧
    |f64Value f64One / f64Value f64One| < 2 ^ 1023 ∧ |f64Value f64One - f64Value f64One| < 2 ^ 1023 ∧
    |f64Value f64One * f64Value f64One| < 2 ^ 1023 := by
  have h : (1 : ℚ) < 2 ^ 1023 := one_lt_pow₀ (by norm_num) (by norm_num)
  refine ⟨by unfold F64Finite; decide +kernel, by rw [f64Value_one]; norm_num, ?_⟩
  rw [f64Value_one]
  refine ⟨by simpa using h, ?_, by simpa using h⟩
  rw [sub_self, abs_zero]
  exact zero_lt_one.trans h

/-! ### DECOMPRESS -/

theorem witness_DecompressIsUnpackThenDecode :
    (after .unpack { withPay pay9 idle with bitLen := 14 }).EndedOk ∧ ¬ (after .unpack { idle with bitLen := 1 }).EndedOk :=
  ⟨ended_ok (by decide +kernel), fun h => absurd h.1 (by decide +kernel)⟩

theorem witness_DecompressOfTheEmptyPayload : idle.payLen = 0 ∧ idle.bitLen = 0 ∧
    ({ idle with bitLen := 1 } : State).bitLen ≠ 0 ∧ ({ idle with bitLen := 64 } : State).bitLen.toNat ≤ idle.cfg.maxBits := by
  decide

/-- The example's payload, bit length and tree. -/
theorem witness_DecompressOfTheEmptyPayload_codewords :
    let s : State := { withPay pay9 (withTree tree9 idle) with bitLen := 14 }
    let rows : List CodeRow := List.replicate 4 ⟨0x61, [false]⟩ ++ List.replicate 3 ⟨0x62, [true, true]⟩ ++
      List.replicate 2 ⟨0x63, [true, false]⟩
    s.cfg.Valid ∧ s.payLen.toNat ≤ s.cfg.maxPay ∧ s.bitLen.toNat ≤ s.cfg.maxBits ∧ b64Enc [0x0F, 0xE8] = s.payload ∧
    s.bitLen.toNat ≤ 8 * [0x0F#8, 0xE8].length ∧ rootValid s.cfg s.nodeCnt s.root = true ∧
    (∀ e ∈ rows, IsCodeword s.nodeAt s.root.toNat e) ∧
    (bitsOfBytes [0x0F, 0xE8]).take s.bitLen.toNat = codewordBits rows ∧ rows.length ≤ s.cfg.maxTxt := by
  refine ⟨by decide, by decide, by decide, by decide +kernel, by decide, by decide, fun e he => ?_, by decide +kernel,
    by decide⟩
  rcases List.mem_append.1 he with he | he
  · rcases List.mem_append.1 he with he | he <;> rw [(List.mem_replicate.1 he).2]
    · exact coded_codeword_a []
    · exact ⟨by decide, 1, by decide +kernel, by decide +kernel, by decide +kernel⟩
  · rw [(List.mem_replicate.1 he).2]
    exact coded_codeword_c []

/-- A state a host restored: the payload, the bit length and the tree of a COMPRESS, in a state otherwise as after reset. -/
theorem witness_DecompressRestoresTheCompressedText :
    let s := withText example9
    let t := after .compress s
    let v : State := { withPay pay9 idle with bitLen := 14, node := t.node, nodeCnt := 5, root := 4 }
    s.cfg.Valid ∧ exec .compress s = .next t ∧ t.EndedOk ∧ v.cfg = t.cfg ∧ v.payLen = t.payLen ∧
    v.payload = t.payload ∧ v.bitLen = t.bitLen ∧ v.nodeCnt = t.nodeCnt ∧ v.root = t.root ∧
    ∀ k < t.nodeCnt.toNat, v.nodeAt k = t.nodeAt k :=
  ⟨by decide, exec_after _ _, compressed9, by decide +kernel, by decide +kernel, by decide +kernel, by decide +kernel,
    by decide +kernel, by decide +kernel, by decide +kernel⟩

end Sys2Proof.Tests
end

section
/-! What the stages compute stays within the capacities and the widths of their outputs: the length of every result, and
where its symbols come from. -/

namespace Sys2Proof.Machine

variable {s : State}

/-! ### FREQ -/

/-- Counting a symbol in changes no entry's symbol. -/
theorem countIn_syms {x : Symbol} {l l' : List FtEntry} (h : countIn x l = some l') :
    l'.map FtEntry.sym = l.map FtEntry.sym := by
  induction l generalizing l' with
  | nil => cases h
  | cons e l ih =>
    simp only [countIn] at h
    split at h
    · cases h; rfl
    · obtain ⟨r, hr, rfl⟩ := Option.map_eq_some_iff.1 h
      simp [ih hr]

/-- The table FREQ makes has at most MAX_SYMS entries (R141). -/
theorem length_le_of_freqLoop {m : Nat} {t : List Symbol} {l l' : List FtEntry} (h : freqLoop m l t = .ok l')
    (hl : l.length ≤ m) : l'.length ≤ m := by
  induction t generalizing l with
  | nil => cases h; exact hl
  | cons x t ih =>
    simp only [freqLoop] at h
    split at h
    · rename_i hc
      have := congrArg List.length (countIn_syms hc)
      simp only [List.length_map] at this
      exact ih h (by omega)
    · split at h
      · cases h
      · exact ih h (by simp only [List.length_append, List.length_singleton]; omega)

/-- Every symbol of the table FREQ makes was in the table before or is in the text. -/
theorem sym_mem_of_freqLoop {m : Nat} {t : List Symbol} {l l' : List FtEntry} (h : freqLoop m l t = .ok l') :
    ∀ x ∈ l'.map FtEntry.sym, x ∈ l.map FtEntry.sym ∨ x ∈ t := by
  induction t generalizing l with
  | nil => cases h; exact fun x hx => .inl hx
  | cons y t ih =>
    intro x hx
    simp only [freqLoop] at h
    split at h
    · rename_i hc
      rcases ih h x hx with hx | hx
      · exact .inl (countIn_syms hc ▸ hx)
      · exact .inr (List.mem_cons_of_mem _ hx)
    · split at h
      · cases h
      · rcases ih h x hx with hx | hx
        · rw [List.map_append, List.mem_append] at hx
          exact hx.imp_right fun hx => by simpa using Or.inl (List.mem_singleton.1 hx)
        · exact .inr (List.mem_cons_of_mem _ hx)

theorem State.text_lt (h : Memory.wf s) : ∀ x ∈ s.text, x.toNat < 2 ^ s.cfg.symW := fun x hx => by
  obtain ⟨i, _, rfl⟩ := List.mem_map.1 hx
  exact State.txtAt_lt h i

theorem State.freqResult_fits (h : Memory.wf s) {l : List FtEntry} (hl : s.freqResult = .ok l) :
    l.length ≤ s.cfg.maxSyms ∧ ∀ e ∈ l, e.sym.toNat < 2 ^ s.cfg.symW := by
  unfold State.freqResult at hl
  split at hl
  · cases hl
  · refine ⟨length_le_of_freqLoop hl (Nat.zero_le _), fun e he => ?_⟩
    rcases sym_mem_of_freqLoop hl _ (List.mem_map_of_mem he) with hx | hx
    · cases hx
    · exact State.text_lt h _ hx

/-! ### BUILD -/

/-- The merge loop adds internal nodes only, whose symbol is 0 (R152). -/
theorem mem_mergeLoop {spill : Nat → Word} {fuel : Nat} {pq : List Nat} {l : List Node} :
    ∀ n ∈ mergeLoop spill fuel pq l, n ∈ l ∨ n.sym = 0 := by
  induction fuel generalizing pq l with
  | zero => exact fun n hn => .inl hn
  | succ fuel ih =>
    intro n hn
    simp only [mergeLoop] at hn
    split at hn
    · exact .inl hn
    · split at hn
      · exact .inl hn
      · rcases ih n hn with hn | hn
        · rw [List.mem_append, List.mem_singleton] at hn
          exact hn.imp_right fun hn => by rw [hn]; rfl
        · exact .inr hn

/-- A node BUILD makes has the symbol of a table entry, or 0 (R151, R152, R154). -/
theorem sym_of_mem_buildTree {spill : Nat → Word} {l : List FtEntry} {n : Node} (hn : n ∈ buildTree spill l) :
    n.sym = 0 ∨ ∃ e ∈ l, n.sym = e.sym := by
  match l with
  | [] => cases hn
  | [e] =>
    rcases List.mem_pair.1 hn with rfl | rfl
    · exact .inr ⟨e, by simp, rfl⟩
    · exact .inl rfl
  | e₁ :: e₂ :: l =>
    rcases mem_mergeLoop n hn with hn | hn
    · obtain ⟨e, he, rfl⟩ := List.mem_map.1 hn
      exact .inr ⟨e, he, rfl⟩
    · exact .inl hn

theorem State.buildResult_fits (h : Memory.wf s) : ∀ n ∈ s.buildResult, n.sym.toNat < 2 ^ s.cfg.symW := fun n hn => by
  rcases sym_of_mem_buildTree hn with h₀ | ⟨e, he, hs⟩
  · rw [h₀]
    exact Nat.two_pow_pos _
  · obtain ⟨j, _, rfl⟩ := List.mem_map.1 he
    rw [hs]
    exact State.ftAt_sym_lt h j

/-! ### GEN -/

/-- One side of the walk of R170 at node `k`: nothing for an absent child, BadTree(`k`) for one not below `k`, else the
walk from the child. -/
def walkSide (nodes : Nat → Node) (maxNodes fuel k : Nat) (child : Word) (path : List Bool) (ct : List CodeRow) :
    Except Raise (List CodeRow) :=
  if child = noneHandle then .ok ct
  else if k ≤ child.toNat then .error ⟨.badTree, BitVec.ofNat 32 k⟩
  else walk nodes maxNodes fuel child.toNat path ct

section
variable {nodes : Nat → Node} {maxNodes fuel k : Nat} {path : List Bool} {ct ct' : List CodeRow}

/-- The walk at a leaf records its row if CT has room for it. -/
theorem walk_leaf (h : (nodes k).leaf = true) : walk nodes maxNodes (fuel + 1) k path ct =
    if ct.length = maxNodes then .error capacityExceeded else .ok (ct ++ [leafRow (nodes k) path]) := by
  simp only [walk, h, if_true]

/-- The walk at an internal node is its left side and then its right side. -/
theorem walk_internal (h : (nodes k).leaf = false) : walk nodes maxNodes (fuel + 1) k path ct =
    (walkSide nodes maxNodes fuel k (nodes k).left (path ++ [false]) ct).bind
      (walkSide nodes maxNodes fuel k (nodes k).right (path ++ [true])) := by
  simp only [walk, h, Bool.false_eq_true, if_false, walkSide, Except.bind]
  split <;> rename_i hs <;> rw [hs]

/-- What every recorded row keeps, the walk keeps. A path grows by one bit where the handle falls by at least one, so path
length and handle together never exceed what they were at the start. -/
theorem walk_invariant {P : List CodeRow → Prop} {b : Nat}
    (hrow : ∀ h p l, P l → l.length ≠ maxNodes → p.length + h ≤ b → P (l ++ [leafRow (nodes h) p]))
    (hw : walk nodes maxNodes fuel k path ct = .ok ct') (hb : path.length + k ≤ b) (hP : P ct) : P ct' := by
  induction fuel generalizing k path ct ct' with
  | zero => cases hw; exact hP
  | succ fuel ih =>
    have side : ∀ (child : Word) (bit : Bool) (l l' : List CodeRow),
        walkSide nodes maxNodes fuel k child (path ++ [bit]) l = .ok l' → P l → P l' := by
      intro child bit l l' hs hl
      unfold walkSide at hs
      split at hs
      · cases hs; exact hl
      · split at hs
        · cases hs
        · exact ih hs (by simp only [List.length_append, List.length_singleton]; omega) hl
    cases hk : (nodes k).leaf with
    | true =>
      rw [walk_leaf hk] at hw
      split at hw
      · cases hw
      · cases hw; exact hrow k path ct hP ‹_› hb
    | false =>
      rw [walk_internal hk] at hw
      cases hl : walkSide nodes maxNodes fuel k (nodes k).left (path ++ [false]) ct with
      | error r => rw [hl] at hw; cases hw
      | ok l =>
        rw [hl] at hw
        exact side _ _ _ _ hw (side _ _ _ _ hl hP)

/-- The walk records at most MAX_NODES rows. -/
theorem length_le_of_walk (hw : walk nodes maxNodes fuel k path ct = .ok ct') (hl : ct.length ≤ maxNodes) :
    ct'.length ≤ maxNodes := by
  refine walk_invariant (P := fun l => l.length ≤ maxNodes) (fun h p l hl hne _ => ?_) hw le_rfl hl
  simp only [List.length_append, List.length_singleton]
  omega

/-- Every row the walk records is that of a node no further down than its path is long. -/
theorem mem_of_walk (hw : walk nodes maxNodes fuel k path ct = .ok ct') :
    ∀ e ∈ ct', e ∈ ct ∨ ∃ h p, p.length + h ≤ path.length + k ∧ e = leafRow (nodes h) p := by
  refine walk_invariant (P := fun l => ∀ e ∈ l, e ∈ ct ∨ ∃ h p, p.length + h ≤ path.length + k ∧ e = leafRow (nodes h) p)
    (fun h p l hl _ hp e he => ?_) hw le_rfl fun e he => .inl he
  rw [List.mem_append, List.mem_singleton] at he
  exact he.elim (hl e) fun he => .inr ⟨h, p, hp, he⟩

end

theorem length_leafRow_code (n : Node) (p : List Bool) : (leafRow n p).code.length = max p.length 1 := by
  cases p <;> simp [leafRow]

theorem rootValid_lt {cfg : Params} {cnt root : Word} (h : rootValid cfg cnt root = true) : root.toNat < cfg.maxNodes := by
  simp only [rootValid, Bool.and_eq_true, decide_eq_true_eq] at h
  exact h.2

theorem State.genResult_fits (hv : s.cfg.Valid) (h : Memory.wf s) {l : List CodeRow} (hl : s.genResult = .ok l) :
    l.length ≤ s.cfg.maxNodes ∧ ∀ e ∈ l, e.sym.toNat < 2 ^ s.cfg.symW ∧ e.code.length ≤ s.cfg.maxDepth := by
  unfold State.genResult genOf at hl
  split at hl
  · rename_i hr
    refine ⟨length_le_of_walk hl (Nat.zero_le _), fun e he => ?_⟩
    rcases mem_of_walk hl e he with he | ⟨k, p, hp, rfl⟩
    · cases he
    · refine ⟨State.nodeAt_sym_lt h k, ?_⟩
      obtain ⟨-, -, ⟨hm, -⟩, -⟩ := hv
      have hroot := rootValid_lt hr
      rw [length_leafRow_code]
      simp only [Params.maxDepth, Params.maxNodes, List.length_nil] at *
      omega
  · cases hl

/-! ### ENCODE and DECODE -/

/-- ENCODE writes at most MAX_BITS bits (R181). -/
theorem length_le_of_encodeLoop {m : Nat} {ct : List CodeRow} {i n : Nat} {t : List Symbol} {l : List Bool}
    (h : encodeLoop m ct i n t = .ok l) (hn : n ≤ m) : n + l.length ≤ m := by
  induction t generalizing i n l with
  | nil => cases h; exact hn
  | cons x t ih =>
    simp only [encodeLoop] at h
    split at h
    · cases h
    · split at h
      · cases h
      · split at h
        · rename_i hr
          cases h
          have := ih hr (by omega)
          rw [List.length_append]
          omega
        · cases h

theorem State.encodeResult_fits {l : List Bool} (hl : s.encodeResult = .ok l) : l.length ≤ s.cfg.maxBits := by
  unfold State.encodeResult at hl
  split at hl
  · cases hl
  · simpa using length_le_of_encodeLoop hl (Nat.zero_le _)

/-- What every emitted symbol keeps, the loop of DECODE keeps. -/
theorem decodeLoop_invariant {nodes : Nat → Node} {m root : Nat} {P : List Symbol → Prop}
    (hsym : ∀ h l, P l → l.length ≠ m → P (l ++ [(nodes h).sym])) {k cur : Nat} {out out' : List Symbol} {bits : List Bool}
    (h : decodeLoop nodes m root k cur out bits = .ok out') (hP : P out) : P out' := by
  induction bits generalizing k cur out with
  | nil =>
    simp only [decodeLoop] at h
    split at h
    · cases h; exact hP
    · cases h
  | cons bit bits ih =>
    simp only [decodeLoop] at h
    split at h
    · cases h
    · split at h
      · cases h
      · split at h
        · split at h
          · cases h
          · exact ih h (hsym _ _ hP ‹_›)
        · exact ih h hP

theorem State.decodeResult_fits (h : Memory.wf s) {l : List Symbol} (hl : s.decodeResult = .ok l) :
    l.length ≤ s.cfg.maxTxt ∧ ∀ x ∈ l, x.toNat < 2 ^ s.cfg.symW := by
  unfold State.decodeResult decodeOf at hl
  split at hl
  · cases hl
  · split at hl
    · cases hl; exact ⟨Nat.zero_le _, by simp⟩
    · split at hl
      · refine decodeLoop_invariant (P := fun l => l.length ≤ s.cfg.maxTxt ∧ ∀ x ∈ l, x.toNat < 2 ^ s.cfg.symW)
          (fun k l ⟨hlen, hlt⟩ hne => ⟨?_, fun x hx => ?_⟩) hl ⟨Nat.zero_le _, by simp⟩
        · simp only [List.length_append, List.length_singleton]
          omega
        · rw [List.mem_append, List.mem_singleton] at hx
          exact hx.elim (hlt x) fun hx => hx ▸ State.nodeAt_sym_lt h k
      · cases hl

/-! ### PACK and UNPACK -/

/-- Eight bits make a byte (R96). -/
theorem length_bytesOfBits (l : List Bool) : (bytesOfBits l).length = l.length / 8 := by
  induction l using bytesOfBits.induct with
  | case1 b₀ b₁ b₂ b₃ b₄ b₅ b₆ b₇ l ih => simp only [bytesOfBits, List.length_cons, ih]; omega
  | case2 l hl =>
    have hlt : l.length < 8 := by
      match l, hl with
      | [], _ | [_], _ | [_, _], _ | [_, _, _], _ | [_, _, _, _], _ | [_, _, _, _, _], _ | [_, _, _, _, _, _], _
      | [_, _, _, _, _, _, _], _ => simp
      | b₀ :: b₁ :: b₂ :: b₃ :: b₄ :: b₅ :: b₆ :: b₇ :: l, hl => exact absurd rfl (hl b₀ b₁ b₂ b₃ b₄ b₅ b₆ b₇ l)
    rw [bytesOfBits.eq_2 _ hl, Nat.div_eq_of_lt hlt, List.length_nil]

/-- Every group of three bytes, a last one of fewer included, makes four characters (R97). -/
theorem length_b64Enc (l : List Byte) : (b64Enc l).length = 4 * ((l.length + 2) / 3) := by
  induction l using b64Enc.induct with
  | case1 => rfl
  | case2 x => simp [b64Enc]
  | case3 x y => simp [b64Enc]
  | case4 x y z l ih => simp only [b64Enc, encGroup, List.length_append, List.length_cons, List.length_nil, ih]; omega

/-- The payload of `n` bits: PACK pads them to whole bytes (R200). -/
theorem length_packPayload (l : List Bool) : (packPayload l).length = 4 * (((l.length + 7) / 8 + 2) / 3) := by
  have hp : (l.length + padCount l.length) / 8 = (l.length + 7) / 8 := by unfold padCount; omega
  rw [packPayload, length_b64Enc, length_bytesOfBits, List.length_append, List.length_replicate, hp]

theorem State.length_bitSeq (s : State) : s.bitSeq.length = s.bitLen.toNat := by simp [State.bitSeq]

/-- A payload of at most MAX_BITS bits fits PAY: R8 bounds MAX_PAY from below. -/
theorem State.packPayload_fits (hv : s.cfg.Valid) (hb : s.bitLen.toNat ≤ s.cfg.maxBits) :
    (packPayload s.bitSeq).length ≤ s.cfg.maxPay := by
  obtain ⟨-, -, -, -, hp, -⟩ := hv
  rw [length_packPayload, State.length_bitSeq]
  omega

theorem State.unpackResult_fits {l : List Bool} (hl : s.unpackResult = .ok l) : l.length ≤ s.cfg.maxBits := by
  unfold State.unpackResult unpackBits at hl
  split at hl
  · cases hl
  · split at hl
    · cases hl
    · split at hl
      · cases hl
      · split at hl
        · cases hl
        · cases hl
          exact Nat.le_trans (List.length_take_le _ _) (Nat.not_lt.1 ‹_›)

end Sys2Proof.Machine
end

section
/-! What a command's run keeps, proved once over its stages: the parameters and the canonical form of the memory. -/

namespace Sys2Proof.Machine

variable {s : State}

/-- The state a run has reached, by its end or by a `raise`. -/
def Run.last : Run → State
  | .ok s => s
  | .raised s _ => s

@[simp] theorem Run.last_ok (s : State) : (Run.ok s).last = s := rfl

@[simp] theorem Run.last_raised (s : State) (r : Raise) : (Run.raised s r).last = s := rfl

/-- The run of a command: its one stage, or the stages of the facade. -/
def runOf (i : Instr) (s : State) : Run :=
  match i with
  | .compress => compressRun s
  | .decompress => decompressRun s
  | i => runStage (firstStage i) s

/-- A command is the end of its run. -/
theorem exec_eq_runOf (i : Instr) (s : State) : exec i s = .next (runOf i s).finish := by
  cases i <;> rfl

/-- What the first part of a run reaches and every second part keeps, the whole run reaches. -/
theorem Run.last_andThen {P : State → Prop} {r : Run} {f : State → Run} (hr : P r.last)
    (hf : ∀ t, P t → P (f t).last) : P (r.andThen f).last := by
  cases r with
  | ok t => exact hf t hr
  | raised t e => exact hr

section
variable {P : State → Prop} (hstage : ∀ p t, P t → P (runStage p t).last)
include hstage

theorem runStages_last (l : List Phase) (h : P s) : P (runStages l s).last := by
  induction l generalizing s with
  | nil => exact h
  | cons p l ih => exact Run.last_andThen (hstage p s h) fun _ ht => ih ht

/-- What every stage keeps, every command's run keeps. -/
theorem runOf_last (i : Instr) (h : P s) : P (runOf i s).last := by
  cases i with
  | compress => exact Run.last_andThen (hstage .freq s h) fun t ht => runStages_last hstage (stagesAfterFreq t) ht
  | decompress => exact runStages_last hstage [.unpack, .decode] h
  | freq | build | gen | encode | pack | unpack | decode | clear =>
    simp only [runOf]
    exact hstage _ s h

end

/-! ### The parameters -/

@[simp] theorem runStage_last_cfg (p : Phase) (s : State) : (runStage p s).last.cfg = s.cfg := by
  cases p with
  | idle => rfl
  | freq => rcases stageFreq_cases s with ⟨_, _, h⟩ | ⟨_, _, h⟩ <;> simp [runStage, h]
  | build => rcases stageBuild_cases s with ⟨_, h⟩ | ⟨_, h⟩ <;> simp [runStage, h]
  | gen => rcases stageGen_cases s with ⟨_, _, h⟩ | ⟨_, _, h⟩ <;> simp [runStage, h]
  | encode => rcases stageEncode_cases s with ⟨_, _, h⟩ | ⟨_, _, h⟩ <;> simp [runStage, h]
  | pack => rcases stagePack_cases s with ⟨_, h⟩ | ⟨_, h⟩ <;> simp [runStage, h]
  | unpack => rcases stageUnpack_cases s with ⟨_, _, h⟩ | ⟨_, _, h⟩ <;> simp [runStage, h]
  | decode => rcases stageDecode_cases s with ⟨_, _, h⟩ | ⟨_, _, h⟩ <;> simp [runStage, h]
  | stats => rcases stageStats_cases s with ⟨_, h⟩ | ⟨_, h⟩ <;> simp [runStage, h]
  | clear => rfl

@[simp] theorem runOf_last_cfg (i : Instr) (s : State) : (runOf i s).last.cfg = s.cfg :=
  runOf_last (P := fun t => t.cfg = s.cfg) (fun p t ht => (runStage_last_cfg p t).trans ht) i rfl

@[simp] theorem Run.finish_cfg (r : Run) : r.finish.cfg = r.last.cfg := by cases r <;> rfl

@[simp] theorem State.csrWrite_cfg (s : State) (x : Nat) (w : Word) : (s.csrWrite x w).cfg = s.cfg := by
  unfold State.csrWrite
  split <;> rfl

@[simp] theorem State.spaceWrite_cfg (s : State) (sp : Space) (x : Nat) (w : Word) : (s.spaceWrite sp x w).cfg = s.cfg := by
  cases sp with
  | csr => exact State.csrWrite_cfg s x w
  | node => simp only [State.spaceWrite]; split <;> rfl
  | txt | ft | ct | ctb | bits | pay => simp only [State.spaceWrite]

/-- A host write while idle is ignored, starts a command, ends an illegal one, or stores one word of a space. -/
theorem State.memWrite_cases (s : State) (space : BitVec 4) (index data : Word) :
    s.memWrite space index data = s ∨
    (∃ i, decode data = .ok i ∧ s.memWrite space index data = s.accept data i) ∨
    s.memWrite space index data = s.illegalCommand data ∨
    (∃ sp, index.toNat < spaceWords s.cfg sp ∧ s.memWrite space index data = s.spaceWrite sp index.toNat data) := by
  unfold State.memWrite State.cmdWrite
  cases spaceOf space with
  | none => exact .inl rfl
  | some sp =>
    by_cases hc : sp = .csr ∧ index = 0
    · simp only [if_pos hc]
      cases hd : decode data with
      | ok i => exact .inr (.inl ⟨i, rfl, rfl⟩)
      | error r => exact .inr (.inr (.inl rfl))
    · by_cases hx : index.toNat < spaceWords s.cfg sp
      · exact .inr (.inr (.inr ⟨sp, hx, by simp only [if_neg hc, if_pos hx]⟩))
      · exact .inl (by simp only [if_neg hc, if_neg hx])

@[simp] theorem State.memWrite_cfg (s : State) (space : BitVec 4) (index data : Word) :
    (s.memWrite space index data).cfg = s.cfg := by
  rcases s.memWrite_cases space index data with h | ⟨i, _, h⟩ | h | ⟨sp, _, h⟩ <;> simp [h]

@[simp] theorem State.serve_cfg (s : State) (e : HostEvent) : (s.serve e).cfg = s.cfg := by
  cases e with
  | read space index => rfl
  | write space index data => exact s.memWrite_cfg space index data
  | reset => rfl

/-- While BUSY = 1 an event is a read, which may draw a free value, an ignored write, or Reset. -/
theorem State.serveBusy_cases (s : State) (e : HostEvent) :
    (∃ w, s.serveBusy e = s.reply w) ∨ (∃ w, s.serveBusy e = s.drawn.reply w) ∨ s.serveBusy e = s ∨
    s.serveBusy e = s.hostReset := by
  cases e with
  | read space index =>
    simp only [State.serveBusy]
    split
    · exact .inl ⟨_, rfl⟩
    · exact .inr (.inl ⟨_, rfl⟩)
  | write space index data => exact .inr (.inr (.inl rfl))
  | reset => exact .inr (.inr (.inr rfl))

@[simp] theorem State.serveBusy_cfg (s : State) (e : HostEvent) : (s.serveBusy e).cfg = s.cfg := by
  rcases s.serveBusy_cases e with ⟨w, h⟩ | ⟨w, h⟩ | h | h <;> simp [h]

/-! ### The canonical form of the memory -/

/-- Every stage keeps the canonical form. -/
theorem Memory.wf_runStage (hv : s.cfg.Valid) (h : Memory.wf s) (p : Phase) : Memory.wf (runStage p s).last := by
  have he : Memory.wf (s.enter p) := Memory.wf_enter h p
  cases p with
  | idle | clear => exact h
  | freq =>
    rcases stageFreq_cases s with ⟨l, hl, hr⟩ | ⟨r, _, hr⟩ <;> rw [runStage, hr]
    · obtain ⟨hlen, hsym⟩ := State.freqResult_fits h hl
      exact Memory.wf_writeFreq he hlen hsym
    · exact Memory.wf_spoilFreq he
  | build =>
    rcases stageBuild_cases s with ⟨_, hr⟩ | ⟨_, hr⟩ <;> rw [runStage, hr]
    · exact Memory.wf_writeBuild he (State.buildResult_fits h)
    · exact Memory.wf_spoilBuild he
  | gen =>
    rcases stageGen_cases s with ⟨l, hl, hr⟩ | ⟨r, _, hr⟩ <;> rw [runStage, hr]
    · obtain ⟨hlen, hrow⟩ := State.genResult_fits hv h hl
      exact Memory.wf_writeGen he hlen (fun e m => (hrow e m).1) fun e m => (hrow e m).2
    · exact Memory.wf_spoilGen he
  | encode =>
    rcases stageEncode_cases s with ⟨l, hl, hr⟩ | ⟨r, _, hr⟩ <;> rw [runStage, hr]
    · exact Memory.wf_writeEncode he (State.encodeResult_fits hl)
    · exact Memory.wf_spoilEncode he
  | pack =>
    rcases stagePack_cases s with ⟨hb, hr⟩ | ⟨_, hr⟩ <;> rw [runStage, hr]
    · exact Memory.wf_writePack he (State.packPayload_fits hv hb) _
    · exact Memory.wf_spoilPack he
  | unpack =>
    rcases stageUnpack_cases s with ⟨l, hl, hr⟩ | ⟨r, _, hr⟩ <;> rw [runStage, hr]
    · exact Memory.wf_writeUnpack he (State.unpackResult_fits hl)
    · exact Memory.wf_spoilUnpack he
  | decode =>
    rcases stageDecode_cases s with ⟨l, hl, hr⟩ | ⟨r, _, hr⟩ <;> rw [runStage, hr]
    · obtain ⟨hlen, hsym⟩ := State.decodeResult_fits h hl
      exact Memory.wf_writeDecode he hlen hsym
    · exact Memory.wf_spoilDecode he
  | stats => rcases stageStats_cases s with ⟨_, hr⟩ | ⟨_, hr⟩ <;> rw [runStage, hr] <;> exact h

/-- Every command's run keeps the canonical form. -/
theorem Memory.wf_runOf (hv : s.cfg.Valid) (h : Memory.wf s) (i : Instr) : Memory.wf (runOf i s).last :=
  (runOf_last (P := fun t => t.cfg.Valid ∧ Memory.wf t)
    (fun p t ⟨hv, h⟩ => ⟨(runStage_last_cfg p t).symm ▸ hv, Memory.wf_runStage hv h p⟩) i ⟨hv, h⟩).2

theorem Memory.wf_finish {r : Run} (h : Memory.wf r.last) : Memory.wf r.finish := by
  cases r with
  | ok t => exact Memory.wf_commandEnd h
  | raised t e => exact Memory.wf_errorEntry h e

/-- Every host event served while idle keeps the canonical form. -/
theorem Memory.wf_serve (h : Memory.wf s) (e : HostEvent) : Memory.wf (s.serve e) := by
  cases e with
  | read space index => exact h
  | write space index data => exact Memory.wf_memWrite h space index data
  | reset => exact Memory.wf_hostReset s

/-- Every host event served while busy keeps the canonical form. -/
theorem Memory.wf_serveBusy (h : Memory.wf s) (e : HostEvent) : Memory.wf (s.serveBusy e) := by
  rcases s.serveBusy_cases e with ⟨w, he⟩ | ⟨w, he⟩ | he | he <;> rw [he]
  · exact h
  · exact h
  · exact h
  · exact Memory.wf_hostReset s

end Sys2Proof.Machine
end

section
/-! Every state operation keeps the control state legal (10_state.md R34 to R38). -/

namespace Sys2Proof.Machine

variable {s : State}

/-- The registers an idle control state is told by. -/
def State.controlRegs (s : State) : Option Word × Phase × Work × Nat × Word × Byte × Word :=
  (s.running, s.phase, s.work, s.busyLeft, s.status, s.err, s.errInfo)

@[simp] theorem State.spaceWrite_controlRegs (s : State) (sp : Space) (x : Nat) (w : Word) :
    (s.spaceWrite sp x w).controlRegs = s.controlRegs := by
  cases sp with
  | csr => simp only [State.spaceWrite, State.csrWrite]; split <;> rfl
  | node => simp only [State.spaceWrite]; split <;> rfl
  | txt | ft | ct | ctb | bits | pay => simp only [State.spaceWrite, State.controlRegs]

/-- A legal idle control state is told by its registers. -/
theorem ControlOk.of_controlRegs {t : State} (h : ControlOk s) (hr : s.running = none)
    (ht : t.controlRegs = s.controlRegs) : ControlOk t := by
  simp only [State.controlRegs, Prod.mk.injEq] at ht
  obtain ⟨h₁, h₂, h₃, h₄, h₅, h₆, h₇⟩ := ht
  exact {
    idle := fun _ => by rw [h₂, h₃, h₄, h₅]; exact h.idle hr
    busy := fun w hw => by rw [h₁, hr] at hw; cases hw
    errf := by rw [h₅, h₆]; exact h.errf
    info := by rw [h₆, h₇]; exact h.info
    code := by rw [h₆]; exact h.code }

/-- A legal busy control state stays legal as the host is served under the lock-out. -/
theorem ControlOk.of_busy {w : Word} (h : ControlOk s) (hr : s.running = some w) (n d : Nat) (q : List HostEvent)
    (l : List Word) : ControlOk { s with busyLeft := n, draws := d, port := q, replies := l } where
  idle := fun hn => absurd (hr.symm.trans hn) (Option.some_ne_none w)
  busy := h.busy
  errf := h.errf
  info := h.info
  code := h.code

/-- An error's code is at most 8 (60_exceptions.md R240). -/
theorem ErrKind.code_le (k : ErrKind) : k.code.toNat ≤ 8 := by cases k <;> decide

theorem ControlOk.reset : ControlOk State.reset where
  idle := fun _ => ⟨rfl, rfl, rfl, .inl rfl⟩
  busy := fun _ hw => by cases hw
  errf := iff_of_false (by decide) (by decide)
  info := fun _ => rfl
  code := by decide

theorem ControlOk.hostReset (s : State) : ControlOk s.hostReset := ControlOk.reset.of_controlRegs rfl rfl

theorem ControlOk.accept (s : State) {w : Word} {i : Instr} (hd : decode w = .ok i) : ControlOk (s.accept w i) where
  idle := fun hn => by cases hn
  busy := fun _ hw => by cases hw; exact ⟨rfl, i, hd, rfl, rfl⟩
  errf := iff_of_false (by simp [statusBusy, statusError]) (by simp)
  info := fun _ => rfl
  code := by simp

theorem ControlOk.commandEnd (s : State) : ControlOk s.commandEnd where
  idle := fun _ => ⟨rfl, rfl, rfl, .inr (.inl rfl)⟩
  busy := fun _ hw => by cases hw
  errf := iff_of_false (by simp [statusDone, statusError]) (by simp)
  info := fun _ => rfl
  code := by simp

theorem ControlOk.errorEntry (s : State) (r : Raise) : ControlOk (s.errorEntry r) where
  idle := fun _ => ⟨rfl, rfl, rfl, .inr (.inr rfl)⟩
  busy := fun _ hw => by cases hw
  errf := iff_of_true rfl r.kind.code_ne_zero
  info := fun h => absurd h r.kind.code_ne_zero
  code := r.kind.code_le

theorem ControlOk.finish (r : Run) : ControlOk r.finish := by
  cases r with
  | ok t => exact ControlOk.commandEnd t
  | raised t e => exact ControlOk.errorEntry t e

theorem firstStage_ne_idle (i : Instr) : firstStage i ≠ .idle := by cases i <;> simp [firstStage]

/-- The phases and STATUS words of a legal control state (10_state.md R34). -/
theorem ControlOk.status_cases (h : ControlOk s) :
    (s.phase = .idle ∧ (s.status = 0 ∨ s.status = statusDone ∨ s.status = statusError)) ∨
    (s.phase ≠ .idle ∧ s.status = statusBusy) := by
  cases hr : s.running with
  | none =>
    obtain ⟨hp, -, -, hst⟩ := h.idle hr
    exact .inl ⟨hp, hst⟩
  | some w =>
    obtain ⟨hst, i, -, hp, -⟩ := h.busy w hr
    exact .inr ⟨hp ▸ firstStage_ne_idle i, hst⟩

/-- Serving a host event while idle leaves a legal control state. -/
theorem ControlOk.serve (h : ControlOk s) (hr : s.running = none) (e : HostEvent) : ControlOk (s.serve e) := by
  cases e with
  | read space index => exact h.of_controlRegs hr rfl
  | write space index data =>
    change ControlOk (s.memWrite space index data)
    rcases s.memWrite_cases space index data with hw | ⟨i, hd, hw⟩ | hw | ⟨sp, _, hw⟩ <;> rw [hw]
    · exact h
    · exact ControlOk.accept s hd
    · exact ControlOk.errorEntry s _
    · exact h.of_controlRegs hr (State.spaceWrite_controlRegs s sp _ _)
  | reset => exact ControlOk.hostReset s

/-- Serving a host event while busy leaves a legal control state, whatever the number of events still to serve. -/
theorem ControlOk.serveBusy {w : Word} (h : ControlOk s) (hr : s.running = some w) (e : HostEvent) :
    ControlOk (s.serveBusy e) := by
  rcases s.serveBusy_cases e with ⟨v, he⟩ | ⟨v, he⟩ | he | he <;> rw [he]
  · exact h.of_busy hr _ _ _ _
  · exact h.of_busy hr _ _ _ _
  · exact h
  · exact ControlOk.hostReset s

end Sys2Proof.Machine
end

section
/-! What a step is made of keeps the invariant: the end of a command and the serving of a host event. -/

namespace Sys2Proof.Machine

variable {s : State}

theorem Inv.finish_runOf (h : Inv s) (i : Instr) : Inv (runOf i s).finish where
  valid := by simpa using h.valid
  memory := Memory.wf_finish (Memory.wf_runOf h.valid h.memory i)
  control := ControlOk.finish _

theorem Inv.illegalCommand (h : Inv s) (w : Word) : Inv (s.illegalCommand w) where
  valid := h.valid
  memory := h.memory
  control := ControlOk.errorEntry s _

theorem Inv.serve (h : Inv s) (hr : s.running = none) (e : HostEvent) (rest : List HostEvent) :
    Inv (State.serve { s with port := rest } e) where
  valid := by simpa using h.valid
  memory := Memory.wf_serve (s := { s with port := rest }) h.memory e
  control := (h.control.of_controlRegs (t := { s with port := rest }) hr rfl).serve hr e

theorem Inv.serveBusy {w : Word} (h : Inv s) (hr : s.running = some w) (n : Nat) (e : HostEvent) (rest : List HostEvent) :
    Inv (State.serveBusy { s with port := rest, busyLeft := n } e) where
  valid := by simpa using h.valid
  memory := Memory.wf_serveBusy (s := { s with port := rest, busyLeft := n }) h.memory e
  control := (h.control.of_busy hr n s.draws rest s.replies).serveBusy hr e

end Sys2Proof.Machine
end

section
/-! The statements of the family 10_state.md. -/

namespace Sys2Proof.Proofs

open Sys2Proof.Machine

/-- Settles O11, over the five things a step can do. -/
theorem everyStepKeepsTheInvariant : Obligations.EveryStepKeepsTheInvariant := by
  intro s t h hs
  obtain ⟨-, -, ht⟩ | ⟨e, rest, hr, -, ht⟩ | ⟨w, e, rest, n, hr, -, -, ht⟩ | ⟨w, i, -, -, -, ht⟩ | ⟨w, r, -, -, -, ht⟩ :=
    step_cases s <;> rw [ht] at hs
  · cases hs; exact h
  · cases hs; exact h.serve hr e rest
  · cases hs; exact h.serveBusy hr n e rest
  · rw [exec_eq_runOf] at hs
    cases hs
    exact h.finish_runOf i
  · cases hs; exact h.illegalCommand w

/-! ### STATUS -/

/-- Settles O12, for each STATUS a legal control state can have. -/
theorem statusAgreesWithPhaseAndErr : Obligations.StatusAgreesWithPhaseAndErr := by
  intro s h
  rw [← h.control.errf]
  rcases h.control.status_cases with ⟨hp, hst | hst | hst⟩ | ⟨hp, hst⟩ <;>
    simp [State.busy, State.errf, hp, hst, statusBusy, statusDone, statusError]

/-! ### Reset -/

/-- Settles O10. -/
theorem resetMeetsTheInvariant : Obligations.ResetMeetsTheInvariant where
  valid := by decide
  memory := Memory.wf_reset
  control := ControlOk.reset

/-- Settles O13: R41's values, register by register. -/
theorem resetStateIsTheSpecs : Obligations.ResetStateIsTheSpecs :=
  ⟨by decide, rfl, rfl, rfl, rfl, rfl, rfl, rfl, rfl, rfl⟩

end Sys2Proof.Proofs
end

section
/-! The rules of the host port: how the bits of a list stand in a BITS or CTB word (20_memory.md R69, R70), what an
entry of NODE and CT reads as (R68, R69), what an access comes to, and what a stored word leaves
unchanged (R60 to R64). -/

namespace Sys2Proof.Machine

variable {s t : State}

/-! ### Words of bits -/

/-- The number read off `k` bits, first bit most significant. -/
theorem testBit_foldl_bits (f : Nat → Bool) (k i : Nat) :
    ((List.range k).foldl (fun acc t => 2 * acc + (f t).toNat) 0).testBit i = (decide (i < k) && f (k - 1 - i)) := by
  induction k generalizing i with
  | zero => simp
  | succ k ih =>
    rw [List.range_succ, List.foldl_append]
    cases i with
    | zero => cases hf : f k <;> simp [Nat.testBit_zero, hf]
    | succ i =>
      have hhalf : ∀ n : Nat, (2 * n + (f k).toNat) / 2 = n := fun n => by cases f k <;> simp; omega
      simp only [List.foldl_cons, List.foldl_nil, Nat.testBit_succ, hhalf, ih]
      simp [show k - 1 - i = k - (i + 1) by omega]

/-- Bit `31 − n` of a word of bits is the list's bit `n`, zero past the list's end (20_memory.md R69, R70). -/
theorem wordOfBits_getLsbD (l : List Bool) {n : Nat} (hn : n < 32) : (wordOfBits l).getLsbD (31 - n) = l.getD n false := by
  rw [wordOfBits, BitVec.getLsbD_ofNat, testBit_foldl_bits fun t => l.getD t false]
  simp [show 31 - n < 32 by omega, show 31 - (31 - n) = n by omega]

/-- Two words with the same bits, counted from the most significant, are equal. -/
theorem eq_of_msbBit_eq {v w : Word} (h : ∀ n < 32, msbBit v n = msbBit w n) : v = w := by
  apply BitVec.eq_of_getLsbD_eq
  intro i hi
  simpa only [msbBit, show 31 - (31 - i) = i by omega] using h (31 - i) (by omega)

/-- A word of BITS holds its 32 bits, the first most significant (20_memory.md R70). -/
theorem State.bitsWord_getLsbD (s : State) (x : Nat) {n : Nat} (hn : n < 32) :
    (s.bitsWord x).getLsbD (31 - n) = s.bitAt (32 * x + n) := by
  simp [State.bitsWord, wordOfBits_getLsbD _ hn, List.getD_eq_getElem?_getD, hn]

/-- A word of CTB holds 32 bits of its entry's code, the first most significant (20_memory.md R69). -/
theorem State.ctbWord_getLsbD (s : State) (x : Nat) {n : Nat} (hn : n < 32) :
    (s.ctbWord x).getLsbD (31 - n) = s.codeBit (x / s.cfg.codeWords) (32 * (x % s.cfg.codeWords) + n) := by
  unfold State.ctbWord State.codeBit
  cases lookupCell s.ctb.cells (x / s.cfg.codeWords) with
  | some code => simp [wordOfBits_getLsbD _ hn, List.getD_eq_getElem?_getD]
  | none =>
    have hword : x / s.cfg.codeWords * s.cfg.codeWords + (32 * (x % s.cfg.codeWords) + n) / 32 = x := by
      rw [show (32 * (x % s.cfg.codeWords) + n) / 32 = x % s.cfg.codeWords by omega, Nat.mul_comm, Nat.div_add_mod]
    simp only [hword, msbBit, show (32 * (x % s.cfg.codeWords) + n) % 32 = n by omega]

/-! ### Entries of NODE and CT -/

theorem State.ctAt_sym_lt (h : Memory.wf s) (j : Nat) : (s.ctAt j).sym.toNat < 2 ^ s.cfg.symW := by
  obtain ⟨-, -, -, ⟨-, -, hct⟩, -⟩ := h
  exact Buf.get_cases (P := fun e : CtEntry => e.sym.toNat < 2 ^ s.cfg.symW) (fun p hp _ => hct p hp) (symTrunc_lt _ _)

/-- The `kind` word of an entry is its kind bit, zero-extended (20_memory.md R63, R68). -/
theorem State.nodeWord_kind (h : Memory.wf s) (k : Nat) : s.nodeWord (8 * k) = if (s.nodeAt k).leaf then 1 else 0 := by
  have hw : s.nodeWord (8 * k) &&& 1#32 = s.nodeWord (8 * k) := by
    simpa [nodeTrunc] using State.nodeWord_trunc h (8 * k)
  rw [BitVec.and_one_eq_setWidth_ofBool_getLsbD] at hw
  change _ = if (s.nodeWord (8 * k)).getLsbD 0 then 1 else 0
  rw [← hw]
  cases (s.nodeWord (8 * k)).getLsbD 0 <;> rfl

/-- Word `f` of entry `k` of NODE is the entry's field `f`, `kind` zero-extended (20_memory.md R63, R68). -/
theorem State.nodeWord_eq_field (h : Memory.wf s) (k : Nat) {f : Nat} (hf : f < 5) :
    s.nodeWord (8 * k + f) = [if (s.nodeAt k).leaf then 1 else 0, (s.nodeAt k).sym, (s.nodeAt k).weight,
      (s.nodeAt k).left, (s.nodeAt k).right].getD f 0 := by
  match f with
  | 0 => exact State.nodeWord_kind h k
  | 1 | 2 | 3 | 4 => rfl

/-! ### Accesses -/

/-- The spaces 8 to 15 are reserved (20_memory.md R60). -/
theorem spaceOf_eq_none {sp : BitVec 4} (h : 8 ≤ sp.toNat) : spaceOf sp = none := by
  revert sp
  decide

/-- A space has one number (20_memory.md R60). -/
theorem spaceOf_inj {sp sp' : BitVec 4} {k : Space} (h : spaceOf sp = some k) (h' : spaceOf sp' = some k) : sp = sp' := by
  revert sp sp' k
  decide

/-- A read of a space (20_memory.md R61, R64). -/
theorem State.memRead_eq {sp : BitVec 4} {k : Space} (h : spaceOf sp = some k) (s : State) (x : Word) :
    s.memRead sp x = if x.toNat < spaceWords s.cfg k then s.spaceRead k x.toNat else 0 := by
  simp only [State.memRead, h]

theorem State.memRead_of_lt {sp : BitVec 4} {k : Space} (h : spaceOf sp = some k) {x : Word}
    (hx : x.toNat < spaceWords s.cfg k) : s.memRead sp x = s.spaceRead k x.toNat := by
  rw [State.memRead_eq h, if_pos hx]

/-- A write of a space other than to CMD (20_memory.md R61, R64). -/
theorem State.memWrite_eq {sp : BitVec 4} {k : Space} (h : spaceOf sp = some k) (s : State) {x : Word} (d : Word)
    (hc : ¬ (k = .csr ∧ x = 0)) :
    s.memWrite sp x d = if x.toNat < spaceWords s.cfg k then s.spaceWrite k x.toNat d else s := by
  simp only [State.memWrite, h, if_neg hc]

theorem State.memRead_reserved {sp : BitVec 4} (h : spaceOf sp = none) (s : State) (x : Word) : s.memRead sp x = 0 := by
  simp only [State.memRead, h]

theorem State.memWrite_reserved {sp : BitVec 4} (h : spaceOf sp = none) (s : State) (x d : Word) :
    s.memWrite sp x d = s := by
  simp only [State.memWrite, h]

/-- A write that leaves every word of the space as it was leaves the state, inside the space and past it. -/
theorem State.memWrite_ignored {sp : BitVec 4} {k : Space} (h : spaceOf sp = some k) {x d : Word}
    (hc : ¬ (k = .csr ∧ x = 0)) (hw : s.spaceWrite k x.toNat d = s) : s.memWrite sp x d = s := by
  rw [State.memWrite_eq h s d hc, hw, ite_self]

/-- A write other than to CMD is ignored or stores one word of its space. -/
theorem State.memWrite_store_cases (s : State) {sp : BitVec 4} {x : Word} (d : Word) (hc : sp = 0 → x ≠ 0) :
    s.memWrite sp x d = s ∨
    ∃ k, spaceOf sp = some k ∧ s.memWrite sp x d = s.spaceWrite k x.toNat d := by
  cases h : spaceOf sp with
  | none => exact .inl (State.memWrite_reserved h s x d)
  | some k =>
    have hc' : ¬ (k = .csr ∧ x = 0) := fun ⟨hk, hx⟩ => hc (spaceOf_inj h (hk ▸ rfl)) hx
    rw [State.memWrite_eq h s d hc']
    split
    · exact .inr ⟨k, rfl, rfl⟩
    · exact .inl rfl

/-- A word just written to its space. -/
theorem State.memRead_memWrite {sp : BitVec 4} {k : Space} (hk : spaceOf sp = some k) (s : State) {x : Word} (d : Word)
    (hc : ¬ (k = .csr ∧ x = 0)) (hx : x.toNat < spaceWords s.cfg k) :
    (s.memWrite sp x d).memRead sp x = (s.spaceWrite k x.toNat d).spaceRead k x.toNat := by
  rw [State.memWrite_eq hk s d hc, if_pos hx, State.memRead_of_lt hk (by rwa [State.spaceWrite_cfg])]

/-! ### What a stored word leaves unchanged -/

theorem State.csrRead_csrWrite_of_ne (s : State) {x x' : Nat} (h : x' ≠ x) (d : Word) :
    (s.csrWrite x d).csrRead x' = s.csrRead x' := by
  unfold State.csrWrite
  split
  case h_6 => rfl
  all_goals unfold State.csrRead; split <;> simp_all

/-- A bit of BITS outside the written word (20_memory.md R70). -/
theorem State.bitAt_spaceWrite_of_ne (s : State) {x k : Nat} (h : k / 32 ≠ x) (d : Word) :
    (s.spaceWrite .bits x d).bitAt k = s.bitAt k := by
  simp only [State.bitAt, State.spaceWrite, Buf.putAll_epoch]
  exact Buf.get_putAll_of_not_mem (fun p hp hk => h (by rw [← hk, mem_bitsCells hp])) _

/-- Bit `n` of the written word (20_memory.md R70). -/
theorem State.bitAt_spaceWrite_same (s : State) (x : Nat) (d : Word) {n : Nat} (hn : n < 32) :
    (s.spaceWrite .bits x d).bitAt (32 * x + n) = msbBit d n := by
  refine Buf.get_putAll_of_mem (List.mem_map_of_mem (f := fun t => (32 * x + t, msbBit d t)) (List.mem_range.2 hn))
    (fun b hb => ?_) _
  obtain ⟨n', -, hb⟩ := List.mem_map.1 hb
  obtain ⟨hn', rfl⟩ := Prod.mk.inj hb
  rw [show n' = n by omega]

/-- Every other word of the written space reads as before. -/
theorem State.spaceRead_spaceWrite_of_index_ne (s : State) (k : Space) {x x' : Nat} (h : x' ≠ x) (d : Word) :
    (s.spaceWrite k x d).spaceRead k x' = s.spaceRead k x' := by
  cases k with
  | csr => exact s.csrRead_csrWrite_of_ne h d
  | ft | ct | ctb => rfl
  | txt => simp [State.spaceRead, State.spaceWrite, State.txtAt, Buf.get_put, h.symm]
  | node =>
    by_cases hf : x % 8 < 5
    · simp [State.spaceRead, State.spaceWrite, State.nodeWord, Buf.get_put, hf, h.symm]
    · simp only [State.spaceWrite, if_neg hf]
  | bits =>
    refine congrArg wordOfBits (List.map_congr_left fun n hn => s.bitAt_spaceWrite_of_ne ?_ d)
    have := List.mem_range.1 hn
    omega
  | pay => simp [State.spaceRead, State.spaceWrite, State.payAt, Buf.get_put, h.symm]

/-- Two states hold the same behind a space: its buffer, or every CSR. -/
def SameBuffer (k : Space) (s t : State) : Prop :=
  match k with
  | .csr => ∀ x, t.csrRead x = s.csrRead x
  | .txt => t.txt = s.txt
  | .ft => t.ft = s.ft
  | .node => t.node = s.node
  | .ct => t.ct = s.ct
  | .ctb => t.ctb = s.ctb
  | .bits => t.bits = s.bits
  | .pay => t.pay = s.pay

/-- A word of a space is told by its buffer and the parameters. -/
theorem SameBuffer.spaceRead_eq {k : Space} (h : SameBuffer k s t) (hc : t.cfg = s.cfg) (x : Nat) :
    t.spaceRead k x = s.spaceRead k x := by
  cases k with
  | csr => exact h x
  | txt => simp only [State.spaceRead, State.txtAt, show t.txt = s.txt from h, hc]
  | ft => simp only [State.spaceRead, State.ftAt, show t.ft = s.ft from h, hc]
  | node => simp only [State.spaceRead, State.nodeWord, show t.node = s.node from h, hc]
  | ct => simp only [State.spaceRead, State.ctAt, show t.ct = s.ct from h, hc]
  | ctb => simp only [State.spaceRead, State.ctbWord, show t.ctb = s.ctb from h, hc]
  | bits => simp only [State.spaceRead, State.bitsWord, State.bitAt, show t.bits = s.bits from h]
  | pay => simp only [State.spaceRead, State.payAt, show t.pay = s.pay from h]

theorem SameBuffer.refl (k : Space) (s : State) : SameBuffer k s s := by
  cases k with
  | csr => exact fun _ => rfl
  | txt | ft | node | ct | ctb | bits | pay => exact Eq.refl _

theorem SameBuffer.trans {k : Space} {u : State} (h : SameBuffer k s t) (h' : SameBuffer k t u) : SameBuffer k s u := by
  cases k with
  | csr => exact fun x => (h' x).trans (h x)
  | txt | ft | node | ct | ctb | bits | pay => exact Eq.trans h' h

/-- A stored word leaves every other space. -/
theorem State.spaceWrite_sameBuffer (s : State) {k k' : Space} (h : k' ≠ k) (x : Nat) (d : Word) :
    SameBuffer k' s (s.spaceWrite k x d) := by
  cases k with
  | ft | ct | ctb => exact SameBuffer.refl k' s
  | csr =>
    simp only [State.spaceWrite, State.csrWrite]
    split <;> cases k' <;> simp_all [SameBuffer]
  | node =>
    simp only [State.spaceWrite]
    split <;> cases k' <;> simp_all [SameBuffer, State.csrRead]
  | txt | bits | pay => cases k' <;> simp_all [SameBuffer, State.spaceWrite, State.csrRead]

@[simp] theorem State.spaceWrite_replies (s : State) (k : Space) (x : Nat) (d : Word) :
    (s.spaceWrite k x d).replies = s.replies := by
  cases k with
  | csr => simp only [State.spaceWrite, State.csrWrite]; split <;> rfl
  | node => simp only [State.spaceWrite]; split <;> rfl
  | txt | ft | ct | ctb | bits | pay => simp only [State.spaceWrite]

/-- A host write does not look at the events still pending. -/
theorem State.memWrite_withPort (s : State) (q : List HostEvent) (sp : BitVec 4) (x d : Word) :
    State.memWrite { s with port := q } sp x d = { s.memWrite sp x d with port := q } := by
  unfold State.memWrite
  cases spaceOf sp with
  | none => rfl
  | some k =>
    dsimp only
    split
    · unfold State.cmdWrite
      split <;> rfl
    · split
      · cases k with
        | csr => simp only [State.spaceWrite, State.csrWrite]; split <;> rfl
        | node => simp only [State.spaceWrite]; split <;> rfl
        | txt | ft | ct | ctb | bits | pay => simp only [State.spaceWrite]
      · rfl

end Sys2Proof.Machine
end

section
/-! What a command's run leaves unchanged (20_memory.md R78), from the frames of its stages. -/

namespace Sys2Proof.Machine

variable {s t u : State} {i j : Instr}

/-- `t` agrees with `s` on every buffer and register the command does not list, on the parameters and on the host's side. -/
structure WritesOnly (i : Instr) (s t : State) : Prop where
  buffer : ∀ k, k ≠ .csr → writesSpace i k = false → SameBuffer k s t
  csr : ∀ x, 4 ≤ x → writesCsr i x = false → t.csrRead x = s.csrRead x
  cfg : t.cfg = s.cfg
  port : t.port = s.port
  replies : t.replies = s.replies

theorem WritesOnly.refl (i : Instr) (s : State) : WritesOnly i s s where
  buffer k _ _ := SameBuffer.refl k s
  csr _ _ _ := rfl
  cfg := rfl
  port := rfl
  replies := rfl

theorem WritesOnly.trans (h : WritesOnly i s t) (h' : WritesOnly i t u) : WritesOnly i s u where
  buffer k hk hw := (h.buffer k hk hw).trans (h'.buffer k hk hw)
  csr x hx hw := (h'.csr x hx hw).trans (h.csr x hx hw)
  cfg := h'.cfg.trans h.cfg
  port := h'.port.trans h.port
  replies := h'.replies.trans h.replies

/-- A command that lists more leaves less. -/
theorem WritesOnly.mono (h : WritesOnly i s t) (hs : ∀ k, writesSpace j k = false → writesSpace i k = false)
    (hc : ∀ x, writesCsr j x = false → writesCsr i x = false) : WritesOnly j s t where
  buffer k hk hw := h.buffer k hk (hs k hw)
  csr x hx hw := h.csr x hx (hc x hw)
  cfg := h.cfg
  port := h.port
  replies := h.replies

/-- `s` with the outputs the command lists, STATUS, ERR, ERRINFO and the hidden state taken from `o`. -/
def State.withOutputs (i : Instr) (s o : State) : State :=
  { o with
    txt := if writesSpace i .txt then o.txt else s.txt
    ft := if writesSpace i .ft then o.ft else s.ft
    node := if writesSpace i .node then o.node else s.node
    ct := if writesSpace i .ct then o.ct else s.ct
    ctb := if writesSpace i .ctb then o.ctb else s.ctb
    bits := if writesSpace i .bits then o.bits else s.bits
    pay := if writesSpace i .pay then o.pay else s.pay
    txtLen := if writesCsr i 4 then o.txtLen else s.txtLen
    ftCnt := if writesCsr i 5 then o.ftCnt else s.ftCnt
    nodeCnt := if writesCsr i 6 then o.nodeCnt else s.nodeCnt
    root := if writesCsr i 7 then o.root else s.root
    ctCnt := if writesCsr i 8 then o.ctCnt else s.ctCnt
    bitLen := if writesCsr i 9 then o.bitLen else s.bitLen
    pad := if writesCsr i 10 then o.pad else s.pad
    payLen := if writesCsr i 11 then o.payLen else s.payLen
    origBits := if writesCsr i 12 then o.origBits else s.origBits
    compBits := if writesCsr i 13 then o.compBits else s.compBits
    ratio := if writesCsr i 14 && writesCsr i 15 then o.ratio else s.ratio
    savings := if writesCsr i 16 && writesCsr i 17 then o.savings else s.savings
    cfg := s.cfg, port := s.port, replies := s.replies }

theorem State.withOutputs_writesOnly (i : Instr) (s o : State) : WritesOnly i s (s.withOutputs i o) where
  buffer k hk hw := by
    cases k with
    | csr => exact absurd rfl hk
    | txt | ft | node | ct | ctb | bits | pay => simp [SameBuffer, State.withOutputs, hw]
  csr x hx hw := by unfold State.csrRead; split <;> simp_all [State.withOutputs]
  cfg := rfl
  port := rfl
  replies := rfl

/-- A state that is `s` with the command's outputs replaced by its own. -/
theorem WritesOnly.of_eq (h : t = s.withOutputs i t) : WritesOnly i s t := by
  rw [h]
  exact s.withOutputs_writesOnly i t

/-! ### Stages -/

/-- A stage that is a command of its own writes what the command lists. -/
theorem runStage_writesOnly (hi : i ≠ .compress) (hi' : i ≠ .decompress) (s : State) :
    WritesOnly i s (runStage (firstStage i) s).last := by
  cases i with
  | freq => rcases stageFreq_cases s with ⟨l, _, h⟩ | ⟨r, _, h⟩ <;> rw [firstStage, runStage, h] <;> exact .of_eq rfl
  | build => rcases stageBuild_cases s with ⟨_, h⟩ | ⟨_, h⟩ <;> rw [firstStage, runStage, h] <;> exact .of_eq rfl
  | gen => rcases stageGen_cases s with ⟨l, _, h⟩ | ⟨r, _, h⟩ <;> rw [firstStage, runStage, h] <;> exact .of_eq rfl
  | encode => rcases stageEncode_cases s with ⟨l, _, h⟩ | ⟨r, _, h⟩ <;> rw [firstStage, runStage, h] <;> exact .of_eq rfl
  | pack => rcases stagePack_cases s with ⟨_, h⟩ | ⟨_, h⟩ <;> rw [firstStage, runStage, h] <;> exact .of_eq rfl
  | unpack =>
    rcases stageUnpack_cases s with ⟨l, _, h⟩ | ⟨r, _, h⟩ <;> rw [firstStage, runStage, h]
    · cases l <;> exact .of_eq rfl
    · exact .of_eq rfl
  | decode => rcases stageDecode_cases s with ⟨l, _, h⟩ | ⟨r, _, h⟩ <;> rw [firstStage, runStage, h] <;> exact .of_eq rfl
  | compress => exact absurd rfl hi
  | decompress => exact absurd rfl hi'
  | clear => exact .of_eq rfl

theorem stageStats_writesOnly (s : State) : WritesOnly .compress s (stageStats s).last := by
  rcases stageStats_cases s with ⟨_, h⟩ | ⟨_, h⟩ <;> rw [h] <;> exact .of_eq rfl

theorem runStages_writesOnly {l : List Phase} (hl : ∀ p ∈ l, ∀ t, WritesOnly i t (runStage p t).last) (s : State) :
    WritesOnly i s (runStages l s).last := by
  induction l generalizing s with
  | nil => exact .refl i s
  | cons p l ih =>
    exact Run.last_andThen (hl p (by simp) s) fun t ht => ht.trans (ih (fun q hq => hl q (by simp [hq])) t)

/-! ### The facade -/

/-- What COMPRESS does not list, none of its stages' commands lists (47_facade.md R220). -/
theorem writesOnly_compress_of_stage (hi : i ∈ [.freq, .build, .gen, .encode, .pack]) (h : WritesOnly i s t) :
    WritesOnly .compress s t := by
  simp only [List.mem_cons, List.not_mem_nil, or_false] at hi
  refine h.mono (fun k hk => ?_) fun x hx => ?_
  · obtain rfl : k = .txt := by simpa [writesSpace] using hk
    rcases hi with rfl | rfl | rfl | rfl | rfl <;> rfl
  · have hx : x < 5 ∨ 17 < x := by simp [writesCsr] at hx; omega
    rcases hi with rfl | rfl | rfl | rfl | rfl <;> simp [writesCsr] <;> omega

/-- Every stage of COMPRESS writes only what COMPRESS lists. -/
theorem runStage_writesOnly_compress {p : Phase} (hp : p ∈ [.freq, .build, .gen, .encode, .pack, .stats]) (s : State) :
    WritesOnly .compress s (runStage p s).last := by
  have command (i : Instr) (hi : i ∈ [.freq, .build, .gen, .encode, .pack]) :
      WritesOnly .compress s (runStage (firstStage i) s).last :=
    writesOnly_compress_of_stage hi (runStage_writesOnly (by rintro rfl; simp at hi) (by rintro rfl; simp at hi) s)
  simp only [List.mem_cons, List.not_mem_nil, or_false] at hp
  rcases hp with rfl | rfl | rfl | rfl | rfl | rfl
  · exact command .freq (by simp)
  · exact command .build (by simp)
  · exact command .gen (by simp)
  · exact command .encode (by simp)
  · exact command .pack (by simp)
  · exact stageStats_writesOnly s

/-- Both stages of DECOMPRESS write only what DECOMPRESS lists (47_facade.md R223). -/
theorem runStage_writesOnly_decompress {p : Phase} (hp : p ∈ [.unpack, .decode]) (s : State) :
    WritesOnly .decompress s (runStage p s).last := by
  simp only [List.mem_cons, List.not_mem_nil, or_false] at hp
  rcases hp with rfl | rfl
  · exact (runStage_writesOnly (i := .unpack) (by simp) (by simp) s).mono (fun k => by simp +contextual [writesSpace])
      fun x _ => rfl
  · exact (runStage_writesOnly (i := .decode) (by simp) (by simp) s).mono (fun k => by simp +contextual [writesSpace])
      fun x hx => hx

theorem mem_stagesAfterFreq {p : Phase} (hp : p ∈ stagesAfterFreq s) : p ∈ [.build, .gen, .encode, .pack, .stats] := by
  unfold stagesAfterFreq at hp
  split at hp
  · exact List.mem_singleton.1 hp ▸ by simp
  · exact hp

/-! ### Every command -/

/-- A command's run writes only what the command lists. -/
theorem runOf_writesOnly (i : Instr) (s : State) : WritesOnly i s (runOf i s).last := by
  cases i with
  | compress =>
    exact Run.last_andThen (runStage_writesOnly_compress (p := .freq) (by simp) s) fun t ht => ht.trans
      (runStages_writesOnly (fun p hp => runStage_writesOnly_compress (List.mem_cons_of_mem _ (mem_stagesAfterFreq hp))) t)
  | decompress => exact runStages_writesOnly (fun p hp => runStage_writesOnly_decompress hp) s
  | freq | build | gen | encode | pack | unpack | decode | clear => exact runStage_writesOnly (by simp) (by simp) s

/-- A command's end writes STATUS, ERR, ERRINFO and the hidden state only (40_command_dispatch.md R122, 60_exceptions.md
R253). -/
theorem Run.finish_writesOnly (i : Instr) (r : Run) : WritesOnly i r.last r.finish := by
  cases r with
  | ok t => cases i <;> exact .of_eq rfl
  | raised t e => cases i <;> exact .of_eq rfl

end Sys2Proof.Machine
end

section
/-! The statements of the family 20_memory.md. -/

namespace Sys2Proof.Proofs

open Sys2Proof.Machine

/-- Settles O7: under the lock-out a STATUS read returns BUSY alone, which a legal control state holds, every other read
draws a free value, and a write does nothing. -/
theorem hostIsLockedOutWhileBusy : Obligations.HostIsLockedOutWhileBusy := by
  intro s e rest w n h hr hp hb he
  obtain ⟨hst, -⟩ := h.busy w hr
  refine ⟨State.serveBusy { s with port := rest, busyLeft := n } e, by simp only [step, advance, hr, hp, hb], ?_⟩
  cases e with
  | read sp x =>
    by_cases hs : spaceOf sp = some .csr ∧ x = 1
    · simp only [State.serveBusy, if_pos hs]
      exact ⟨rfl, fun _ => congrArg (· :: s.replies) hst, fun _ _ _ => ⟨_, rfl⟩, fun _ _ _ hw => by cases hw⟩
    · simp only [State.serveBusy, if_neg hs]
      exact ⟨rfl, fun hread => by cases hread; exact absurd ⟨rfl, rfl⟩ hs, fun _ _ _ => ⟨_, rfl⟩,
        fun _ _ _ hw => by cases hw⟩
  | write sp x d => exact ⟨rfl, fun hread => by simp at hread, fun _ _ hread => by simp at hread, fun _ _ _ _ => rfl⟩
  | reset => exact absurd rfl he

/-- Settles O16: a reserved space has no words, an access past a space is ignored, and a write of a read-only place stores
nothing. -/
theorem reservedAccessesReadZeroAndIgnoreWrites : Obligations.ReservedAccessesReadZeroAndIgnoreWrites := by
  intro s sp x d
  refine ⟨fun h => ?_, fun k hk hx => ?_, ?_, ?_, ?_, ?_⟩
  · exact ⟨State.memRead_reserved (spaceOf_eq_none h) s x, State.memWrite_reserved (spaceOf_eq_none h) s x d⟩
  · have hc : ¬ (k = .csr ∧ x = 0) := by
      rintro ⟨rfl, rfl⟩
      simp [spaceWords] at hx
    rw [State.memRead_eq hk, State.memWrite_eq hk s d hc, if_neg (by omega), if_neg (by omega)]
    exact ⟨rfl, rfl⟩
  · rintro rfl hf
    have hf : ¬ x.toNat % 8 < 5 := by omega
    refine ⟨?_, State.memWrite_ignored (k := .node) rfl (by simp) (if_neg hf)⟩
    rw [State.memRead_eq (k := .node) rfl, State.spaceRead, if_neg hf, ite_self]
  · rintro (rfl | rfl | rfl)
    · exact State.memWrite_ignored (k := .ft) rfl (by simp) rfl
    · exact State.memWrite_ignored (k := .ct) rfl (by simp) rfl
    · exact State.memWrite_ignored (k := .ctb) rfl (by simp) rfl
  · rintro rfl hx
    have hc : ¬ (Space.csr = .csr ∧ x = 0) := by rintro ⟨-, rfl⟩; simp at hx
    refine State.memWrite_ignored rfl hc ?_
    simp only [List.mem_cons, List.not_mem_nil, or_false] at hx
    rcases hx with hx | hx | hx | hx | hx | hx | hx | hx | hx | hx | hx | hx <;> rw [hx] <;> rfl
  · rintro rfl rfl
    rfl

/-- Settles O18: a store leaves every other word of its own space and every other space. -/
theorem hostWriteLeavesEveryOtherWord : Obligations.HostWriteLeavesEveryOtherWord := by
  refine ⟨fun s sp sp' x x' d hc hne => ?_, fun s rest sp x d hr hp hc => ?_⟩
  · obtain hw | ⟨k, hk, hw⟩ := s.memWrite_store_cases d hc <;> rw [hw]
    cases hk' : spaceOf sp' with
    | none => rw [State.memRead_reserved hk', State.memRead_reserved hk']
    | some k' =>
      rw [State.memRead_eq hk', State.memRead_eq hk', State.spaceWrite_cfg]
      congr 1
      by_cases hkk : k' = k
      · subst hkk
        have hx : x' ≠ x := hne.resolve_left fun h => h (spaceOf_inj hk' hk)
        exact s.spaceRead_spaceWrite_of_index_ne _ (fun h => hx (BitVec.eq_of_toNat_eq h)) d
      · exact (s.spaceWrite_sameBuffer hkk x.toNat d).spaceRead_eq (s.spaceWrite_cfg k _ d) _
  · have hstep : step s = .next { s.memWrite sp x d with port := rest } := by
      rw [← State.memWrite_withPort]
      simp only [step, advance, hr, hp, State.serve]
    refine ⟨_, hstep, rfl, ?_⟩
    obtain hw | ⟨k, -, hw⟩ := s.memWrite_store_cases d hc <;> rw [hw]
    · exact ⟨rfl, rfl, hr, rfl, rfl⟩
    · have hregs := s.spaceWrite_controlRegs k x.toNat d
      simp only [State.controlRegs, Prod.mk.injEq] at hregs
      obtain ⟨hrun, hphase, hwork, -⟩ := hregs
      exact ⟨hphase, hwork, hrun.trans hr, s.spaceWrite_cfg k _ d, s.spaceWrite_replies k _ d⟩

/-- Settles O17, space by space. -/
theorem hostWriteReadsBackTruncated : Obligations.HostWriteReadsBackTruncated := by
  intro s x d
  refine ⟨fun hx => ?_, fun hx => ?_, fun hx => ?_, fun hx => ?_, fun hx => ?_⟩
  · rw [State.memRead_memWrite (k := .txt) rfl s d (by simp) hx]
    simp [State.spaceRead, State.spaceWrite, State.txtAt, Buf.get_put, symTrunc]
  · have hnode : x.toNat % 8 < 5 → (s.memWrite 3 x d).memRead 3 x = nodeTrunc s.cfg (x.toNat % 8) d := fun hf => by
      rw [State.memRead_memWrite (k := .node) rfl s d (by simp) hx]
      simp [State.spaceRead, State.spaceWrite, State.nodeWord, Buf.get_put, hf]
    refine ⟨fun hf => ?_, fun hf => ?_, fun h₂ h₄ => ?_⟩
    · rw [hnode (by omega), hf]; rfl
    · rw [hnode (by omega), hf]; rfl
    · rw [hnode (by omega)]
      obtain ⟨f, hf⟩ : ∃ f, x.toNat % 8 = f + 2 := ⟨x.toNat % 8 - 2, by omega⟩
      rw [hf]; rfl
  · rw [State.memRead_memWrite (k := .bits) rfl s d (by simp) hx]
    refine eq_of_msbBit_eq fun n hn => ?_
    exact (State.bitsWord_getLsbD _ _ hn).trans (s.bitAt_spaceWrite_same _ d hn)
  · rw [State.memRead_memWrite (k := .pay) rfl s d (by simp) hx]
    have hlow : (d.setWidth 8).setWidth 32 = d &&& 0xFF#32 := by
      apply BitVec.eq_of_toNat_eq
      have hand : d.toNat &&& 255 = d.toNat % 256 := Nat.and_two_pow_sub_one_eq_mod d.toNat 8
      simp only [BitVec.toNat_and, BitVec.toNat_setWidth, BitVec.toNat_ofNat, Nat.reducePow, Nat.reduceMod, hand]
      omega
    simp [State.spaceRead, State.spaceWrite, State.payAt, Buf.get_put, hlow]
  · simp only [List.mem_cons, List.not_mem_nil, or_false] at hx
    have hc : ¬ (Space.csr = .csr ∧ x = 0) := by rintro ⟨-, rfl⟩; simp at hx
    rw [State.memRead_memWrite rfl s d hc (by simp only [spaceWords]; omega)]
    rcases hx with hx | hx | hx | hx | hx <;> rw [hx] <;> rfl

/-- Settles O15: a read is a reply, and each space's words are read off its elements. -/
theorem hostReadHasNoSideEffect : Obligations.HostReadHasNoSideEffect := by
  refine ⟨fun s rest sp x hr hp => ?_, fun s => rfl, fun s x => ?_, fun s x h hx hf => ?_, fun s j h => ?_⟩
  · simp only [step, advance, hr, hp]
    rfl
  · refine ⟨fun hx => State.memRead_of_lt (k := .txt) rfl hx, fun hx => State.memRead_of_lt (k := .ft) rfl hx,
      fun hx => State.memRead_of_lt (k := .ct) rfl hx, fun hx n hn => ?_, fun hx n hn => ?_,
      fun hx => State.memRead_of_lt (k := .pay) rfl hx⟩
    · rw [State.memRead_of_lt (k := .ctb) rfl hx]
      exact s.ctbWord_getLsbD x.toNat hn
    · rw [State.memRead_of_lt (k := .bits) rfl hx]
      exact s.bitsWord_getLsbD x.toNat hn
  · rw [State.memRead_of_lt (k := .node) rfl hx, State.spaceRead, if_pos hf,
      ← State.nodeWord_eq_field h.memory (x.toNat / 8) hf, Nat.div_add_mod]
  · exact ⟨State.txtAt_lt h.memory j, State.ftAt_sym_lt h.memory j, State.nodeAt_sym_lt h.memory j,
      State.ctAt_sym_lt h.memory j⟩

/-- Settles O20: a command's run and its end write only what the command lists, so every other word is told by an unchanged
buffer. -/
theorem commandsWriteOnlyTheirOutputs : Obligations.CommandsWriteOnlyTheirOutputs := by
  intro i s t ht
  rw [exec_eq_runOf] at ht
  cases ht
  have h := (runOf_writesOnly i s).trans (Run.finish_writesOnly i _)
  exact ⟨fun k x hk hw => (h.buffer k hk hw).spaceRead_eq h.cfg x, h.csr, h.cfg, h.port, h.replies⟩

end Sys2Proof.Proofs
end

section
/-! Bits into bytes and back (30_encoding.md R96), and the text-safe form with its inverse (R97 to R99). -/

namespace Sys2Proof.Machine

/-! ### Bits and bytes -/

theorem toNat_byteOfBits (b₀ b₁ b₂ b₃ b₄ b₅ b₆ b₇ : Bool) :
    (byteOfBits b₀ b₁ b₂ b₃ b₄ b₅ b₆ b₇).toNat =
      128 * b₀.toNat + 64 * b₁.toNat + 32 * b₂.toNat + 16 * b₃.toNat + 8 * b₄.toNat + 4 * b₅.toNat
        + 2 * b₆.toNat + b₇.toNat := by
  revert b₀ b₁ b₂ b₃ b₄ b₅ b₆ b₇
  decide

/-- Byte `m` weighs the bits from `8 * m` on, the first most (R96). -/
theorem toNat_getD_bytesOfBits (l : List Bool) {m : Nat} (hm : m < l.length / 8) :
    ((bytesOfBits l).getD m 0).toNat =
      ((List.range 8).map fun j => (l.getD (8 * m + j) false).toNat * 2 ^ (7 - j)).sum := by
  induction l using bytesOfBits.induct generalizing m with
  | case1 b₀ b₁ b₂ b₃ b₄ b₅ b₆ b₇ l ih =>
    cases m with
    | zero =>
      simp [bytesOfBits, toNat_byteOfBits, List.range_succ, Nat.mul_comm, Nat.add_assoc]
    | succ m =>
      rw [bytesOfBits, List.getD_cons_succ, ih (by simp only [List.length_cons] at hm; omega)]
      simp only [show ∀ j, 8 * (m + 1) + j = 8 * m + j + 1 + 1 + 1 + 1 + 1 + 1 + 1 + 1 by omega, List.getD_cons_succ]
  | case2 l hl =>
    have hlen := length_bytesOfBits l
    rw [bytesOfBits.eq_2 _ hl, List.length_nil] at hlen
    omega

theorem length_bitsOfBytes (l : List Byte) : (bitsOfBytes l).length = 8 * l.length := by
  induction l with
  | nil => rfl
  | cons b l ih => simp only [bitsOfBytes, bitsOfByte, List.length_append, List.length_cons, List.length_nil, ih]; omega

/-- The bits of a byte, from bit 7 down (R96). -/
theorem getD_bitsOfByte (b : Byte) {j : Nat} (hj : j < 8) : (bitsOfByte b).getD j false = b.getLsbD (7 - j) := by
  match j, hj with
  | 0, _ | 1, _ | 2, _ | 3, _ | 4, _ | 5, _ | 6, _ | 7, _ => rfl

theorem getD_bitsOfBytes (l : List Byte) {k : Nat} (hk : k < 8 * l.length) :
    (bitsOfBytes l).getD k false = (l.getD (k / 8) 0).getLsbD (7 - k % 8) := by
  induction l generalizing k with
  | nil => simp at hk
  | cons b l ih =>
    rw [bitsOfBytes]
    by_cases h : k < 8
    · rw [List.getD_append _ _ _ _ h, getD_bitsOfByte b h, Nat.div_eq_of_lt h, Nat.mod_eq_of_lt h, List.getD_cons_zero]
    · obtain ⟨n, rfl⟩ := Nat.exists_eq_add_of_le' (Nat.not_lt.1 h)
      rw [List.getD_append_right _ _ _ _ (Nat.le_add_left 8 n), show n + 8 - (bitsOfByte b).length = n from rfl,
        ih (by simp only [List.length_cons] at hk; omega), Nat.add_div_right n (by decide), List.getD_cons_succ,
        Nat.add_mod_right]

/-! ### The alphabet -/

/-- The ranges of `A` and the table of R98 agree. -/
theorem b64Char_eq_b64Letter : ∀ x : BitVec 6, b64Char x.toNat = b64Letter x := by decide

/-- The pad character is no letter (R98). -/
theorem b64Char_ne_padChar : ∀ x < 64, b64Char x ≠ padChar := by decide

theorem b64Value_b64Char : ∀ x < 64, b64Value (b64Char x) = some x := by decide

theorem b64Char_of_b64Value : ∀ c : Byte, ∀ a ∈ b64Value c, a < 64 ∧ b64Char a = c := by decide

theorem sextet_lt (v lo : Nat) : sextet v lo < 64 := Nat.mod_lt _ (by decide)

@[simp] theorem b64Value_b64Char_sextet (v lo : Nat) : b64Value (b64Char (sextet v lo)) = some (sextet v lo) :=
  b64Value_b64Char _ (sextet_lt v lo)

@[simp] theorem b64Char_sextet_ne_padChar (v lo : Nat) : b64Char (sextet v lo) ≠ padChar :=
  b64Char_ne_padChar _ (sextet_lt v lo)

/-! ### The slices of a group -/

theorem toNat_append_eq_add {m n : Nat} (x : BitVec m) (y : BitVec n) :
    (x ++ y).toNat = x.toNat * 2 ^ n + y.toNat := by
  rw [BitVec.toNat_append, ← Nat.shiftLeft_add_eq_or_of_lt y.isLt, Nat.shiftLeft_eq]

/-- Six bits of a group, and their character (R97). -/
theorem b64Letter_extractLsb' {n : Nat} (v : BitVec n) (lo : Nat) :
    b64Letter (v.extractLsb' lo 6) = b64Char (sextet v.toNat lo) := by
  rw [← b64Char_eq_b64Letter, BitVec.extractLsb'_toNat, Nat.shiftRight_eq_div_pow]
  rfl

/-- The four digits of a group, from the top down. -/
theorem sextets_add {v : Nat} (h : v < 2 ^ 24) :
    sextet v 18 * 2 ^ 18 + sextet v 12 * 2 ^ 12 + sextet v 6 * 2 ^ 6 + sextet v 0 = v := by
  simp only [sextet]; omega

theorem encGroup_of_digits {a b c d : Nat} (ha : a < 64) (hb : b < 64) (hc : c < 64) (hd : d < 64) :
    encGroup (a * 2 ^ 18 + b * 2 ^ 12 + c * 2 ^ 6 + d) = [b64Char a, b64Char b, b64Char c, b64Char d] := by
  simp only [encGroup, sextet]
  congr <;> omega

theorem toNat_octet (v lo : Nat) : (octet v lo).toNat = v / 2 ^ lo % 256 := BitVec.toNat_ofNat _ _

theorem octet_eq_of {v lo : Nat} {x : Byte} (h : v / 2 ^ lo % 256 = x.toNat) : octet v lo = x :=
  BitVec.eq_of_toNat_eq ((toNat_octet v lo).trans h)

/-! ### B64Dec inverts B64Enc -/

/-- The characters of a group decode to its three bytes (R99). -/
theorem decGroup_sextets {v : Nat} (h : v < 2 ^ 24) :
    decGroup (b64Char (sextet v 18)) (b64Char (sextet v 12)) (b64Char (sextet v 6)) (b64Char (sextet v 0)) =
      some [octet v 16, octet v 8, octet v 0] := by
  simp only [decGroup, b64Value_b64Char_sextet, sextets_add h]

/-- A group that does not end in the pad character is decoded alike in every place (R99). -/
theorem b64Dec_cons_group {p q r s : Byte} (hs : s ≠ padChar) (rest : List Byte) :
    b64Dec (p :: q :: r :: s :: rest) = (decGroup p q r s).bind fun g => (b64Dec rest).map (g ++ ·) := by
  cases rest with
  | nil =>
    rw [b64Dec.eq_2, decLast, if_neg hs]
    cases decGroup p q r s <;> simp [b64Dec]
  | cons t rest =>
    rw [b64Dec.eq_3 _ _ _ _ _ (by simp)]
    cases decGroup p q r s <;> cases b64Dec (t :: rest) <;> rfl

/-- B64Dec of an encoding (R99). -/
theorem b64Dec_b64Enc (l : List Byte) : b64Dec (b64Enc l) = some l := by
  induction l using b64Enc.induct with
  | case1 => rfl
  | case2 x =>
    have hz : sextet (x.toNat * 2 ^ 4) 0 % 16 = 0 := by simp only [sextet]; omega
    simp only [b64Enc, b64Dec, decLast, b64Value_b64Char_sextet, ↓reduceIte, if_pos hz]
    rw [octet_eq_of (x := x)]
    simp only [sextet]
    omega
  | case3 x y =>
    have hz : sextet (x.toNat * 2 ^ 10 + y.toNat * 2 ^ 2) 0 % 4 = 0 := by simp only [sextet]; omega
    simp only [b64Enc, b64Dec, decLast, b64Value_b64Char_sextet, b64Char_sextet_ne_padChar, ↓reduceIte, if_pos hz]
    rw [octet_eq_of (x := x), octet_eq_of (x := y)] <;> simp only [sextet] <;> omega
  | case4 x y z l ih =>
    simp only [b64Enc, encGroup, List.cons_append, List.nil_append]
    rw [b64Dec_cons_group (b64Char_sextet_ne_padChar _ _), decGroup_sextets (by omega), ih, octet_eq_of (x := x),
      octet_eq_of (x := y), octet_eq_of (x := z)]
    · rfl
    all_goals omega

theorem octets_add {v : Nat} (h : v < 2 ^ 24) :
    (octet v 16).toNat * 2 ^ 16 + (octet v 8).toNat * 2 ^ 8 + (octet v 0).toNat = v := by
  simp only [toNat_octet]; omega

/-- Four characters that decode are the encoding of the three bytes (R99). -/
theorem encGroup_of_decGroup {p q r s : Byte} {g : List Byte} (h : decGroup p q r s = some g) :
    ∃ x y z, g = [x, y, z] ∧ encGroup (x.toNat * 2 ^ 16 + y.toNat * 2 ^ 8 + z.toNat) = [p, q, r, s] := by
  unfold decGroup at h
  split at h
  · rename_i a b c d ha hb hc hd
    obtain ⟨la, rfl⟩ := b64Char_of_b64Value p a ha
    obtain ⟨lb, rfl⟩ := b64Char_of_b64Value q b hb
    obtain ⟨lc, rfl⟩ := b64Char_of_b64Value r c hc
    obtain ⟨ld, rfl⟩ := b64Char_of_b64Value s d hd
    cases h
    exact ⟨_, _, _, rfl, by rw [octets_add (by omega), encGroup_of_digits la lb lc ld]⟩
  · cases h

theorem b64Enc_of_decLast {p q r s : Byte} {l : List Byte} (h : decLast p q r s = some l) : b64Enc l = [p, q, r, s] := by
  unfold decLast at h
  split at h
  · rename_i hs
    subst hs
    split at h
    · rename_i hr
      subst hr
      split at h
      · rename_i a b ha hb
        obtain ⟨la, rfl⟩ := b64Char_of_b64Value p a ha
        obtain ⟨lb, rfl⟩ := b64Char_of_b64Value q b hb
        split at h
        · cases h
          simp only [b64Enc, sextet, toNat_octet]
          congr <;> omega
        · cases h
      · cases h
    · split at h
      · rename_i a b c ha hb hc
        obtain ⟨la, rfl⟩ := b64Char_of_b64Value p a ha
        obtain ⟨lb, rfl⟩ := b64Char_of_b64Value q b hb
        obtain ⟨lc, rfl⟩ := b64Char_of_b64Value r c hc
        split at h
        · cases h
          simp only [b64Enc, sextet, toNat_octet]
          congr <;> omega
        · cases h
      · cases h
  · obtain ⟨x, y, z, rfl, hg⟩ := encGroup_of_decGroup h
    rw [b64Enc, hg]
    rfl

/-- What decodes is an encoding (R99). -/
theorem b64Enc_of_b64Dec {cs l : List Byte} (h : b64Dec cs = some l) : b64Enc l = cs := by
  induction cs using b64Dec.induct generalizing l with
  | case1 => cases h; rfl
  | case2 p q r s => exact b64Enc_of_decLast h
  | case3 p q r s rest hne g bytes hb hg ih =>
    rw [b64Dec.eq_3 _ _ _ _ _ hne, hg, hb] at h
    obtain ⟨x, y, z, rfl, he⟩ := encGroup_of_decGroup hg
    cases h
    simp only [List.cons_append, List.nil_append, b64Enc, he, ih hb]
  | case4 p q r s rest hne hnone ih =>
    rw [b64Dec.eq_3 _ _ _ _ _ hne] at h
    split at h
    · exact absurd ‹_› (hnone _ _ ‹_›)
    · cases h
  | case5 cs h₀ h₄ h₅ => rw [b64Dec.eq_4 _ h₀ h₄ h₅] at h; cases h

/-- B64Dec gives the bytes whose encoding a sequence is, and fails when there are none (R99). -/
theorem b64Dec_eq_some_iff {cs l : List Byte} : b64Dec cs = some l ↔ b64Enc l = cs :=
  ⟨b64Enc_of_b64Dec, fun h => h ▸ b64Dec_b64Enc l⟩

end Sys2Proof.Machine
end

section
/-! The statements of the family 30_encoding.md. -/

namespace Sys2Proof.Proofs

open Sys2Proof.Machine

theorem decode_encode (i : Instr) : decode (encode i) = .ok i := by
  cases i <;> rfl

/-- Settles O2: each command decodes from its encoding, and the only word that decodes to a command is that. -/
theorem decodeAcceptsExactlyTheEncodings : Obligations.DecodeAcceptsExactlyTheEncodings :=
  fun _ i => ⟨Laws.eq_encode_of_decode, fun h => h ▸ decode_encode i⟩

/-- Settles O1: the words are the encodings of the commands. -/
theorem tableWordsDecodeToTheirCommands : Obligations.TableWordsDecodeToTheirCommands :=
  ⟨decode_encode .freq, decode_encode .build, decode_encode .gen, decode_encode .encode, decode_encode .pack,
    decode_encode .unpack, decode_encode .decode, decode_encode .compress, decode_encode .decompress, decode_encode .clear⟩

/-- Settles O41. -/
theorem bytesTakeTheFirstBitMostSignificant : Obligations.BytesTakeTheFirstBitMostSignificant :=
  ⟨fun l _ => ⟨length_bytesOfBits l, fun _ => toNat_getD_bytesOfBits l⟩,
    fun l => ⟨length_bitsOfBytes l, fun _ => getD_bitsOfBytes l⟩⟩

/-- Settles O42: the slices of a group are the digits B64Enc takes, and B64Dec is its inverse. -/
theorem base64DecodesExactlyItsEncodings : Obligations.Base64DecodesExactlyItsEncodings := by
  refine ⟨b64Char_eq_b64Letter, fun x y z rest => ?_, fun x y => ?_, fun x => ?_, rfl, length_b64Enc,
    fun _ _ => b64Dec_eq_some_iff⟩
  · have hv : (x.toNat * 2 ^ 8 + y.toNat) * 2 ^ 8 + z.toNat = x.toNat * 2 ^ 16 + y.toNat * 2 ^ 8 + z.toNat := by omega
    simp only [b64Letter_extractLsb', toNat_append_eq_add, hv]
    rfl
  · have hv : (x.toNat * 2 ^ 8 + y.toNat) * 2 ^ 2 = x.toNat * 2 ^ 10 + y.toNat * 2 ^ 2 := by omega
    simp only [b64Letter_extractLsb', toNat_append_eq_add, BitVec.toNat_zero, Nat.add_zero, hv]
    rfl
  · simp only [b64Letter_extractLsb', toNat_append_eq_add]
    rfl

end Sys2Proof.Proofs
end

section
/-! How a command ends: the errors its stages can raise (60_exceptions.md R240) and the two ends of its run
(40_command_dispatch.md R122, 60_exceptions.md R253). -/

namespace Sys2Proof.Machine

variable {s : State} {r : Raise}

@[simp] theorem capacityExceeded_kind : capacityExceeded.kind = .capacityExceeded := rfl

/-! ### The errors of what the stages compute -/

theorem kind_of_freqLoop {m : Nat} {ft : List FtEntry} {t : List Symbol} (h : freqLoop m ft t = .error r) :
    r.kind ∈ raises .freq := by
  induction t generalizing ft with
  | nil => cases h
  | cons x t ih =>
    simp only [freqLoop] at h
    split at h
    · exact ih h
    · split at h
      · cases h; simp [raises]
      · exact ih h

theorem State.kind_of_freqResult (h : s.freqResult = .error r) : r.kind ∈ raises .freq := by
  unfold State.freqResult at h
  split at h
  · cases h; simp [raises]
  · exact kind_of_freqLoop h

theorem kind_of_walk {nodes : Nat → Node} {m fuel k : Nat} {path : List Bool} {ct : List CodeRow}
    (h : walk nodes m fuel k path ct = .error r) : r.kind ∈ raises .gen := by
  induction fuel generalizing k path ct with
  | zero => cases h
  | succ fuel ih =>
    have side : ∀ {child path ct}, walkSide nodes m fuel k child path ct = .error r → r.kind ∈ raises .gen := by
      intro child path ct hs
      unfold walkSide at hs
      split at hs
      · cases hs
      · split at hs
        · cases hs; simp [raises]
        · exact ih hs
    cases hk : (nodes k).leaf with
    | true =>
      rw [walk_leaf hk] at h
      split at h
      · cases h; simp [raises]
      · cases h
    | false =>
      rw [walk_internal hk] at h
      cases hl : walkSide nodes m fuel k (nodes k).left (path ++ [false]) ct with
      | error e => rw [hl] at h; cases h; exact side hl
      | ok l => rw [hl] at h; exact side h

theorem State.kind_of_genResult (h : s.genResult = .error r) : r.kind ∈ raises .gen := by
  unfold State.genResult genOf at h
  split at h
  · exact kind_of_walk h
  · cases h; simp [raises]

theorem kind_of_encodeLoop {m : Nat} {ct : List CodeRow} {i n : Nat} {t : List Symbol}
    (h : encodeLoop m ct i n t = .error r) : r.kind ∈ raises .encode := by
  induction t generalizing i n with
  | nil => cases h
  | cons x t ih =>
    simp only [encodeLoop] at h
    split at h
    · cases h; simp [raises]
    · split at h
      · cases h; simp [raises]
      · split at h
        · cases h
        · cases h; exact ih ‹_›

theorem State.kind_of_encodeResult (h : s.encodeResult = .error r) : r.kind ∈ raises .encode := by
  unfold State.encodeResult at h
  split at h
  · cases h; simp [raises]
  · exact kind_of_encodeLoop h

theorem kind_of_decodeLoop {nodes : Nat → Node} {m root k cur : Nat} {out : List Symbol} {bits : List Bool}
    (h : decodeLoop nodes m root k cur out bits = .error r) : r.kind ∈ raises .decode := by
  induction bits generalizing k cur out with
  | nil =>
    simp only [decodeLoop] at h
    split at h
    · cases h
    · cases h; simp [raises]
  | cons bit bits ih =>
    simp only [decodeLoop] at h
    split at h
    · cases h; simp [raises]
    · split at h
      · cases h; simp [raises]
      · split at h
        · split at h
          · cases h; simp [raises]
          · exact ih h
        · exact ih h

theorem State.kind_of_decodeResult (h : s.decodeResult = .error r) : r.kind ∈ raises .decode := by
  unfold State.decodeResult decodeOf at h
  split at h
  · cases h; simp [raises]
  · split at h
    · cases h
    · split at h
      · exact kind_of_decodeLoop h
      · cases h; simp [raises]

theorem State.kind_of_unpackResult (h : s.unpackResult = .error r) : r.kind ∈ raises .unpack := by
  unfold State.unpackResult unpackBits at h
  split at h
  · cases h; simp [raises]
  · split at h
    · cases h; simp [raises]
    · split at h
      · cases h; simp [raises]
      · split at h
        · cases h; simp [raises]
        · cases h

/-! ### The errors of a run -/

/-- A run that raises, if at all, an error of the list. -/
def Run.RaisesOnly (l : List ErrKind) : Run → Prop
  | .ok _ => True
  | .raised _ r => r.kind ∈ l

theorem Run.RaisesOnly.mono {l l' : List ErrKind} {run : Run} (h : run.RaisesOnly l) (hl : l ⊆ l') :
    run.RaisesOnly l' := by
  cases run with
  | ok t => trivial
  | raised t e => exact hl h

theorem Run.RaisesOnly.andThen {l : List ErrKind} {run : Run} {f : State → Run} (h : run.RaisesOnly l)
    (hf : ∀ t, (f t).RaisesOnly l) : (run.andThen f).RaisesOnly l := by
  cases run with
  | ok t => exact hf t
  | raised t e => exact h

theorem runStages_raisesOnly {l : List ErrKind} {ps : List Phase} (h : ∀ p ∈ ps, ∀ t, (runStage p t).RaisesOnly l)
    (s : State) : (runStages ps s).RaisesOnly l := by
  induction ps generalizing s with
  | nil => trivial
  | cons p ps ih => exact (h p (by simp) s).andThen fun t => ih (fun q hq => h q (by simp [hq])) t

/-- A stage that is a command of its own raises what the table lists for the command. -/
theorem runStage_raisesOnly {i : Instr} (hi : i ≠ .compress) (hi' : i ≠ .decompress) (s : State) :
    (runStage (firstStage i) s).RaisesOnly (raises i) := by
  cases i with
  | freq =>
    rcases stageFreq_cases s with ⟨l, _, h⟩ | ⟨r, hr, h⟩ <;> rw [firstStage, runStage, h]
    · trivial
    · exact State.kind_of_freqResult hr
  | build =>
    rcases stageBuild_cases s with ⟨_, h⟩ | ⟨_, h⟩ <;> rw [firstStage, runStage, h]
    · trivial
    · exact List.mem_singleton_self _
  | gen =>
    rcases stageGen_cases s with ⟨l, _, h⟩ | ⟨r, hr, h⟩ <;> rw [firstStage, runStage, h]
    · trivial
    · exact State.kind_of_genResult hr
  | encode =>
    rcases stageEncode_cases s with ⟨l, _, h⟩ | ⟨r, hr, h⟩ <;> rw [firstStage, runStage, h]
    · trivial
    · exact State.kind_of_encodeResult hr
  | pack =>
    rcases stagePack_cases s with ⟨_, h⟩ | ⟨_, h⟩ <;> rw [firstStage, runStage, h]
    · trivial
    · exact List.mem_singleton_self _
  | unpack =>
    rcases stageUnpack_cases s with ⟨l, _, h⟩ | ⟨r, hr, h⟩ <;> rw [firstStage, runStage, h]
    · trivial
    · exact State.kind_of_unpackResult hr
  | decode =>
    rcases stageDecode_cases s with ⟨l, _, h⟩ | ⟨r, hr, h⟩ <;> rw [firstStage, runStage, h]
    · trivial
    · exact State.kind_of_decodeResult hr
  | compress => exact absurd rfl hi
  | decompress => exact absurd rfl hi'
  | clear => trivial

/-- Every command but COMPRESS raises what the table lists for it; DECOMPRESS lists what its two stages do. -/
theorem runOf_raisesOnly {i : Instr} (hi : i ≠ .compress) (s : State) : (runOf i s).RaisesOnly (raises i) := by
  cases i with
  | compress => exact absurd rfl hi
  | decompress =>
    refine runStages_raisesOnly (fun p hp t => ?_) s
    simp only [List.mem_cons, List.not_mem_nil, or_false] at hp
    rcases hp with rfl | rfl
    · exact (runStage_raisesOnly (i := .unpack) (by simp) (by simp) t).mono (by simp [raises])
    · exact (runStage_raisesOnly (i := .decode) (by simp) (by simp) t).mono (by simp [raises])
  | freq | build | gen | encode | pack | unpack | decode | clear => exact runStage_raisesOnly hi (by simp) s

/-! ### The two ends -/

/-- A run ends without error or with an error of the list (40_command_dispatch.md R122, 60_exceptions.md R253). -/
theorem Run.RaisesOnly.finish_ended {l : List ErrKind} {run : Run} (h : run.RaisesOnly l) :
    run.finish.EndedOk ∨ ∃ kind ∈ l, ∃ info, run.finish.EndedWith kind info := by
  cases run with
  | ok t => exact .inl t.endedOk_commandEnd
  | raised t e => exact .inr ⟨e.kind, h, e.info, t.endedWith_errorEntry e⟩

/-- One of the two ends of a command. -/
def State.Ended (t : State) : Prop := t.EndedOk ∨ ∃ kind info, t.EndedWith kind info

theorem State.Ended.running {t : State} (h : t.Ended) : t.running = none := by
  rcases h with ⟨-, -, -, -, -, hr⟩ | ⟨_, _, -, -, -, -, -, hr⟩ <;> exact hr

theorem Run.finish_ended (run : Run) : run.finish.Ended := by
  cases run with
  | ok t => exact .inl t.endedOk_commandEnd
  | raised t e => exact .inr ⟨_, _, t.endedWith_errorEntry e⟩

end Sys2Proof.Machine
end

section
/-! The steps of a running command (40_command_dispatch.md R120, R121, R126) and what acceptance leaves unchanged. -/

namespace Sys2Proof.Machine

variable {s t : State} {w : Word} {i : Instr}

/-! ### Acceptance -/

theorem State.accept_sameBuffer (s : State) (w : Word) (i : Instr) {k : Space} (hk : k ≠ .csr) :
    SameBuffer k s (s.accept w i) := by
  cases k with
  | csr => exact absurd rfl hk
  | txt | ft | node | ct | ctb | bits | pay => rfl

/-- Acceptance writes no register past ERRINFO. -/
theorem State.csrRead_accept (s : State) (w : Word) (i : Instr) {x : Nat} (hx : 4 ≤ x) :
    (s.accept w i).csrRead x = s.csrRead x := by
  unfold State.csrRead
  split
  case h_1 | h_2 | h_3 => omega
  all_goals rfl

theorem State.memWrite_cmd (h : decode w = .ok i) (s : State) : s.memWrite 0 0 w = s.accept w i := by
  change s.cmdWrite w = _
  simp only [State.cmdWrite, h]

theorem State.loadWord_of_ok (h : decode w = .ok i) (s : State) :
    s.loadWord w = { s.accept w i with busyLeft := 0 } := by
  simp only [State.loadWord, h]

/-- A table word is a command word, cut to its bits. -/
theorem decode_of_decodeTableWord {nbits n : Nat} (h : decodeTableWord nbits n = some i) :
    decode (BitVec.ofNat 32 (n % 2 ^ nbits)) = .ok i := by
  unfold decodeTableWord at h
  split at h
  · split at h
    · cases h; assumption
    · cases h
  · cases h

/-! ### Running -/

/-- A command with no event to serve first is run. -/
theorem step_of_running (hr : s.running = some w) (hp : s.port = [] ∨ s.busyLeft = 0) : step s = runWord w s := by
  cases hq : s.port with
  | nil => simp only [step, advance, hr, hq]
  | cons e rest =>
    have hb : s.busyLeft = 0 := hp.resolve_left (by simp [hq])
    simp only [step, advance, hr, hq, hb]

theorem runWord_of_ok (h : decode w = .ok i) (s : State) : runWord w s = exec i s := by
  simp only [runWord, h]

/-- The word of the running command leads to an end, legal or not. -/
theorem runWord_ended (w : Word) (s : State) : ∃ t, runWord w s = .next t ∧ t.Ended := by
  cases h : decode w with
  | ok i => exact ⟨_, (runWord_of_ok h s).trans (exec_eq_runOf i s), Run.finish_ended _⟩
  | error r => exact ⟨s.illegalCommand w, by simp only [runWord, h], .inr ⟨_, _, s.endedWith_errorEntry _⟩⟩

/-- An event other than Reset served while busy leaves the command running (20_memory.md R65). -/
theorem State.serveBusy_of_ne_reset (s : State) {e : HostEvent} (he : e ≠ .reset) :
    (s.serveBusy e).running = s.running ∧ (s.serveBusy e).busyLeft = s.busyLeft ∧ (s.serveBusy e).port = s.port := by
  cases e with
  | read space index =>
    simp only [State.serveBusy]
    split <;> exact ⟨rfl, rfl, rfl⟩
  | write space index data => exact ⟨rfl, rfl, rfl⟩
  | reset => exact absurd rfl he

theorem core_run_succ (h : step s = .next t) (k : Nat) : Host.Core.run core (k + 1) s = Host.Core.run core k t := by
  simp only [Host.Core.run, show core.step s = .next t from h]

/-- At most `k` steps lead to a state in which no command runs, one of the two ends unless the host has a Reset pending
(40_command_dispatch.md R126). -/
def EndsWithin (k : Nat) (s : State) : Prop :=
  ∃ (j : Nat) (t : State), j ≤ k ∧ Host.Core.run core j s = .next t ∧ t.running = none ∧
    ((∀ e ∈ s.port, e ≠ .reset) → t.Ended)

theorem EndsWithin.of_step (h : step s = .next t) (hend : t.Ended) (k : Nat) : EndsWithin (k + 1) s :=
  ⟨1, t, Nat.le_add_left 1 k, core_run_succ h 0, hend.running, fun _ => hend⟩

theorem EndsWithin.of_reset {k : Nat} (h : step s = .next t) (hr : t.running = none) (hp : .reset ∈ s.port) :
    EndsWithin (k + 1) s :=
  ⟨1, t, Nat.le_add_left 1 k, core_run_succ h 0, hr, fun hno => absurd rfl (hno _ hp)⟩

theorem EndsWithin.succ {k : Nat} (h : step s = .next t) (hp : ∀ e ∈ t.port, e ∈ s.port) (ht : EndsWithin k t) :
    EndsWithin (k + 1) s := by
  obtain ⟨j, u, hj, hrun, hu, hend⟩ := ht
  exact ⟨j + 1, u, Nat.succ_le_succ hj, (core_run_succ h j).trans hrun, hu, fun hno => hend fun e he => hno e (hp e he)⟩

theorem EndsWithin.of_running (hr : s.running = some w) (hp : s.port = [] ∨ s.busyLeft = 0) (k : Nat) :
    EndsWithin (k + 1) s := by
  obtain ⟨t, ht, hend⟩ := runWord_ended w s
  exact .of_step ((step_of_running hr hp).trans ht) hend k

/-- A running command ends after the events served under the lock-out, or at a Reset among them, by induction on how many
are left to serve. -/
theorem endsWithin_busyLeft {n : Nat} (hr : s.running = some w) (hn : s.busyLeft = n) : EndsWithin (n + 1) s := by
  induction n generalizing s with
  | zero => exact .of_running hr (.inr hn) 0
  | succ n ih =>
    cases hq : s.port with
    | nil => exact .of_running hr (.inl hq) (n + 1)
    | cons e rest =>
      have hstep : step s = .next (State.serveBusy { s with port := rest, busyLeft := n } e) := by
        simp only [step, advance, hr, hq, hn]
      by_cases he : e = .reset
      · subst he
        exact .of_reset hstep rfl (by simp [hq])
      · obtain ⟨hrun, hleft, hport⟩ := State.serveBusy_of_ne_reset { s with port := rest, busyLeft := n } he
        exact .succ hstep (by simp +contextual [hport, hq]) (ih (hrun.trans hr) hleft)

end Sys2Proof.Machine
end

section
/-! The statements of the family 40_command_dispatch.md. -/

namespace Sys2Proof.Proofs

open Sys2Proof.Machine

/-- Settles O3. -/
theorem stepRunsTheAcceptedCommand : Obligations.StepRunsTheAcceptedCommand := by
  intro s w i hr hd hp
  rw [step_of_running hr hp, runWord_of_ok hd]

/-- Settles O4: the placed word is accepted with no event to serve first. -/
theorem placedWordRunsNext : Obligations.PlacedWordRunsNext := by
  intro s nbits n i h
  have hd := decode_of_decodeTableWord h
  rw [State.withFetchWord, State.loadWord_of_ok hd]
  exact stepRunsTheAcceptedCommand _ _ i rfl hd (.inr rfl)

/-- Settles O8: each of the five things a step can do gives a next state and keeps the parameters. -/
theorem everyStepGoesOn : Obligations.EveryStepGoesOn := by
  refine fun s => ⟨?_, fun hr hp => by simp only [step, advance, hr, hp]⟩
  obtain ⟨-, -, ht⟩ | ⟨e, rest, -, -, ht⟩ | ⟨w, e, rest, n, -, -, -, ht⟩ | ⟨w, i, -, -, -, ht⟩ | ⟨w, r, -, -, -, ht⟩ :=
    step_cases s
  · exact ⟨s, ht, rfl⟩
  · exact ⟨_, ht, State.serve_cfg _ e⟩
  · exact ⟨_, ht, State.serveBusy_cfg _ e⟩
  · exact ⟨_, ht.trans (exec_eq_runOf i s), by simp⟩
  · exact ⟨_, ht, rfl⟩

/-- Settles O5: an idle block accepts the word, and a busy one ignores the write. -/
theorem commandWordIsAcceptedWhenIdle : Obligations.CommandWordIsAcceptedWhenIdle := by
  refine ⟨fun s rest w i hr hp hd => ?_, fun s rest w w' n hr hp hb => ?_⟩
  · have hstep : step s = .next { s.accept w i with port := rest } := by
      rw [← State.memWrite_cmd hd, ← State.memWrite_withPort]
      simp only [step, advance, hr, hp, State.serve]
    exact ⟨_, hstep, rfl, rfl, rfl, rfl, rfl, rfl, rfl, rfl,
      fun k x hk => (s.accept_sameBuffer w i hk).spaceRead_eq rfl x, fun x hx => s.csrRead_accept w i hx⟩
  · simp only [step, advance, hr, hp, hb, State.serveBusy]

/-- Settles O19, from what the command's run can raise. -/
theorem commandsEndOkOrWithAListedError : Obligations.CommandsEndOkOrWithAListedError :=
  fun i s hi => ⟨_, exec_eq_runOf i s, (runOf_raisesOnly hi s).finish_ended⟩

/-- Settles O9: `busyLeft` bounds the events served before the command ends. -/
theorem everyAcceptedCommandEnds : Obligations.EveryAcceptedCommandEnds :=
  fun _ _ hr => endsWithin_busyLeft hr rfl

end Sys2Proof.Proofs
end

section
/-! What FREQ computes (41_frequency_analyzer.md R140, R141): the table of a text in closed form, and the loop that makes it
entry by entry. -/

namespace Sys2Proof.Machine

variable {s t : State} {p txt : List Symbol} {x y : Symbol}

/-! ### The distinct elements of a list in first-occurrence order -/

section
variable {α : Type} [DecidableEq α] {l : List α} {a : α}

theorem eraseDups_append_of_mem (ha : a ∈ l) : (l ++ [a]).eraseDups = l.eraseDups := by
  simp [List.eraseDups_append, List.removeAll, ha]

theorem eraseDups_append_of_not_mem (ha : a ∉ l) : (l ++ [a]).eraseDups = l.eraseDups ++ [a] := by
  simp [List.eraseDups_append, List.removeAll, ha, List.eraseDups_cons]

theorem nodup_eraseDups (l : List α) : l.eraseDups.Nodup := by
  induction l using List.reverseRecOn with
  | nil => exact List.nodup_nil
  | append_singleton l a ih =>
    by_cases ha : a ∈ l
    · rwa [eraseDups_append_of_mem ha]
    · rw [eraseDups_append_of_not_mem ha]
      exact List.concat_eq_append ▸ ih.concat fun h => ha (List.mem_eraseDups.1 h)

/-- `dedup` lists the same elements in another order. -/
theorem eraseDups_perm_dedup (l : List α) : l.eraseDups.Perm l.dedup :=
  (List.perm_ext_iff_of_nodup (nodup_eraseDups l) l.nodup_dedup).2 fun a => by
    rw [List.mem_eraseDups, List.mem_dedup]

theorem length_eraseDups_le (l : List α) : l.eraseDups.length ≤ l.length :=
  (eraseDups_perm_dedup l).length_eq ▸ (List.dedup_sublist l).length_le

theorem length_eraseDups_le_append (l l' : List α) : l.eraseDups.length ≤ (l ++ l').eraseDups.length := by
  simp [List.eraseDups_append]

end

/-! ### The table of a text -/

/-- The entry of a symbol: how many positions of the text hold it (R140). -/
def tallyRow (txt : List Symbol) (x : Symbol) : FtEntry := ⟨x, BitVec.ofNat 32 (txt.count x)⟩

/-- The frequency table of a text (R140); `State.freqResult_of_fits` ties it to FREQ. -/
def tally (txt : List Symbol) : List FtEntry := txt.eraseDups.map (tallyRow txt)

@[simp] theorem tallyRow_sym (txt : List Symbol) (x : Symbol) : (tallyRow txt x).sym = x := rfl

/-- A count within 32 bits is the number itself. -/
theorem toNat_tallyRow_count (h : txt.length < 2 ^ 32) (x : Symbol) : (tallyRow txt x).count.toNat = txt.count x :=
  toNat_ofNat_of_lt (Nat.lt_of_le_of_lt List.count_le_length h)

@[simp] theorem length_tally (txt : List Symbol) : (tally txt).length = txt.eraseDups.length := by simp [tally]

@[simp] theorem map_sym_tally (txt : List Symbol) : (tally txt).map FtEntry.sym = txt.eraseDups := by
  simp [tally, Function.comp_def]

theorem mem_tally {e : FtEntry} : e ∈ tally txt ↔ ∃ x ∈ txt, tallyRow txt x = e := by simp [tally]

theorem tally_eq_nil_iff : tally txt = [] ↔ txt = [] := by
  simp [tally, List.eq_nil_iff_forall_not_mem]

/-- The counts sum to the length of the text (R142). -/
theorem sum_count_tally (h : txt.length < 2 ^ 32) : ((tally txt).map fun e => e.count.toNat).sum = txt.length :=
  calc ((tally txt).map fun e => e.count.toNat).sum
    _ = (txt.eraseDups.map fun x => txt.count x).sum := by
      simp only [tally, List.map_map, Function.comp_def, toNat_tallyRow_count h]
    _ = (txt.dedup.map fun x => txt.count x).sum := ((eraseDups_perm_dedup txt).map _).sum_eq
    _ = txt.length := List.sum_map_count_dedup_eq_length txt

/-! ### One more symbol -/

theorem tallyRow_append_self (p : List Symbol) (x : Symbol) :
    tallyRow (p ++ [x]) x = ⟨x, (tallyRow p x).count + 1⟩ := by
  simp [tallyRow, BitVec.ofNat_add]

theorem tallyRow_append_of_ne (h : y ≠ x) : tallyRow (p ++ [x]) y = tallyRow p y := by
  simp [tallyRow, List.count_append, h.symm]

theorem countIn_eq_none {l : List FtEntry} (hx : x ∉ l.map FtEntry.sym) : countIn x l = none := by
  induction l with
  | nil => rfl
  | cons e l ih =>
    simp only [List.map_cons, List.mem_cons, not_or] at hx
    obtain ⟨he, hl⟩ := hx
    simp [countIn, Ne.symm he, ih hl]

/-- Counting a symbol in turns the rows of a text into the rows of the text with that symbol after it. -/
theorem countIn_map_tallyRow {l : List Symbol} (hl : l.Nodup) (hx : x ∈ l) :
    countIn x (l.map (tallyRow p)) = some (l.map (tallyRow (p ++ [x]))) := by
  induction l with
  | nil => cases hx
  | cons y l ih =>
    obtain ⟨hy, hl⟩ := List.nodup_cons.1 hl
    by_cases h : y = x
    · subst h
      have hrest : l.map (tallyRow (p ++ [y])) = l.map (tallyRow p) :=
        List.map_congr_left fun z hz => tallyRow_append_of_ne fun hzy => hy (hzy ▸ hz)
      simp [countIn, hrest, tallyRow_append_self]
    · have hx : x ∈ l := (List.mem_cons.1 hx).resolve_left (Ne.symm h)
      simp [countIn, h, ih hl hx, tallyRow_append_of_ne h]

/-- A symbol read before is counted in at its entry. -/
theorem countIn_tally_of_mem (hx : x ∈ p) : countIn x (tally p) = some (tally (p ++ [x])) := by
  rw [tally, countIn_map_tallyRow (nodup_eraseDups p) (List.mem_eraseDups.2 hx), tally, eraseDups_append_of_mem hx]

theorem countIn_tally_of_not_mem (hx : x ∉ p) : countIn x (tally p) = none :=
  countIn_eq_none (by simpa using hx)

theorem tally_append_of_not_mem (hx : x ∉ p) : tally (p ++ [x]) = tally p ++ [⟨x, 1⟩] := by
  have hrows : p.eraseDups.map (tallyRow (p ++ [x])) = p.eraseDups.map (tallyRow p) :=
    List.map_congr_left fun y hy => tallyRow_append_of_ne fun hyx => hx (hyx ▸ List.mem_eraseDups.1 hy)
  have hnew : tallyRow (p ++ [x]) x = ⟨x, 1⟩ := by simp [tallyRow, List.count_eq_zero.2 hx]
  rw [tally, eraseDups_append_of_not_mem hx, List.map_append, hrows, List.map_singleton, hnew, tally]

/-! ### The loop -/

/-- From the table of the symbols `p` read so far, the loop makes the table of the whole text, or raises at the first symbol
that would be entry MAX_SYMS (R141). -/
theorem freqLoop_tally {m : Nat} (hp : p.eraseDups.length ≤ m) (txt : List Symbol) :
    freqLoop m (tally p) txt =
      if (p ++ txt).eraseDups.length ≤ m then .ok (tally (p ++ txt)) else .error capacityExceeded := by
  induction txt generalizing p with
  | nil => simp [freqLoop, hp]
  | cons x txt ih =>
    have happ : p ++ x :: txt = (p ++ [x]) ++ txt := by simp
    by_cases hx : x ∈ p
    · have hp' : (p ++ [x]).eraseDups.length ≤ m := by rwa [eraseDups_append_of_mem hx]
      simp only [freqLoop, countIn_tally_of_mem hx, ih hp', happ]
    · have hlen : (p ++ [x]).eraseDups.length = p.eraseDups.length + 1 := by simp [eraseDups_append_of_not_mem hx]
      simp only [freqLoop, countIn_tally_of_not_mem hx, length_tally, happ]
      by_cases hfull : p.eraseDups.length = m
      · have := length_eraseDups_le_append (p ++ [x]) txt
        rw [if_pos hfull, if_neg (by omega)]
      · rw [if_neg hfull, ← tally_append_of_not_mem hx, ih (by omega)]

theorem freqLoop_nil (m : Nat) (txt : List Symbol) :
    freqLoop m [] txt = if txt.eraseDups.length ≤ m then .ok (tally txt) else .error capacityExceeded :=
  freqLoop_tally (p := []) (Nat.zero_le m) txt

/-! ### The command -/

/-- The text is within TXT and its distinct symbols are within FT (R141). -/
def State.TextFits (s : State) : Prop := s.txtLen.toNat ≤ s.cfg.maxTxt ∧ s.text.eraseDups.length ≤ s.cfg.maxSyms

theorem State.freqResult_of_fits (h : s.TextFits) : s.freqResult = .ok (tally s.text) := by
  obtain ⟨htxt, hsyms⟩ := h
  rw [State.freqResult, if_neg (Nat.not_lt.2 htxt), freqLoop_nil, if_pos hsyms]

theorem State.freqResult_of_not_fits (h : ¬ s.TextFits) : s.freqResult = .error capacityExceeded := by
  unfold State.freqResult
  split
  · rfl
  · next htxt => rw [freqLoop_nil, if_neg fun hsyms => h ⟨Nat.not_lt.1 htxt, hsyms⟩]

theorem exec_freq (s : State) : exec .freq s = .next (stageFreq s).finish := rfl

theorem exec_freq_of_fits (h : s.TextFits) :
    exec .freq s = .next ((s.enter .freq).writeFreq (tally s.text)).commandEnd := by
  rw [exec_freq, stageFreq_ok (State.freqResult_of_fits h), Run.finish]

theorem exec_freq_of_not_fits (h : ¬ s.TextFits) :
    exec .freq s = .next ((s.enter .freq).spoilFreq.errorEntry capacityExceeded) := by
  rw [exec_freq, stageFreq_error (State.freqResult_of_not_fits h), Run.finish]

@[simp] theorem State.length_text (s : State) : s.text.length = s.txtLen.toNat := by simp [State.text]

@[simp] theorem State.length_freqTable (s : State) : s.freqTable.length = s.ftCnt.toNat := by simp [State.freqTable]

theorem State.length_text_lt (s : State) : s.text.length < 2 ^ 32 := s.length_text ▸ s.txtLen.isLt

/-- FREQ's table, read back after the command's end. -/
theorem State.freqTable_freq_end (s : State) :
    ((s.enter .freq).writeFreq (tally s.text)).commandEnd.freqTable = tally s.text := by
  have hlen : (tally s.text).length < 2 ^ 32 := by
    rw [length_tally]
    exact Nat.lt_of_le_of_lt (length_eraseDups_le _) s.length_text_lt
  exact State.freqTable_writeFreq hlen

/-- A FREQ that ended without error had a text that fits, and left its table. -/
theorem freqTable_of_endedOk (h : exec .freq s = .next t) (hok : t.EndedOk) : s.TextFits ∧ t.freqTable = tally s.text := by
  by_cases hfits : s.TextFits
  · rw [exec_freq_of_fits hfits] at h
    cases h
    exact ⟨hfits, s.freqTable_freq_end⟩
  · rw [exec_freq_of_not_fits hfits] at h
    cases h
    obtain ⟨hstatus, -⟩ := hok
    exact absurd hstatus (by simp [statusError, statusDone])

/-! ### The other commands -/

theorem exec_writesOnly {i : Instr} (h : exec i s = .next t) : WritesOnly i s t := by
  rw [exec_eq_runOf] at h
  cases h
  exact (runOf_writesOnly i s).trans (Run.finish_writesOnly i _)

/-- A command that lists neither FT nor FT_CNT leaves the frequency table. -/
theorem WritesOnly.freqTable_eq {i : Instr} (h : WritesOnly i s t) (hft : writesSpace i .ft = false)
    (hcnt : writesCsr i 5 = false) : t.freqTable = s.freqTable := by
  have hbuf : t.ft = s.ft := h.buffer .ft (by decide) hft
  have hlen : t.ftCnt = s.ftCnt := h.csr 5 (by decide) hcnt
  have hat : t.ftAt = s.ftAt := by
    funext j
    simp only [State.ftAt, hbuf, h.cfg]
  rw [State.freqTable, State.freqTable, hlen, hat]

end Sys2Proof.Machine
end

section
/-! The statements of the family 41_frequency_analyzer.md. -/

namespace Sys2Proof.Proofs

open Sys2Proof.Machine

/-- Settles O21: the loop makes the table of the text in closed form, which the command's end leaves to be read. -/
theorem freqCountsTheText : Obligations.FreqCountsTheText := by
  intro s _ htxt hsyms
  refine ⟨_, exec_freq_of_fits ⟨htxt, hsyms⟩, State.endedOk_commandEnd _, ?_⟩
  rw [State.freqTable_freq_end]
  refine ⟨map_sym_tally s.text, fun e he => ?_⟩
  obtain ⟨x, -, rfl⟩ := mem_tally.1 he
  exact toNat_tallyRow_count s.length_text_lt x

/-- Settles O22: a text that does not fit ends the loop, or the command before it, with CapacityExceeded. -/
theorem freqTrapsOnCapacity : Obligations.FreqTrapsOnCapacity := by
  intro s _ hover
  have hfits : ¬ s.TextFits := fun ⟨htxt, hsyms⟩ =>
    hover.elim (Nat.not_lt.2 htxt) (Nat.not_lt.2 hsyms)
  exact ⟨_, exec_freq_of_not_fits hfits, State.endedWith_errorEntry _ capacityExceeded⟩

/-- Settles O23, from the closed form of the table, and from what the other commands list as written. -/
theorem freqTableAddsUp : Obligations.FreqTableAddsUp := by
  refine ⟨fun s t _ ht hok => ?_, fun i s t hi ht => ?_⟩
  · obtain ⟨⟨-, hsyms⟩, htable⟩ := freqTable_of_endedOk ht hok
    have hcnt : t.ftCnt.toNat = s.text.eraseDups.length := by rw [← t.length_freqTable, htable, length_tally]
    have hle : s.text.eraseDups.length ≤ s.txtLen.toNat := s.length_text ▸ length_eraseDups_le s.text
    have hempty : t.ftCnt = 0 ↔ s.txtLen = 0 := by
      rw [← BitVec.toNat_inj, ← BitVec.toNat_inj, ← t.length_freqTable, ← s.length_text, htable]
      simp only [BitVec.ofNat_eq_ofNat, BitVec.toNat_ofNat, Nat.zero_mod, List.length_eq_zero_iff]
      exact tally_eq_nil_iff
    rw [htable, map_sym_tally, sum_count_tally s.length_text_lt]
    refine ⟨fun e he => ?_, nodup_eraseDups _, s.length_text, hempty, hcnt ▸ hle, hcnt ▸ hsyms⟩
    obtain ⟨x, hx, rfl⟩ := mem_tally.1 he
    rw [toNat_tallyRow_count s.length_text_lt]
    exact List.count_pos_iff.2 hx
  · have hw := exec_writesOnly ht
    simp only [List.mem_cons, List.not_mem_nil, or_false] at hi
    rcases hi with rfl | rfl | rfl | rfl | rfl | rfl | rfl <;> exact hw.freqTable_eq rfl rfl

end Sys2Proof.Proofs
end

section
/-! What BUILD computes (42_tree_builder.md R150 to R155): the least key of a queue, one pass of the merge loop, how many
entries the arena has, and the state BUILD ends in. -/

namespace Sys2Proof.Machine

variable {s : State} {l : List Node} {pq : List Nat} {a b c : Nat} {spill : Nat → Word} {fuel : Nat}

/-! ### The queue -/

/-- Handle `a` is `b` or comes before it in the queue's order (R150). -/
def KeyLe (l : List Node) (a b : Nat) : Prop :=
  weightOf l a < weightOf l b ∨ (weightOf l a = weightOf l b ∧ a ≤ b)

theorem KeyLe.refl (l : List Node) (a : Nat) : KeyLe l a a := .inr ⟨rfl, le_rfl⟩

theorem KeyLe.trans (hab : KeyLe l a b) (hbc : KeyLe l b c) : KeyLe l a c := by
  unfold KeyLe at *
  omega

theorem KeyLe.total (l : List Node) (a b : Nat) : KeyLe l a b ∨ KeyLe l b a := by
  unfold KeyLe
  omega

theorem queueLt_iff : queueLt l a b = true ↔ ¬ KeyLe l b a := by
  simp only [queueLt, KeyLe, Bool.or_eq_true, Bool.and_eq_true, decide_eq_true_eq, beq_iff_eq]
  omega

/-- The least handle is one of the queue's, and none of the queue's comes before it. -/
theorem leastFrom_spec (l : List Node) (best : Nat) (pq : List Nat) :
    leastFrom l best pq ∈ best :: pq ∧ ∀ h ∈ best :: pq, KeyLe l (leastFrom l best pq) h := by
  induction pq generalizing best with
  | nil => simp [leastFrom, KeyLe.refl]
  | cons x pq ih =>
    simp only [leastFrom]
    by_cases hx : queueLt l x best = true
    · rw [if_pos hx]
      obtain ⟨hmem, hle⟩ := ih x
      have hxb : KeyLe l x best := (KeyLe.total l x best).resolve_right (queueLt_iff.1 hx)
      have hbest := (hle x (by simp)).trans hxb
      exact ⟨List.mem_cons_of_mem _ hmem, List.forall_mem_cons.2 ⟨hbest, hle⟩⟩
    · rw [if_neg hx]
      obtain ⟨hmem, hle⟩ := ih best
      obtain ⟨hbest, hrest⟩ := List.forall_mem_cons.1 hle
      have hbx : KeyLe l best x := not_not.1 fun h => hx (queueLt_iff.2 h)
      refine ⟨?_, List.forall_mem_cons.2 ⟨hbest, List.forall_mem_cons.2 ⟨hbest.trans hbx, hrest⟩⟩⟩
      rw [List.mem_cons] at hmem ⊢
      exact hmem.imp_right (List.mem_cons_of_mem x)

/-- `extractMin` takes the handle of least key out of a queue that is not empty (R150). -/
theorem extractMin_spec (l : List Node) (hpq : pq ≠ []) :
    ∃ m, extractMin l pq = some (m, pq.erase m) ∧ m ∈ pq ∧ ∀ h ∈ pq, KeyLe l m h := by
  obtain ⟨x, rest, rfl⟩ := List.exists_cons_of_ne_nil hpq
  exact ⟨leastFrom l x rest, rfl, leastFrom_spec l x rest⟩

/-! ### The merge loop -/

/-- The entry a pass of the loop makes over the two handles it extracts (R152). -/
def mergedNode (spill : Nat → Word) (l : List Node) (a b : Nat) : Node :=
  internalNode (addWeights (spill l.length) (weightOf l a) (weightOf l b)) a b

/-- One pass of the loop: the two handles of least keys leave the queue, and the new entry's handle enters it (R152). -/
theorem mergeLoop_succ (l : List Node) (hpq : 2 ≤ pq.length) :
    ∃ a b rest, pq.Perm (a :: b :: rest) ∧ (∀ h ∈ b :: rest, KeyLe l a h) ∧ (∀ h ∈ rest, KeyLe l b h) ∧
      ∀ spill fuel, mergeLoop spill (fuel + 1) pq l =
        mergeLoop spill fuel (rest ++ [l.length]) (l ++ [mergedNode spill l a b]) := by
  obtain ⟨a, ha, hamem, hale⟩ := extractMin_spec l (pq := pq) (by rintro rfl; simp at hpq)
  have hlen : (pq.erase a).length + 1 = pq.length := by
    rw [List.length_erase_of_mem hamem]
    omega
  obtain ⟨b, hb, hbmem, hble⟩ := extractMin_spec l (pq := pq.erase a) (by intro h; simp [h] at hlen; omega)
  have hperm := (List.perm_cons_erase hamem).trans ((List.perm_cons_erase hbmem).cons a)
  refine ⟨a, b, (pq.erase a).erase b, hperm, fun h hh => hale h (hperm.mem_iff.2 (List.mem_cons_of_mem a hh)),
    fun h hh => hble h (List.mem_of_mem_erase hh), fun spill fuel => ?_⟩
  simp only [mergeLoop, ha, hb, mergedNode]

/-- The loop appends one entry per pass as long as the queue has two handles (R152). -/
theorem mergeLoop_appends (spill : Nat → Word) (hpq : fuel < pq.length) :
    l <+: mergeLoop spill fuel pq l ∧ (mergeLoop spill fuel pq l).length = l.length + fuel := by
  induction fuel generalizing pq l with
  | zero => exact ⟨List.prefix_rfl, rfl⟩
  | succ fuel ih =>
    obtain ⟨a, b, rest, hperm, -, -, hloop⟩ := mergeLoop_succ l (pq := pq) (by omega)
    have hlen := hperm.length_eq
    simp only [List.length_cons] at hlen
    obtain ⟨hpre, hcount⟩ := ih (pq := rest ++ [l.length]) (l := l ++ [mergedNode spill l a b])
      (by rw [List.length_append, List.length_singleton]; omega)
    rw [hloop]
    refine ⟨(List.prefix_append l _).trans hpre, ?_⟩
    rw [hcount, List.length_append, List.length_singleton]
    omega

/-! ### The arena -/

/-- From two entries up the arena is what the merge loop makes of the leaves (R151, R152). -/
theorem buildTree_of_two_le (spill : Nat → Word) {ft : List FtEntry} (h : 2 ≤ ft.length) :
    buildTree spill ft = mergeLoop spill (ft.length - 1) (List.range ft.length) (ft.map leafNode) := by
  match ft, h with
  | _ :: _ :: rest, _ => rfl

/-- The arena of `n` entries has `2n − 1` nodes, but two for one entry (R152, R154). -/
theorem length_buildTree (spill : Nat → Word) {ft : List FtEntry} (h : ft ≠ []) :
    (buildTree spill ft).length = max 2 (2 * ft.length - 1) := by
  match ft, h with
  | [_], _ => rfl
  | e₁ :: e₂ :: rest, _ =>
    rw [buildTree, (mergeLoop_appends spill (by simp)).2]
    simp only [List.length_map, List.length_cons]
    omega

/-! ### The command -/

/-- The state BUILD ends in when the table is not empty. -/
def State.built (s : State) : State := ((s.enter .build).writeBuild s.buildResult).commandEnd

theorem exec_build_of_ne (h : s.ftCnt ≠ 0) : exec .build s = .next s.built := by
  rcases stageBuild_cases s with ⟨-, hr⟩ | ⟨h0, -⟩
  · rw [exec_eq_runOf, show runOf .build s = stageBuild s from rfl, hr]
    rfl
  · exact absurd h0 h

theorem State.ftCnt_ne_zero (h : 1 ≤ s.ftCnt.toNat) : s.ftCnt ≠ 0 := fun h0 => by simp [h0] at h

/-- The tree fits NODE, and its handles fit 32 bits (R155). -/
theorem State.length_buildResult (hv : s.cfg.Valid) (hn : 1 ≤ s.ftCnt.toNat) (hm : s.ftCnt.toNat ≤ s.cfg.maxSyms) :
    s.buildResult.length = max 2 (2 * s.ftCnt.toNat - 1) ∧ s.buildResult.length ≤ s.cfg.maxNodes ∧
      s.buildResult.length < 2 ^ 32 := by
  have hlen : s.buildResult.length = max 2 (2 * s.ftCnt.toNat - 1) := by
    rw [State.buildResult, length_buildTree _ (List.ne_nil_of_length_pos (s.length_freqTable ▸ hn)), State.length_freqTable]
  obtain ⟨-, -, ⟨hsyms, -, hle⟩, -⟩ := hv
  rw [hlen, Params.maxNodes]
  omega

/-- NODE_CNT, ROOT and the entries of the tree, read back after BUILD (R155). -/
theorem State.built_tree (hv : s.cfg.Valid) (hn : 1 ≤ s.ftCnt.toNat) (hm : s.ftCnt.toNat ≤ s.cfg.maxSyms) :
    s.built.nodeCnt.toNat = max 2 (2 * s.ftCnt.toNat - 1) ∧ s.built.root.toNat = s.built.nodeCnt.toNat - 1 ∧
      ∀ k (h : k < s.buildResult.length), s.built.nodeAt k = s.buildResult[k] := by
  obtain ⟨hlen, hnode, hword⟩ := s.length_buildResult hv hn hm
  have hcnt : s.built.nodeCnt.toNat = s.buildResult.length := by
    change (regOr _ s.buildResult.length).toNat = _
    rw [regOr, if_pos hword, toNat_ofNat_of_lt hword]
  have hroot : s.built.root.toNat = s.buildResult.length - 1 := by
    change (regOr _ (s.buildResult.length - 1)).toNat = _
    rw [regOr, if_pos (by omega), toNat_ofNat_of_lt (by omega)]
  exact ⟨hcnt.trans hlen, hcnt ▸ hroot, fun k hk => State.nodeAt_writeBuild hk (Nat.lt_of_lt_of_le hk hnode)⟩

/-- BUILD leaves the arena entries from the end of its tree on (R155). -/
theorem State.built_nodeAt_of_ge {k : Nat} (hk : s.buildResult.length ≤ k) : s.built.nodeAt k = s.nodeAt k := by
  have hword : ∀ x, 8 * s.buildResult.length ≤ x → s.built.nodeWord x = s.nodeWord x := fun x hx =>
    State.nodeWord_writeBuild_of_ge (s := s.enter .build) hx
  simp only [State.nodeAt, hword _ (show 8 * s.buildResult.length ≤ 8 * k by omega),
    fun f => hword (8 * k + f) (by omega)]

end Sys2Proof.Machine
end

section
/-! The arena of two entries or more (42_tree_builder.md R151 to R153, R156): what every pass of the merge loop does, told of
the finished arena, and the tree that makes. -/

namespace Sys2Proof.Machine

/-! ### A pass, told of the finished arena -/

/-- Handle `h` is that of an entry before `k`, and no entry from `n` on before `k` joins it. -/
def Unjoined (nodes : Nat → Node) (n k h : Nat) : Prop := h < k ∧ ∀ k', n ≤ k' → k' < k → ¬ IsChild nodes h k'

/-- Entry `k` is the internal node over the two unjoined handles that come first, the first on the left, with the sum of their
weights (R152, R153). -/
structure JoinsFirstTwo (nodes : Nat → Node) (n k : Nat) : Prop where
  internal : (nodes k).leaf = false ∧ (nodes k).sym = 0
  weight : (nodes k).weight.toNat =
    (nodes (nodes k).left.toNat).weight.toNat + (nodes (nodes k).right.toNat).weight.toNat
  left : Unjoined nodes n k (nodes k).left.toNat
  right : Unjoined nodes n k (nodes k).right.toNat
  ordered : Before nodes (nodes k).left.toNat (nodes k).right.toNat
  rest : ∀ h, Unjoined nodes n k h → ¬ IsChild nodes h k → Before nodes (nodes k).right.toNat h

/-- The queue before entry `k` is made over `n` leaves: the unjoined handles, which carry the whole weight of the table. Each
pass takes one handle away, so at `k = 2n − 1` one is left. -/
structure QueueAt (nodes : Nat → Node) (n total k : Nat) (pq : List Nat) : Prop where
  nodup : pq.Nodup
  mem_iff : ∀ h, h ∈ pq ↔ Unjoined nodes n k h
  length : pq.length + k = 2 * n
  total : (pq.map fun h => (nodes h).weight.toNat).sum = total

section
variable {nodes : Nat → Node} {n total k h a b : Nat} {pq rest : List Nat}

theorem Before.weight_le (hab : Before nodes a b) : (nodes a).weight.toNat ≤ (nodes b).weight.toNat := by
  rcases hab with hlt | ⟨heq, -⟩
  · exact hlt.le
  · exact (congrArg BitVec.toNat heq).le

/-- Making entry `k` joins its two children and adds the handle `k`, which nothing joins yet. -/
theorem unjoined_succ (hall : ∀ k', n ≤ k' → k' ≤ k → JoinsFirstTwo nodes n k') (hk : n ≤ k) :
    Unjoined nodes n (k + 1) h ↔ (Unjoined nodes n k h ∧ ¬ IsChild nodes h k) ∨ h = k := by
  constructor
  · rintro ⟨hlt, hno⟩
    by_cases heq : h = k
    · exact .inr heq
    · exact .inl ⟨⟨by omega, fun k' hn hk' => hno k' hn (by omega)⟩, hno k hk (by omega)⟩
  · rintro (⟨⟨hlt, hno⟩, hchild⟩ | rfl)
    · refine ⟨by omega, fun k' hn hk' => ?_⟩
      rcases Nat.lt_succ_iff_lt_or_eq.1 hk' with hk' | rfl
      · exact hno k' hn hk'
      · exact hchild
    · refine ⟨by omega, fun k' hn hk' hchild => ?_⟩
      have hpass := hall k' hn (by omega)
      have hl := hpass.left.1
      have hr := hpass.right.1
      rcases hchild with hc | hc <;> omega

/-- Before the first pass the queue holds the leaves. -/
theorem QueueAt.leaves (nodes : Nat → Node) (n : Nat) :
    QueueAt nodes n ((List.range n).map fun h => (nodes h).weight.toNat).sum n (List.range n) where
  nodup := List.nodup_range
  mem_iff h := by
    rw [List.mem_range]
    exact ⟨fun hh => ⟨hh, fun k' hn hk' => absurd hn (by omega)⟩, And.left⟩
  length := by rw [List.length_range]; omega
  total := rfl

/-- A pass takes the two children of entry `k` out of the queue and puts `k` in. -/
theorem QueueAt.succ (hq : QueueAt nodes n total k pq) (hk : n ≤ k)
    (hall : ∀ k', n ≤ k' → k' ≤ k → JoinsFirstTwo nodes n k')
    (hperm : pq.Perm ((nodes k).left.toNat :: (nodes k).right.toNat :: rest)) :
    QueueAt nodes n total (k + 1) (rest ++ [k]) := by
  have hnodup := hperm.nodup_iff.1 hq.nodup
  have hmem : ∀ h, h ∈ rest ↔ Unjoined nodes n k h ∧ ¬ IsChild nodes h k := by
    intro h
    rw [← hq.mem_iff, hperm.mem_iff]
    simp only [List.nodup_cons, List.mem_cons, not_or] at hnodup
    obtain ⟨⟨-, hl⟩, hr, -⟩ := hnodup
    simp only [List.mem_cons, IsChild]
    grind
  have hnew : k ∉ rest := fun hin => by
    have := ((hmem k).1 hin).1.1
    omega
  have hrest : rest.Nodup := (List.nodup_cons.1 (List.nodup_cons.1 hnodup).2).2
  refine ⟨?_, fun h => ?_, ?_, ?_⟩
  · exact List.concat_eq_append ▸ hrest.concat hnew
  · rw [unjoined_succ hall hk, List.mem_append, List.mem_singleton, hmem]
  · have hlen := hperm.length_eq
    have := hq.length
    simp only [List.length_append, List.length_cons, List.length_nil] at hlen ⊢
    omega
  · have hsum := (hperm.map fun h => (nodes h).weight.toNat).sum_eq
    rw [hq.total] at hsum
    have hpass := (hall k hk le_rfl).weight
    simp only [List.map_cons, List.map_append, List.map_nil, List.sum_cons, List.sum_append, List.sum_nil] at hsum ⊢
    omega

end

/-! ### The loop makes such passes -/

/-- The nodes from handle 0 on are those of the list. -/
def Stores (nodes : Nat → Node) (l : List Node) : Prop := ∀ h (hh : h < l.length), nodes h = l[h]

section
variable {nodes : Nat → Node} {l l' : List Node} {n total a b : Nat} {pq rest : List Nat} {spill : Nat → Word} {fuel : Nat}

theorem Stores.of_prefix (hs : Stores nodes l') (hpre : l <+: l') : Stores nodes l := fun h hh =>
  (hs h (hh.trans_le hpre.length_le)).trans (hpre.getElem hh).symm

theorem Stores.weightOf_eq (hs : Stores nodes l) {h : Nat} (hh : h < l.length) :
    weightOf l h = (nodes h).weight.toNat := by
  simp only [weightOf, List.getElem?_eq_getElem hh, hs h hh]

/-- Two handles in the order of their keys stand in the order of the arena. -/
theorem KeyLe.before (hle : KeyLe l a b) (hs : Stores nodes l) (ha : a < l.length) (hb : b < l.length) (hne : a ≠ b) :
    Before nodes a b := by
  rw [KeyLe, hs.weightOf_eq ha, hs.weightOf_eq hb] at hle
  exact hle.imp_right fun ⟨hw, hab⟩ => ⟨BitVec.eq_of_toNat_eq hw, lt_of_le_of_ne hab hne⟩

/-- The fields of the entry a pass makes, when its weight fits (R152). -/
theorem mergedNode_eq (hs : Stores nodes l) (ha : a < l.length) (hb : b < l.length) (hl : l.length < 2 ^ 32)
    (hw : (nodes a).weight.toNat + (nodes b).weight.toNat < 2 ^ 32) :
    (mergedNode spill l a b).left.toNat = a ∧ (mergedNode spill l a b).right.toNat = b ∧
      (mergedNode spill l a b).weight.toNat = (nodes a).weight.toNat + (nodes b).weight.toNat := by
  refine ⟨toNat_ofNat_of_lt (ha.trans hl), toNat_ofNat_of_lt (hb.trans hl), ?_⟩
  simp only [mergedNode, internalNode, addWeights, hs.weightOf_eq ha, hs.weightOf_eq hb, if_pos hw, toNat_ofNat_of_lt hw]

/-- The entry made of the two handles of least keys joins the two that come first. -/
theorem joinsFirstTwo_of_least (hs : Stores nodes l) (hq : QueueAt nodes n total l.length pq)
    (hl : l.length < 2 ^ 32) (ht : total < 2 ^ 32) (hperm : pq.Perm (a :: b :: rest))
    (hale : ∀ h ∈ b :: rest, KeyLe l a h) (hble : ∀ h ∈ rest, KeyLe l b h)
    (hk : nodes l.length = mergedNode spill l a b) :
    JoinsFirstTwo nodes n l.length ∧ (nodes l.length).left.toNat = a ∧ (nodes l.length).right.toNat = b := by
  have hmem : ∀ h, h ∈ a :: b :: rest ↔ Unjoined nodes n l.length h := fun h => hperm.mem_iff.symm.trans (hq.mem_iff h)
  have ha := (hmem a).1 (by simp)
  have hb := (hmem b).1 (by simp)
  have hsum := (hperm.map fun h => (nodes h).weight.toNat).sum_eq
  simp only [hq.total, List.map_cons, List.sum_cons] at hsum
  obtain ⟨hleft, hright, hweight⟩ := mergedNode_eq (spill := spill) hs ha.1 hb.1 hl (by omega)
  rw [← hk] at hleft hright hweight
  have hnodup := hperm.nodup_iff.1 hq.nodup
  simp only [List.nodup_cons, List.mem_cons, not_or] at hnodup
  obtain ⟨⟨hab, -⟩, hbrest, -⟩ := hnodup
  refine ⟨⟨hk ▸ ⟨rfl, rfl⟩, ?_, ?_, ?_, ?_, fun h hun hchild => ?_⟩, hleft, hright⟩
  · rw [hleft, hright, hweight]
  · rwa [hleft]
  · rwa [hright]
  · rw [hleft, hright]
    exact (hale b (by simp)).before hs ha.1 hb.1 hab
  · rw [IsChild, hleft, hright, not_or] at hchild
    obtain ⟨hah, hbh⟩ := hchild
    have hin : h ∈ rest := by simpa [Ne.symm hah, Ne.symm hbh] using (hmem h).2 hun
    rw [hright]
    exact (hble h hin).before hs hb.1 hun.1 hbh

/-- Every entry the loop makes joins the first two unjoined handles, and the queue stays the unjoined handles, by induction
on the passes. -/
theorem mergeLoop_joins (hs : Stores nodes (mergeLoop spill fuel pq l)) (hq : QueueAt nodes n total l.length pq)
    (hn : n ≤ l.length) (hfuel : l.length + fuel + 1 = 2 * n) (hl : 2 * n ≤ 2 ^ 32) (ht : total < 2 ^ 32)
    (hall : ∀ k, n ≤ k → k < l.length → JoinsFirstTwo nodes n k) :
    (∀ k, n ≤ k → k < 2 * n - 1 → JoinsFirstTwo nodes n k) ∧ ∃ pq', QueueAt nodes n total (2 * n - 1) pq' := by
  induction fuel generalizing pq l with
  | zero =>
    have hend : l.length = 2 * n - 1 := by omega
    exact hend ▸ ⟨hall, pq, hq⟩
  | succ fuel ih =>
    have hlen := hq.length
    obtain ⟨a, b, rest, hperm, hale, hble, hloop⟩ := mergeLoop_succ l (pq := pq) (by omega)
    rw [hloop] at hs
    have hrest := hperm.length_eq
    have hpre := (mergeLoop_appends (l := l ++ [mergedNode spill l a b]) (pq := rest ++ [l.length]) (fuel := fuel) spill
      (by simp only [List.length_append, List.length_cons, List.length_nil] at hrest ⊢; omega)).1
    have hs' := hs.of_prefix hpre
    have hk : nodes l.length = mergedNode spill l a b := by simpa using hs' l.length (by simp)
    obtain ⟨hpass, hleft, hright⟩ := joinsFirstTwo_of_least (hs'.of_prefix (List.prefix_append l _)) hq (by omega) ht hperm
      hale hble hk
    have hall' : ∀ k, n ≤ k → k ≤ l.length → JoinsFirstTwo nodes n k := fun k hnk hkl =>
      (Nat.lt_or_eq_of_le hkl).elim (hall k hnk) fun heq => heq ▸ hpass
    have hlength : (l ++ [mergedNode spill l a b]).length = l.length + 1 := by simp
    refine ih hs (hlength ▸ hq.succ hn hall' (by rwa [hleft, hright])) (by omega) (by omega) fun k hnk hkl => ?_
    exact hall' k hnk (by omega)

end

/-! ### The finished arena -/

section
variable {nodes : Nat → Node} {table : List FtEntry} {n total h k : Nat} {pq : List Nat}

/-- An arena of such passes over the leaves of a table is the greedy one. -/
theorem GreedyArena.of_joins (hleaf : ∀ j (h : j < table.length), nodes j = leafNode table[j])
    (hall : ∀ k, table.length ≤ k → k < 2 * table.length - 1 → JoinsFirstTwo nodes table.length k) :
    GreedyArena nodes table where
  leaf := hleaf
  inner k hn hk := by
    have hpass := hall k hn hk
    obtain ⟨hinner, hsym⟩ := hpass.internal
    exact ⟨hinner, hsym, hpass.left.1, hpass.right.1, hpass.weight⟩
  once h k k' hn hlt hk' hchild hchild' := by
    have hpass := hall k' (by omega) hk'
    rcases hchild' with rfl | rfl
    · exact hpass.left.2 k hn hlt hchild
    · exact hpass.right.2 k hn hlt hchild
  first k hn hk := (hall k hn hk).ordered
  least h k hn hk hlt hchild hno := (hall k hn hk).rest h ⟨hlt, hno⟩ hchild

/-- The next pass joins nodes no lighter than those this pass joined: they were in the queue behind them, or are the entry
just made (R156). -/
theorem JoinsFirstTwo.weight_le_succ (hpass : JoinsFirstTwo nodes n k) (hnext : JoinsFirstTwo nodes n (k + 1))
    (hk : n ≤ k) : (nodes k).weight.toNat ≤ (nodes (k + 1)).weight.toNat := by
  have hw := hpass.weight
  have hab := hpass.ordered.weight_le
  have hge : ∀ h, Unjoined nodes n (k + 1) h → (nodes (nodes k).right.toNat).weight.toNat ≤ (nodes h).weight.toNat := by
    rintro h ⟨hlt, hno⟩
    rcases Nat.lt_succ_iff_lt_or_eq.1 hlt with hlt | rfl
    · exact (hpass.rest h ⟨hlt, fun k' hn hk' => hno k' hn (by omega)⟩ (hno k hk (by omega))).weight_le
    · omega
  have hl := hge _ hnext.left
  have hr := hge _ hnext.right
  have hw' := hnext.weight
  omega

/-- The queue the loop ends with is the last entry alone (R152). -/
theorem QueueAt.eq_root (hq : QueueAt nodes n total (2 * n - 1) pq) (hn : 2 ≤ n)
    (hall : ∀ k, n ≤ k → k < 2 * n - 1 → JoinsFirstTwo nodes n k) : pq = [2 * n - 2] := by
  have hlen := hq.length
  obtain ⟨x, rfl⟩ := List.length_eq_one_iff.1 (show pq.length = 1 by omega)
  have hroot : Unjoined nodes n (2 * n - 2 + 1) (2 * n - 2) :=
    (unjoined_succ (fun k hnk hk => hall k hnk (by omega)) (by omega)).2 (.inr rfl)
  rw [show 2 * n - 2 + 1 = 2 * n - 1 by omega, ← hq.mem_iff, List.mem_singleton] at hroot
  rw [hroot]

/-- Every handle but the last has been joined, as the queue holds it no more (R156). -/
theorem exists_parent (hq : QueueAt nodes n total (2 * n - 1) [2 * n - 2]) (hh : h < 2 * n - 2) :
    ∃ k, n ≤ k ∧ k ≤ 2 * n - 2 ∧ IsChild nodes h k := by
  by_contra hno
  have hun : Unjoined nodes n (2 * n - 1) h :=
    ⟨by omega, fun k hnk hk hchild => hno ⟨k, hnk, by omega, hchild⟩⟩
  have := List.mem_singleton.1 ((hq.mem_iff h).2 hun)
  omega

end

/-! ### BUILD of two entries or more -/

/-- A table of at least two and at most MAX_SYMS entries whose counts sum to a number of 32 bits. -/
structure State.Mergeable (s : State) : Prop where
  valid : s.cfg.Valid
  two_le : 2 ≤ s.ftCnt.toNat
  fits : s.ftCnt.toNat ≤ s.cfg.maxSyms
  sum_lt : (s.freqTable.map fun e => e.count.toNat).sum < 2 ^ 32

variable {s : State}

theorem State.Mergeable.built_root (h : s.Mergeable) : s.built.nodeCnt.toNat = 2 * s.ftCnt.toNat - 1 ∧
    s.built.root.toNat = 2 * s.ftCnt.toNat - 2 := by
  have hn := h.two_le
  obtain ⟨hcnt, hroot, -⟩ := State.built_tree h.valid (by omega) h.fits
  omega

theorem State.Mergeable.buildResult_eq (h : s.Mergeable) : s.buildResult =
    mergeLoop (fun k => Config.freeWord s.draws (.weight k)) (s.ftCnt.toNat - 1) (List.range s.ftCnt.toNat)
      (s.freqTable.map leafNode) := by
  rw [State.buildResult, buildTree_of_two_le _ (s.length_freqTable ▸ h.two_le), State.length_freqTable]

theorem State.Mergeable.stores (h : s.Mergeable) : Stores s.built.nodeAt s.buildResult :=
  (State.built_tree h.valid (Nat.one_le_of_lt h.two_le) h.fits).2.2

/-- The leaves of the arena BUILD leaves (R151). -/
theorem State.Mergeable.stores_leaves (h : s.Mergeable) : Stores s.built.nodeAt (s.freqTable.map leafNode) := by
  have hn := h.two_le
  refine h.stores.of_prefix ?_
  rw [h.buildResult_eq]
  exact (mergeLoop_appends _ (by rw [List.length_range]; omega)).1

/-- The weights of the leaves are the counts of the table (R151). -/
theorem State.Mergeable.sum_leaves (h : s.Mergeable) :
    ((List.range s.ftCnt.toNat).map fun k => (s.built.nodeAt k).weight.toNat).sum =
      (s.freqTable.map fun e => e.count.toNat).sum := by
  congr 1
  refine List.ext_getElem (by simp) fun k hk hk' => ?_
  have hleaf := h.stores_leaves k (by simpa using hk)
  simp only [List.getElem_map, List.getElem_range] at hleaf ⊢
  rw [hleaf, leafNode]

/-- What BUILD's loop has done when it ends: every pass joined the first two, and the root alone is left. -/
theorem State.Mergeable.built_joins (h : s.Mergeable) :
    (∀ k, s.ftCnt.toNat ≤ k → k < 2 * s.ftCnt.toNat - 1 → JoinsFirstTwo s.built.nodeAt s.ftCnt.toNat k) ∧
      QueueAt s.built.nodeAt s.ftCnt.toNat (s.freqTable.map fun e => e.count.toNat).sum (2 * s.ftCnt.toNat - 1)
        [2 * s.ftCnt.toNat - 2] := by
  have hn := h.two_le
  have hbound : 2 * s.ftCnt.toNat ≤ 2 ^ 32 := by
    obtain ⟨-, -, ⟨-, -, hsyms⟩, -⟩ := h.valid
    have := h.fits
    omega
  have hleaves : (s.freqTable.map leafNode).length = s.ftCnt.toNat := by simp
  have hstart := h.sum_leaves ▸ QueueAt.leaves s.built.nodeAt s.ftCnt.toNat
  obtain ⟨hall, pq, hq⟩ := mergeLoop_joins (h.buildResult_eq ▸ h.stores) (hleaves.symm ▸ hstart) hleaves.ge (by omega)
    hbound h.sum_lt fun k hnk hk => absurd hk (by omega)
  exact ⟨hall, hq.eq_root hn hall ▸ hq⟩

theorem State.Mergeable.greedyArena (h : s.Mergeable) : GreedyArena s.built.nodeAt s.freqTable := by
  refine .of_joins (fun j hj => ?_) (s.length_freqTable.symm ▸ h.built_joins.1)
  rw [h.stores_leaves j (by rwa [List.length_map]), List.getElem_map]

end Sys2Proof.Machine
end

section
/-! The statements of the family 42_tree_builder.md. -/

namespace Sys2Proof.Proofs

open Sys2Proof.Machine

/-- Settles O24: the scan for the least key, by induction on the queue. -/
theorem extractMinTakesTheLeastKey : Obligations.ExtractMinTakesTheLeastKey := by
  intro l pq hpq
  obtain ⟨m, hm, hmem, hle⟩ := extractMin_spec l hpq
  exact ⟨m, pq.erase m, hm, hmem, rfl, hle⟩

/-- Settles O26: the queue is always the unjoined handles, so each pass joins the first two of those. -/
theorem buildMakesTheGreedyArena : Obligations.BuildMakesTheGreedyArena := by
  intro s hv htwo hfits hsum
  have h : s.Mergeable := ⟨hv, htwo, hfits, hsum⟩
  obtain ⟨hcnt, hroot⟩ := h.built_root
  exact ⟨s.built, exec_build_of_ne (State.ftCnt_ne_zero (by omega)), State.endedOk_commandEnd _, hcnt, hroot, h.greedyArena⟩

/-- Settles O27, from the queue at the end, which holds the root alone and the whole weight of the table. -/
theorem buildArenaIsOneTree : Obligations.BuildArenaIsOneTree := by
  intro s t hv htwo hfits hsum ht
  have h : s.Mergeable := ⟨hv, htwo, hfits, hsum⟩
  rw [exec_build_of_ne (State.ftCnt_ne_zero (by omega))] at ht
  cases ht
  obtain ⟨-, hroot⟩ := h.built_root
  obtain ⟨hall, hq⟩ := h.built_joins
  have honce := h.greedyArena.once
  rw [State.length_freqTable] at honce
  rw [hroot]
  refine ⟨fun c hc => ?_, fun k hk hlt => ?_, by simpa using hq.total⟩
  · obtain ⟨k, hk, hle, hchild⟩ := exists_parent hq hc
    refine ⟨k, ⟨hk, hle, hchild⟩, ?_⟩
    rintro k' ⟨hk', hle', hchild'⟩
    rcases Nat.lt_trichotomy k' k with hlt | heq | hlt
    · exact absurd hchild (honce c k' k hk' hlt (by omega) hchild')
    · exact heq
    · exact absurd hchild' (honce c k k' hk hlt (by omega) hchild)
  · exact (hall k hk (by omega)).weight_le_succ (hall (k + 1) (by omega) (by omega)) hk

/-- Settles O29: NODE_CNT is the length of the arena BUILD writes. -/
theorem buildKeepsEntriesPastTheTree : Obligations.BuildKeepsEntriesPastTheTree := by
  intro s t hv hne hfits ht k hk
  rw [exec_build_of_ne hne] at ht
  cases ht
  have hpos : 1 ≤ s.ftCnt.toNat := Nat.one_le_iff_ne_zero.2 fun h0 => hne (BitVec.eq_of_toNat_eq h0)
  obtain ⟨hlen, -⟩ := s.length_buildResult hv hpos hfits
  obtain ⟨hcnt, -⟩ := State.built_tree hv hpos hfits
  exact State.built_nodeAt_of_ge (hlen.trans_le (hcnt ▸ hk))

/-- Settles O25: the arena of one entry is its leaf and the synthetic root. -/
theorem buildWrapsASingleLeaf : Obligations.BuildWrapsASingleLeaf := by
  intro s hv hone
  have hcnt : s.ftCnt.toNat = 1 := by rw [hone]; rfl
  have htree : s.buildResult = [leafNode (s.ftAt 0), syntheticRoot (leafNode (s.ftAt 0))] := by
    simp [State.buildResult, State.freqTable, hcnt, buildTree]
  have hsyms : s.ftCnt.toNat ≤ s.cfg.maxSyms := by
    obtain ⟨-, -, ⟨hsyms, -⟩, -⟩ := hv
    omega
  obtain ⟨hnodes, hroot, hat⟩ := State.built_tree hv hcnt.ge hsyms
  rw [hcnt] at hnodes
  rw [hnodes] at hroot
  refine ⟨s.built, exec_build_of_ne (State.ftCnt_ne_zero hcnt.ge), State.endedOk_commandEnd _,
    BitVec.eq_of_toNat_eq hnodes, BitVec.eq_of_toNat_eq hroot, ?_, ?_⟩
  · rw [hat 0 (by simp [htree])]
    simp [htree, leafNode]
  · rw [hat 1 (by simp [htree])]
    simp [htree, syntheticRoot, leafNode]

end Sys2Proof.Proofs
end

section
/-! GEN's walk of a tree without a bad child: the leaves below a handle, side by side, and what the walk makes of them
(43_code_table_generator.md R170, R171). -/

namespace Sys2Proof.Machine

/-- The row of a leaf seen from the parent of the handle it is below, on the side `bit`. -/
def CodeRow.under (bit : Bool) (e : CodeRow) : CodeRow := ⟨e.sym, bit :: e.code⟩

/-- One side of `leafPaths` at node `k`: no leaves for an absent child, no list for one not below `k`, else the leaves below
the child. -/
def leavesUnder (nodes : Nat → Node) (fuel k : Nat) (child : Word) : Option (List CodeRow) :=
  if child = noneHandle then some []
  else if child.toNat < k then leafPaths nodes fuel child.toNat else none

/-- The row the code table gets for a leaf below the handle that `path` leads to (R171). -/
def tableRow (path : List Bool) (e : CodeRow) : CodeRow :=
  ⟨e.sym, if path ++ e.code = [] then [false] else path ++ e.code⟩

/-- The outcome of recording the rows of some leaves after those of `ct`. -/
def record (maxNodes : Nat) (path : List Bool) (ct rows : List CodeRow) : Except Raise (List CodeRow) :=
  if ct.length + rows.length ≤ maxNodes then .ok (ct ++ rows.map (tableRow path)) else .error capacityExceeded

variable {nodes : Nat → Node} {maxNodes fuel k : Nat} {child : Word} {path : List Bool} {ct rows : List CodeRow}

/-! ### The leaves below a handle -/

theorem leafPaths_leaf (hk : (nodes k).leaf = true) : leafPaths nodes (fuel + 1) k = some [⟨(nodes k).sym, []⟩] :=
  if_pos hk

/-- The leaves below an internal node are those of its left side and then those of its right side. -/
theorem leafPaths_internal (hk : (nodes k).leaf = false) : leafPaths nodes (fuel + 1) k =
    (leavesUnder nodes fuel k (nodes k).left).bind fun l =>
      (leavesUnder nodes fuel k (nodes k).right).map fun r => l.map (.under false) ++ r.map (.under true) := by
  simp only [leafPaths, hk, Bool.false_eq_true, if_false]
  change (match leavesUnder nodes fuel k (nodes k).left, leavesUnder nodes fuel k (nodes k).right with
    | some l, some r => some (l.map (CodeRow.under false) ++ r.map (CodeRow.under true))
    | _, _ => none) = _
  cases leavesUnder nodes fuel k (nodes k).left <;> cases leavesUnder nodes fuel k (nodes k).right <;> rfl

theorem leavesUnder_absent : leavesUnder nodes fuel k noneHandle = some [] := if_pos rfl

theorem leavesUnder_bad (hc : child ≠ noneHandle) (hle : k ≤ child.toNat) : leavesUnder nodes fuel k child = none := by
  rw [leavesUnder, if_neg hc, if_neg (Nat.not_lt.2 hle)]

theorem leavesUnder_below (hc : child ≠ noneHandle) (hlt : child.toNat < k) :
    leavesUnder nodes fuel k child = leafPaths nodes fuel child.toNat := by
  rw [leavesUnder, if_neg hc, if_pos hlt]

theorem leavesUnder_eq_some (h : leavesUnder nodes fuel k child = some rows) :
    (child = noneHandle ∧ rows = []) ∨
      (child ≠ noneHandle ∧ child.toNat < k ∧ leafPaths nodes fuel child.toNat = some rows) := by
  unfold leavesUnder at h
  split at h
  · exact .inl ⟨‹_›, (Option.some.inj h).symm⟩
  · split at h
    · exact .inr ⟨‹_›, ‹_›, h⟩
    · cases h

theorem leavesUnder_eq_none (h : leavesUnder nodes fuel k child = none) :
    child ≠ noneHandle ∧ (child.toNat < k → leafPaths nodes fuel child.toNat = none) := by
  have hc : child ≠ noneHandle := by
    rintro rfl
    rw [leavesUnder_absent] at h
    cases h
  exact ⟨hc, fun hlt => leavesUnder_below hc hlt ▸ h⟩

/-- A handle with leaves is a leaf, or an internal node with a list of leaves on either side. -/
theorem leafPaths_eq_some (h : leafPaths nodes (fuel + 1) k = some rows) :
    ((nodes k).leaf = true ∧ rows = [⟨(nodes k).sym, []⟩]) ∨
      ((nodes k).leaf = false ∧ ∃ l r, leavesUnder nodes fuel k (nodes k).left = some l ∧
        leavesUnder nodes fuel k (nodes k).right = some r ∧ rows = l.map (.under false) ++ r.map (.under true)) := by
  cases hk : (nodes k).leaf with
  | true => exact .inl ⟨rfl, (Option.some.inj (leafPaths_leaf hk ▸ h)).symm⟩
  | false =>
    rw [leafPaths_internal hk] at h
    obtain ⟨l, hl, hr⟩ := Option.bind_eq_some_iff.1 h
    obtain ⟨r, hr, hrows⟩ := Option.map_eq_some_iff.1 hr
    exact .inr ⟨rfl, l, r, hl, hr, hrows.symm⟩

/-! ### The walk of a side -/

theorem walkSide_absent : walkSide nodes maxNodes fuel k noneHandle path ct = .ok ct := if_pos rfl

theorem walkSide_bad (hc : child ≠ noneHandle) (hle : k ≤ child.toNat) :
    walkSide nodes maxNodes fuel k child path ct = .error ⟨.badTree, BitVec.ofNat 32 k⟩ := by
  rw [walkSide, if_neg hc, if_pos hle]

theorem walkSide_below (hc : child ≠ noneHandle) (hlt : child.toNat < k) :
    walkSide nodes maxNodes fuel k child path ct = walk nodes maxNodes fuel child.toNat path ct := by
  rw [walkSide, if_neg hc, if_neg (Nat.not_le.2 hlt)]

/-! ### The walk records the leaves -/

theorem tableRow_under (bit : Bool) (e : CodeRow) : tableRow path (e.under bit) = tableRow (path ++ [bit]) e := by
  simp [tableRow, CodeRow.under]

theorem record_nil (hct : ct.length ≤ maxNodes) : record maxNodes path ct [] = .ok ct := by simp [record, hct]

/-- Recording one leaf, here the handle the path leads to. -/
theorem record_singleton (hct : ct.length ≤ maxNodes) (n : Node) : record maxNodes path ct [⟨n.sym, []⟩] =
    if ct.length = maxNodes then .error capacityExceeded else .ok (ct ++ [leafRow n path]) := by
  by_cases hfull : ct.length = maxNodes
  · simp [record, hfull]
  · have hroom : ct.length + 1 ≤ maxNodes := by omega
    simp [record, hfull, hroom, tableRow, leafRow]

/-- Recording the leaves of the left side and then, if they fit, those of the right side. -/
theorem record_bind {l r : List CodeRow} {f : List CodeRow → Except Raise (List CodeRow)}
    (hf : ∀ ct, ct.length ≤ maxNodes → f ct = record maxNodes (path ++ [true]) ct r) :
    (record maxNodes (path ++ [false]) ct l).bind f =
      record maxNodes path ct (l.map (.under false) ++ r.map (.under true)) := by
  by_cases hl : ct.length + l.length ≤ maxNodes
  · simp only [record, if_pos hl, Except.bind]
    rw [hf _ (by simpa using hl)]
    simp [record, Nat.add_assoc, Function.comp_def, tableRow_under]
  · have hall : ¬ ct.length + (l.length + r.length) ≤ maxNodes := by omega
    simp [record, hl, hall, Except.bind]

/-- The walk of a side records its leaves when the walk from the child does. -/
theorem walkSide_eq_record (hu : leavesUnder nodes fuel k child = some rows) (hct : ct.length ≤ maxNodes)
    (hw : leafPaths nodes fuel child.toNat = some rows →
      walk nodes maxNodes fuel child.toNat path ct = record maxNodes path ct rows) :
    walkSide nodes maxNodes fuel k child path ct = record maxNodes path ct rows := by
  rcases leavesUnder_eq_some hu with ⟨rfl, rfl⟩ | ⟨hc, hlt, hu⟩
  · rw [walkSide_absent, record_nil hct]
  · rw [walkSide_below hc hlt, hw hu]

/-- With no bad child below it, the walk from a handle records the leaves below it in order, as far as CT has room. -/
theorem walk_eq_record (h : leafPaths nodes fuel k = some rows) (hct : ct.length ≤ maxNodes) :
    walk nodes maxNodes fuel k path ct = record maxNodes path ct rows := by
  induction fuel generalizing k path ct rows with
  | zero => cases h
  | succ fuel ih =>
    rcases leafPaths_eq_some h with ⟨hk, rfl⟩ | ⟨hk, l, r, hl, hr, rfl⟩
    · rw [walk_leaf hk, record_singleton hct]
    · rw [walk_internal hk, walkSide_eq_record hl hct fun h => ih h hct]
      exact record_bind fun ct hct => walkSide_eq_record hr hct fun h => ih h hct

end Sys2Proof.Machine
end

section
/-! GEN's walk of a tree with a bad child, one that is present and not below its parent (43_code_table_generator.md R170,
60_exceptions.md R245). -/

namespace Sys2Proof.Machine

/-- One side of `firstBadChild` at node `k`: nothing at an absent child, `k` itself at one not below `k`, else what there is
below the child. -/
def badUnder (nodes : Nat → Node) (fuel k : Nat) (child : Word) : Option (Nat × Nat) :=
  if child = noneHandle then none
  else if k ≤ child.toNat then some (0, k) else firstBadChild nodes fuel child.toNat

/-- An internal node with a child that is present and not below it. -/
def BadParent (nodes : Nat → Node) (p : Nat) : Prop :=
  (nodes p).leaf = false ∧ ∃ b : Bool, (if b then (nodes p).right else (nodes p).left) ≠ noneHandle ∧
    p ≤ (if b then (nodes p).right else (nodes p).left).toNat

/-- The error of a walk that has `n` leaves to record before the bad child of `p` (R170). -/
def badChildError (maxNodes n p : Nat) : Raise :=
  if n ≤ maxNodes then ⟨.badTree, BitVec.ofNat 32 p⟩ else capacityExceeded

variable {nodes : Nat → Node} {maxNodes fuel k n p : Nat} {child : Word} {path : List Bool} {ct : List CodeRow}

theorem badUnder_bad (hc : child ≠ noneHandle) (hle : k ≤ child.toNat) : badUnder nodes fuel k child = some (0, k) := by
  rw [badUnder, if_neg hc, if_pos hle]

theorem badUnder_below (hc : child ≠ noneHandle) (hlt : child.toNat < k) :
    badUnder nodes fuel k child = firstBadChild nodes fuel child.toNat := by
  rw [badUnder, if_neg hc, if_neg (Nat.not_le.2 hlt)]

/-- The first bad child below an internal node is on its left side, or on its right side after the leaves of the left. -/
theorem firstBadChild_internal (hk : (nodes k).leaf = false) : firstBadChild nodes (fuel + 1) k =
    (leavesUnder nodes fuel k (nodes k).left).elim (badUnder nodes fuel k (nodes k).left) fun l =>
      (badUnder nodes fuel k (nodes k).right).map fun b => (l.length + b.1, b.2) := by
  have right : ∀ m : Nat, (if (nodes k).right = noneHandle then none
      else if k ≤ (nodes k).right.toNat then some (m, k)
      else (firstBadChild nodes fuel (nodes k).right.toNat).map fun b => (m + b.1, b.2)) =
      (badUnder nodes fuel k (nodes k).right).map fun b => (m + b.1, b.2) := by
    intro m
    unfold badUnder
    split
    · rfl
    · split <;> rfl
  simp only [firstBadChild, hk, Bool.false_eq_true, if_false, right]
  by_cases hl : (nodes k).left = noneHandle
  · rw [if_pos hl, hl, leavesUnder_absent]
    rfl
  · rw [if_neg hl]
    rcases Nat.lt_or_ge (nodes k).left.toNat k with hlt | hle
    · rw [if_neg (Nat.not_le.2 hlt), leavesUnder_below hl hlt, badUnder_below hl hlt]
      cases leafPaths nodes fuel (nodes k).left.toNat <;> rfl
    · rw [if_pos hle, leavesUnder_bad hl hle, badUnder_bad hl hle]
      rfl

theorem badUnder_eq_some (h : badUnder nodes fuel k child = some (n, p)) : child ≠ noneHandle ∧
    ((k ≤ child.toNat ∧ n = 0 ∧ p = k) ∨ (child.toNat < k ∧ firstBadChild nodes fuel child.toNat = some (n, p))) := by
  unfold badUnder at h
  split at h
  · cases h
  · refine ⟨‹_›, ?_⟩
    split at h
    · cases h
      exact .inl ⟨‹_›, rfl, rfl⟩
    · exact .inr ⟨Nat.not_le.1 ‹_›, h⟩

/-- What the first bad child says about the two sides of its node. -/
theorem firstBadChild_eq_some (h : firstBadChild nodes (fuel + 1) k = some (n, p)) : (nodes k).leaf = false ∧
    (badUnder nodes fuel k (nodes k).left = some (n, p) ∨
      ∃ l m, leavesUnder nodes fuel k (nodes k).left = some l ∧
        badUnder nodes fuel k (nodes k).right = some (m, p) ∧ n = l.length + m) := by
  cases hk : (nodes k).leaf with
  | true => simp [firstBadChild, hk] at h
  | false =>
    refine ⟨rfl, ?_⟩
    rw [firstBadChild_internal hk] at h
    cases hl : leavesUnder nodes fuel k (nodes k).left with
    | none => exact .inl (by rwa [hl] at h)
    | some l =>
      rw [hl] at h
      obtain ⟨⟨m, q⟩, hr, heq⟩ := Option.map_eq_some_iff.1 h
      cases heq
      exact .inr ⟨l, m, rfl, hr, rfl⟩

/-- Where no list of leaves exists, the walk meets a bad child. -/
theorem exists_firstBadChild (hk : k < fuel) (h : leafPaths nodes fuel k = none) :
    ∃ n p, firstBadChild nodes fuel k = some (n, p) := by
  induction fuel generalizing k with
  | zero => omega
  | succ fuel ih =>
    have side : ∀ {child}, leavesUnder nodes fuel k child = none → ∃ n p, badUnder nodes fuel k child = some (n, p) := by
      intro child hu
      obtain ⟨hc, hbelow⟩ := leavesUnder_eq_none hu
      rcases Nat.lt_or_ge child.toNat k with hlt | hle
      · rw [badUnder_below hc hlt]
        exact ih (by omega) (hbelow hlt)
      · exact ⟨0, k, badUnder_bad hc hle⟩
    cases hleaf : (nodes k).leaf with
    | true => rw [leafPaths_leaf hleaf] at h; cases h
    | false =>
      rw [firstBadChild_internal hleaf]
      rw [leafPaths_internal hleaf] at h
      cases hl : leavesUnder nodes fuel k (nodes k).left with
      | none => exact side hl
      | some l =>
        rw [hl] at h
        obtain ⟨n, p, hr⟩ := side (Option.map_eq_none_iff.1 h)
        exact ⟨l.length + n, p, by rw [hr]; rfl⟩

theorem descend_cons (hk : (nodes k).leaf = false) (b : Bool)
    (hc : (if b then (nodes k).right else (nodes k).left) ≠ noneHandle)
    (hlt : (if b then (nodes k).right else (nodes k).left).toNat < k) : descend nodes k (b :: path) =
      descend nodes (if b then (nodes k).right else (nodes k).left).toNat path := by
  simp [descend, hk, hc, hlt]

/-- A path leads to the parent of the first bad child. -/
theorem exists_descend_badParent (h : firstBadChild nodes fuel k = some (n, p)) :
    ∃ path, descend nodes k path = some p ∧ BadParent nodes p := by
  induction fuel generalizing k n with
  | zero => cases h
  | succ fuel ih =>
    have side : (nodes k).leaf = false → ∀ (b : Bool) {n},
        badUnder nodes fuel k (if b then (nodes k).right else (nodes k).left) = some (n, p) →
        ∃ path, descend nodes k path = some p ∧ BadParent nodes p := by
      intro hk b n hu
      obtain ⟨hc, ⟨hle, -, rfl⟩ | ⟨hlt, hbelow⟩⟩ := badUnder_eq_some hu
      · exact ⟨[], rfl, hk, b, hc, hle⟩
      · obtain ⟨path, hpath, hbad⟩ := ih hbelow
        exact ⟨b :: path, (descend_cons hk b hc hlt).trans hpath, hbad⟩
    obtain ⟨hk, hl | ⟨_, _, -, hr, -⟩⟩ := firstBadChild_eq_some h
    · exact side hk false hl
    · exact side hk true hr

/-- Recording the leaves of the left side and then meeting the bad child of the right side. -/
theorem record_bind_error {l : List CodeRow} {f : List CodeRow → Except Raise (List CodeRow)}
    (hf : ∀ ct, ct.length ≤ maxNodes → f ct = .error (badChildError maxNodes (ct.length + n) p)) :
    (record maxNodes path ct l).bind f = .error (badChildError maxNodes (ct.length + (l.length + n)) p) := by
  by_cases hl : ct.length + l.length ≤ maxNodes
  · simp only [record, if_pos hl, Except.bind]
    rw [hf _ (by simpa using hl)]
    simp [Nat.add_assoc]
  · have hall : ¬ ct.length + (l.length + n) ≤ maxNodes := by omega
    simp only [record, if_neg hl, Except.bind, badChildError, if_neg hall]

/-- The walk ends at the first bad child, unless the leaves before it overflow CT. -/
theorem walk_eq_error (h : firstBadChild nodes fuel k = some (n, p)) (hct : ct.length ≤ maxNodes) :
    walk nodes maxNodes fuel k path ct = .error (badChildError maxNodes (ct.length + n) p) := by
  induction fuel generalizing k path ct n with
  | zero => cases h
  | succ fuel ih =>
    have side : ∀ {child path ct n}, badUnder nodes fuel k child = some (n, p) → ct.length ≤ maxNodes →
        walkSide nodes maxNodes fuel k child path ct = .error (badChildError maxNodes (ct.length + n) p) := by
      intro child path ct n hu hct
      obtain ⟨hc, ⟨hle, rfl, rfl⟩ | ⟨hlt, hbelow⟩⟩ := badUnder_eq_some hu
      · rw [walkSide_bad hc hle, badChildError, Nat.add_zero, if_pos hct]
      · rw [walkSide_below hc hlt, ih hbelow hct]
    obtain ⟨hk, hl | ⟨l, m, hl, hr, rfl⟩⟩ := firstBadChild_eq_some h
    · rw [walk_internal hk, side hl hct]
      rfl
    · rw [walk_internal hk, walkSide_eq_record hl hct fun h => walk_eq_record h hct]
      exact record_bind_error fun ct => side hr

end Sys2Proof.Machine
end

section
/-! The command GEN: its two ends, the table it leaves, and the order of its codes (43_code_table_generator.md R170 to
R173). -/

namespace Sys2Proof.Machine

/-! ### The order of the codes -/

/-- Two rows with codes in lexicographic order, neither code an initial part of the other (R173 (c), (d)). -/
def CodeRow.Precedes (a b : CodeRow) : Prop := ¬ a.code <+: b.code ∧ ¬ b.code <+: a.code ∧ a.code < b.code

theorem CodeRow.Precedes.ne_nil {a b : CodeRow} (h : a.Precedes b) : a.code ≠ [] ∧ b.code ≠ [] := by
  obtain ⟨hab, hba, -⟩ := h
  exact ⟨fun h => hab (h ▸ List.nil_prefix), fun h => hba (h ▸ List.nil_prefix)⟩

theorem CodeRow.Precedes.under {a b : CodeRow} (h : a.Precedes b) (bit : Bool) : (a.under bit).Precedes (b.under bit) := by
  simpa [Precedes, CodeRow.under, List.cons_prefix_cons, List.cons_lt_cons_iff] using h

theorem CodeRow.precedes_of_sides (a b : CodeRow) : (a.under false).Precedes (b.under true) := by
  simp [Precedes, CodeRow.under, List.cons_prefix_cons, List.cons_lt_cons_iff]

/-- The paths to the leaves below a handle precede each other from left to right. -/
theorem pairwise_leafPaths {nodes : Nat → Node} {fuel k : Nat} {rows : List CodeRow}
    (h : leafPaths nodes fuel k = some rows) : rows.Pairwise CodeRow.Precedes := by
  induction fuel generalizing k rows with
  | zero => cases h
  | succ fuel ih =>
    have side : ∀ {child rows}, leavesUnder nodes fuel k child = some rows → ∀ bit,
        (rows.map (CodeRow.under bit)).Pairwise CodeRow.Precedes := by
      intro child rows hu bit
      rcases leavesUnder_eq_some hu with ⟨-, rfl⟩ | ⟨-, -, hu⟩
      · exact .nil
      · exact List.pairwise_map.2 ((ih hu).imp fun h => h.under bit)
    rcases leafPaths_eq_some h with ⟨-, rfl⟩ | ⟨-, l, r, hl, hr, rfl⟩
    · exact List.pairwise_singleton _ _
    · refine List.pairwise_append.2 ⟨side hl false, side hr true, fun a ha b hb => ?_⟩
      obtain ⟨a, -, rfl⟩ := List.mem_map.1 ha
      obtain ⟨b, -, rfl⟩ := List.mem_map.1 hb
      exact a.precedes_of_sides b

theorem tableRow_code_ne_nil (path : List Bool) (e : CodeRow) : (tableRow path e).code ≠ [] := by
  unfold tableRow
  split <;> simp_all

theorem tableRow_of_ne_nil {e : CodeRow} (h : e.code ≠ []) : tableRow [] e = e := by simp [tableRow, h]

/-- The "0" of the empty path (R171) keeps the order: a row with the empty code precedes none and is preceded by none. -/
theorem pairwise_map_tableRow {rows : List CodeRow} (h : rows.Pairwise CodeRow.Precedes) :
    (rows.map (tableRow [])).Pairwise CodeRow.Precedes := by
  refine List.pairwise_map.2 (h.imp fun hab => ?_)
  obtain ⟨ha, hb⟩ := hab.ne_nil
  rwa [tableRow_of_ne_nil ha, tableRow_of_ne_nil hb]

/-! ### What GEN computes -/

variable {s t : State} {rows l : List CodeRow} {r : Raise} {n p : Nat}

/-- The leaves below the root, as GEN's walk finds them. -/
def State.leaves (s : State) : Option (List CodeRow) := leafPaths s.nodeAt (s.root.toNat + 1) s.root.toNat

/-- The first bad child GEN's walk meets. -/
def State.badChild (s : State) : Option (Nat × Nat) := firstBadChild s.nodeAt (s.root.toNat + 1) s.root.toNat

theorem State.genResult_of_not_rootValid (h : rootValid s.cfg s.nodeCnt s.root = false) :
    s.genResult = .error ⟨.badTree, s.root⟩ := by
  simp [State.genResult, genOf, h]

theorem State.genResult_of_rootValid (h : rootValid s.cfg s.nodeCnt s.root = true) :
    s.genResult = walk s.nodeAt s.cfg.maxNodes (s.root.toNat + 1) s.root.toNat [] [] := if_pos h

theorem State.genResult_of_leaves (hroot : rootValid s.cfg s.nodeCnt s.root = true) (h : s.leaves = some rows) :
    s.genResult = if rows.length ≤ s.cfg.maxNodes then .ok (rows.map (tableRow [])) else .error capacityExceeded := by
  rw [genResult_of_rootValid hroot, walk_eq_record h (Nat.zero_le _)]
  simp [record]

theorem State.genResult_of_badChild (hroot : rootValid s.cfg s.nodeCnt s.root = true) (h : s.badChild = some (n, p)) :
    s.genResult = .error (badChildError s.cfg.maxNodes n p) := by
  rw [genResult_of_rootValid hroot, walk_eq_error h (Nat.zero_le _), List.length_nil, Nat.zero_add]

/-- GEN's table is that of the leaves below the root. -/
theorem State.leaves_of_genResult (h : s.genResult = .ok l) : ∃ rows, s.leaves = some rows ∧ l = rows.map (tableRow []) := by
  cases hroot : rootValid s.cfg s.nodeCnt s.root with
  | false => rw [genResult_of_not_rootValid hroot] at h; cases h
  | true =>
    cases hleaves : s.leaves with
    | none =>
      obtain ⟨n, p, hbad⟩ := exists_firstBadChild (Nat.lt_succ_self _) hleaves
      rw [genResult_of_badChild hroot hbad] at h
      cases h
    | some rows =>
      rw [genResult_of_leaves hroot hleaves] at h
      split at h
      · cases h
        exact ⟨rows, rfl, rfl⟩
      · cases h

/-- GEN's table and its codes have lengths that fit their registers. -/
theorem State.genResult_lengths (hv : s.cfg.Valid) (h : s.genResult = .ok l) :
    l.length < 2 ^ 32 ∧ ∀ e ∈ l, e.code.length < 2 ^ 32 := by
  cases hroot : rootValid s.cfg s.nodeCnt s.root with
  | false => rw [genResult_of_not_rootValid hroot] at h; cases h
  | true =>
    rw [genResult_of_rootValid hroot] at h
    obtain ⟨-, -, ⟨-, -, hsyms⟩, -⟩ := hv
    have hlen := length_le_of_walk h (Nat.zero_le _)
    have hlt := rootValid_lt hroot
    rw [Params.maxNodes] at hlen hlt
    refine ⟨by omega, fun e he => ?_⟩
    rcases mem_of_walk h e he with he | ⟨k, path, hpath, rfl⟩
    · cases he
    · rw [length_leafRow_code]
      rw [List.length_nil] at hpath
      omega

/-! ### The command -/

theorem exec_gen_of_ok (h : s.genResult = .ok l) : exec .gen s = .next ((s.enter .gen).writeGen l).commandEnd := by
  rw [exec_eq_runOf, show runOf .gen s = stageGen s from rfl, stageGen_ok h, Run.finish]

theorem exec_gen_of_error (h : s.genResult = .error r) : ∃ t, exec .gen s = .next t ∧ t.EndedWith r.kind r.info := by
  rw [exec_eq_runOf, show runOf .gen s = stageGen s from rfl, stageGen_error h]
  exact ⟨_, rfl, State.endedWith_errorEntry _ r⟩

/-- GEN's table, read back after the command's end. -/
theorem State.codeTable_gen_end (hv : s.cfg.Valid) (h : s.genResult = .ok l) :
    ((s.enter .gen).writeGen l).commandEnd.codeTable = l := by
  obtain ⟨hlen, hcodes⟩ := genResult_lengths hv h
  exact State.codeTable_writeGen hlen hcodes

/-- The code bits of an entry GEN wrote read 0 past its code (20_memory.md R69). -/
theorem State.codeBit_writeGen_of_ge (hl : ∀ e ∈ l, e.code.length < 2 ^ 32) {j n : Nat} (hj : j < l.length)
    (hn : ((s.writeGen l).ctAt j).len.toNat ≤ n) : (s.writeGen l).codeBit j n = false := by
  have hlen : ((s.writeGen l).ctAt j).len.toNat = l[j].code.length := by
    simp [State.ctAt, Buf.get_full, List.getD_eq_getElem?_getD, hj, toNat_ofNat_of_lt (hl _ (List.getElem_mem hj))]
  have hbit : (s.writeGen l).codeBit j n = l[j].code.getD n false := by
    simp [State.codeBit, Buf.full, lookupCell_numberFrom, hj]
  rw [hbit]
  exact List.getD_eq_default _ _ (hlen ▸ hn)

/-- A GEN that ended without error left the table it computed. -/
theorem codeTable_of_gen_endedOk (hv : s.cfg.Valid) (h : exec .gen s = .next t) (hok : t.EndedOk) :
    s.genResult = .ok t.codeTable := by
  cases hres : s.genResult with
  | ok l =>
    rw [exec_gen_of_ok hres] at h
    cases h
    rw [State.codeTable_gen_end hv hres]
  | error r =>
    obtain ⟨t', ht', hend⟩ := exec_gen_of_error hres
    obtain rfl : t' = t := by rw [ht'] at h; cases h; rfl
    obtain ⟨hdone, -⟩ := hok
    obtain ⟨herr, -⟩ := hend
    exact absurd (hdone.symm.trans herr) (by decide)

end Sys2Proof.Machine
end

section
/-! The statements of the family 43_code_table_generator.md. -/

namespace Sys2Proof.Proofs

open Sys2Proof.Machine

/-- Settles O30: with no bad child the walk records the leaves below the root, and the command's end leaves their rows to be
read. -/
theorem genRecordsTheLeafPaths : Obligations.GenRecordsTheLeafPaths := by
  intro s rows hv hroot hleaves hfits
  have hres : s.genResult = .ok (rows.map (tableRow [])) := by
    rw [State.genResult_of_leaves hroot hleaves, if_pos hfits]
  obtain ⟨hlen, hcodes⟩ := State.genResult_lengths hv hres
  refine ⟨_, exec_gen_of_ok hres, State.endedOk_commandEnd _, State.codeTable_gen_end hv hres, fun j hj n hn => ?_⟩
  have hcnt : ((s.enter .gen).writeGen (rows.map (tableRow []))).commandEnd.ctCnt.toNat = (rows.map (tableRow [])).length :=
    toNat_ofNat_of_lt hlen
  exact State.codeBit_writeGen_of_ge hcodes (hcnt ▸ hj) hn

/-- Settles O31, by the walk of a tree with a bad child and of one whose leaves overflow CT. -/
theorem genTrapsOnABadTree : Obligations.GenTrapsOnABadTree := by
  intro s _
  refine ⟨fun hroot => exec_gen_of_error (State.genResult_of_not_rootValid hroot), fun hroot hnone => ?_,
    fun rows hroot hleaves hover => ?_⟩
  · obtain ⟨n, p, hbad⟩ := exists_firstBadChild (Nat.lt_succ_self _) hnone
    obtain ⟨path, hpath, hleaf, b, hc, hle⟩ := exists_descend_badParent hbad
    obtain ⟨t, ht, hend⟩ := exec_gen_of_error (State.genResult_of_badChild hroot hbad)
    refine ⟨n, p, path, b, hbad, hpath, hleaf, hc, hle, t, ht, fun hfits => ?_, fun hover => ?_⟩
    · rwa [badChildError, if_pos hfits] at hend
    · rwa [badChildError, if_neg (Nat.not_le.2 hover)] at hend
  · have hres : s.genResult = .error capacityExceeded := by
      rw [State.genResult_of_leaves hroot hleaves, if_neg (Nat.not_le.2 hover)]
    exact exec_gen_of_error hres

/-- Settles O32: the paths to the leaves of a tree, left before right, are in order and none begins another. -/
theorem genTableIsAnOrderedPrefixCode : Obligations.GenTableIsAnOrderedPrefixCode := by
  intro s t hv ht hok
  obtain ⟨rows, hleaves, htable⟩ := State.leaves_of_genResult (codeTable_of_gen_endedOk hv ht hok)
  rw [htable]
  refine ⟨fun e he => ?_, pairwise_map_tableRow (pairwise_leafPaths hleaves)⟩
  obtain ⟨e, -, rfl⟩ := List.mem_map.1 he
  exact tableRow_code_ne_nil [] e

end Sys2Proof.Proofs
end

section
/-! What ENCODE computes (44_encoder.md R180, R181): the loop over a part of the text all of whose codes fit, and what it
does at the symbol after that part. -/

namespace Sys2Proof.Machine

variable {s : State} {ct : List CodeRow} {x : Symbol} {code l : List Bool} {m i n : Nat} {pre rest post : List Symbol}

/-! ### The code of a symbol, and the codes of a text -/

theorem lookupCode_eq_none_iff : lookupCode ct x = none ↔ ∀ e ∈ ct, e.sym ≠ x := by
  simp [lookupCode]

theorem exists_lookupCode (h : ∃ e ∈ ct, e.sym = x) : ∃ code, lookupCode ct x = some code := by
  obtain ⟨e, he, hx⟩ := h
  exact Option.ne_none_iff_exists'.1 fun hnone => lookupCode_eq_none_iff.1 hnone e he hx

/-- The codes of a text in input order (R180); `State.encodeResult_of_fits` ties it to ENCODE. -/
def codesOf (ct : List CodeRow) (txt : List Symbol) : List Bool := txt.flatMap fun x => (lookupCode ct x).getD []

@[simp] theorem codesOf_nil (ct : List CodeRow) : codesOf ct [] = [] := rfl

theorem codesOf_cons (h : lookupCode ct x = some code) (txt : List Symbol) :
    codesOf ct (x :: txt) = code ++ codesOf ct txt := by
  simp [codesOf, h]

/-! ### The loop -/

theorem encodeLoop_cons_missing (h : lookupCode ct x = none) :
    encodeLoop m ct i n (x :: rest) = .error ⟨.missingCode, BitVec.ofNat 32 i⟩ := by
  simp only [encodeLoop, h]

theorem encodeLoop_cons_over (h : lookupCode ct x = some code) (hover : m < n + code.length) :
    encodeLoop m ct i n (x :: rest) = .error capacityExceeded := by
  simp only [encodeLoop, h, if_pos hover]

theorem encodeLoop_cons_fits (h : lookupCode ct x = some code) (hfits : n + code.length ≤ m) :
    encodeLoop m ct i n (x :: rest) = (encodeLoop m ct (i + 1) (n + code.length) rest).map (code ++ ·) := by
  simp only [encodeLoop, h, if_neg (Nat.not_lt.2 hfits)]
  cases encodeLoop m ct (i + 1) (n + code.length) rest <;> rfl

/-- Symbols with codes that fit are encoded one after another, and the loop goes on behind them. -/
theorem encodeLoop_append (hcov : ∀ x ∈ pre, ∃ e ∈ ct, e.sym = x) (hfits : n + (codesOf ct pre).length ≤ m) :
    encodeLoop m ct i n (pre ++ rest) =
      (encodeLoop m ct (i + pre.length) (n + (codesOf ct pre).length) rest).map (codesOf ct pre ++ ·) := by
  induction pre generalizing i n with
  | nil =>
    simp only [List.nil_append, codesOf_nil, List.length_nil, Nat.add_zero]
    cases encodeLoop m ct i n rest <;> rfl
  | cons x pre ih =>
    obtain ⟨hx, hpre⟩ := List.forall_mem_cons.1 hcov
    obtain ⟨code, hcode⟩ := exists_lookupCode hx
    rw [codesOf_cons hcode, List.length_append, ← Nat.add_assoc] at hfits
    have hhead : n + code.length ≤ m := Nat.le_of_add_right_le hfits
    have hi : i + 1 + pre.length = i + (x :: pre).length := by simp only [List.length_cons]; omega
    rw [List.cons_append, encodeLoop_cons_fits hcode hhead, ih hpre hfits, codesOf_cons hcode, List.length_append,
      ← Nat.add_assoc, hi]
    cases encodeLoop m ct (i + (x :: pre).length) (n + code.length + (codesOf ct pre).length) rest with
    | ok bits => exact congrArg Except.ok (List.append_assoc code _ bits).symm
    | error r => rfl

/-! ### The result -/

theorem State.encodeResult_of_long (h : s.cfg.maxTxt < s.txtLen.toNat) : s.encodeResult = .error capacityExceeded :=
  if_pos h

/-- ENCODE's result for a text that begins with symbols whose codes fit is the loop's behind them. -/
theorem State.encodeResult_of_append (hlen : s.txtLen.toNat ≤ s.cfg.maxTxt) (htext : s.text = pre ++ rest)
    (hcov : ∀ x ∈ pre, ∃ e ∈ s.codeTable, e.sym = x) (hfits : (codesOf s.codeTable pre).length ≤ s.cfg.maxBits) :
    s.encodeResult =
      (encodeLoop s.cfg.maxBits s.codeTable pre.length (codesOf s.codeTable pre).length rest).map
        (codesOf s.codeTable pre ++ ·) := by
  rw [State.encodeResult, if_neg (Nat.not_lt.2 hlen), htext, encodeLoop_append hcov (by rwa [Nat.zero_add]), Nat.zero_add,
    Nat.zero_add]

theorem State.encodeResult_of_fits (hlen : s.txtLen.toNat ≤ s.cfg.maxTxt)
    (hcov : ∀ x ∈ s.text, ∃ e ∈ s.codeTable, e.sym = x) (hfits : (codesOf s.codeTable s.text).length ≤ s.cfg.maxBits) :
    s.encodeResult = .ok (codesOf s.codeTable s.text) := by
  rw [State.encodeResult_of_append hlen (List.append_nil _).symm hcov hfits]
  exact congrArg Except.ok (List.append_nil _)

theorem State.encodeResult_of_missing (hlen : s.txtLen.toNat ≤ s.cfg.maxTxt) (htext : s.text = pre ++ x :: post)
    (hcov : ∀ y ∈ pre, ∃ e ∈ s.codeTable, e.sym = y) (hfits : (codesOf s.codeTable pre).length ≤ s.cfg.maxBits)
    (hmissing : ∀ e ∈ s.codeTable, e.sym ≠ x) :
    s.encodeResult = .error ⟨.missingCode, BitVec.ofNat 32 pre.length⟩ := by
  rw [State.encodeResult_of_append hlen htext hcov hfits, encodeLoop_cons_missing (lookupCode_eq_none_iff.2 hmissing),
    Except.map]

theorem State.encodeResult_of_over (hlen : s.txtLen.toNat ≤ s.cfg.maxTxt) (htext : s.text = pre ++ x :: post)
    (hcov : ∀ y ∈ pre, ∃ e ∈ s.codeTable, e.sym = y) (hfits : (codesOf s.codeTable pre).length ≤ s.cfg.maxBits)
    (hcode : lookupCode s.codeTable x = some code)
    (hover : s.cfg.maxBits < (codesOf s.codeTable pre).length + code.length) :
    s.encodeResult = .error capacityExceeded := by
  rw [State.encodeResult_of_append hlen htext hcov hfits, encodeLoop_cons_over hcode hover, Except.map]

/-! ### The command -/

theorem exec_encode_of_ok (h : s.encodeResult = .ok l) :
    exec .encode s = .next ((s.enter .encode).writeEncode l).commandEnd := by
  rw [exec_eq_runOf, show runOf .encode s = stageEncode s from rfl, stageEncode_ok h, Run.finish]

theorem exec_encode_of_error {r : Raise} (h : s.encodeResult = .error r) :
    ∃ t, exec .encode s = .next t ∧ t.EndedWith r.kind r.info := by
  rw [exec_eq_runOf, show runOf .encode s = stageEncode s from rfl, stageEncode_error h]
  exact ⟨_, rfl, State.endedWith_errorEntry _ r⟩

/-- ENCODE's bits, read back after the command's end. -/
theorem State.bitSeq_encode_end (hv : s.cfg.Valid) (h : s.encodeResult = .ok l) :
    ((s.enter .encode).writeEncode l).commandEnd.bitSeq = l := by
  obtain ⟨-, -, -, ⟨-, hbits⟩, -⟩ := hv
  exact State.bitSeq_writeEncode (Nat.lt_of_le_of_lt (State.encodeResult_fits h) hbits)

end Sys2Proof.Machine
end

section
/-! The statements of the family 44_encoder.md. -/

namespace Sys2Proof.Proofs

open Sys2Proof.Machine

/-- Settles O33: with the whole text covered and fitting, the loop's result is the codes of the text. -/
theorem encodeConcatenatesTheCodes : Obligations.EncodeConcatenatesTheCodes := by
  intro s hv hlen hcov hfits
  have hres := State.encodeResult_of_fits hlen hcov hfits
  exact ⟨_, exec_encode_of_ok hres, State.endedOk_commandEnd _, State.bitSeq_encode_end hv hres⟩

/-- Settles O34: a long text is refused before the loop, and behind the symbols whose codes fit the loop raises at the next. -/
theorem encodeTrapsAtTheFirstBadSymbol : Obligations.EncodeTrapsAtTheFirstBadSymbol := by
  intro s _
  refine ⟨fun hlong => exec_encode_of_error (State.encodeResult_of_long hlong), fun pre x post hlen htext hcov hfits =>
    ⟨fun hmissing => ?_, fun code hcode hover => ?_⟩⟩
  · exact exec_encode_of_error (State.encodeResult_of_missing hlen htext hcov hfits hmissing)
  · exact exec_encode_of_error (State.encodeResult_of_over hlen htext hcov hfits hcode hover)

end Sys2Proof.Proofs
end

section
/-! What DECODE computes (45_decoder.md R190, R191): the loop over the bits of whole codewords and of a path inside the tree,
and what it does at the bit after them. -/

namespace Sys2Proof.Machine

variable {s : State} {nodes : Nat → Node} {m root k cur h : Nat} {b : Bool} {path part bits rest : List Bool}
  {l out : List Symbol} {e : CodeRow} {rows : List CodeRow}

/-! ### Paths, one bit at a time -/

theorem childOf_leaf {n : Node} (hn : n.leaf = true) (b : Bool) : childOf n b = noneHandle := if_pos hn

theorem childOf_internal {n : Node} (hn : n.leaf = false) (b : Bool) : childOf n b = if b then n.right else n.left := by
  simp [childOf, hn]

/-- One bit leads to a child that is present and below its parent. -/
theorem descend_singleton_eq_some : descend nodes k [b] = some h ↔
    childOf (nodes k) b ≠ noneHandle ∧ (childOf (nodes k) b).toNat < k ∧ (childOf (nodes k) b).toNat = h := by
  cases hk : (nodes k).leaf with
  | true => simp [descend, hk, childOf_leaf hk]
  | false => simp [descend, hk, childOf_internal hk, and_assoc]

theorem descend_append (nodes : Nat → Node) (k : Nat) (p q : List Bool) :
    descend nodes k (p ++ q) = (descend nodes k p).bind (descend nodes · q) := by
  induction p generalizing k with
  | nil => rfl
  | cons b p ih =>
    simp only [List.cons_append, descend, ih]
    generalize (if b then (nodes k).right else (nodes k).left) = c
    split
    · rfl
    · split <;> rfl

theorem descend_cons_eq_some : descend nodes k (b :: path) = some h ↔
    ∃ c, descend nodes k [b] = some c ∧ descend nodes c path = some h := by
  rw [← List.singleton_append, descend_append, Option.bind_eq_some_iff]

theorem descend_concat_eq_some : descend nodes k (path ++ [b]) = some h ↔
    ∃ p, descend nodes k path = some p ∧ descend nodes p [b] = some h := by
  rw [descend_append, Option.bind_eq_some_iff]

/-- A path that leads on starts at an internal node. -/
theorem leaf_eq_false_of_descend (hd : descend nodes k (b :: path) = some h) : (nodes k).leaf = false :=
  Bool.eq_false_iff.2 fun hk => by simp [descend, hk] at hd

theorem leaf_eq_false_of_descend_internal (hd : descend nodes k path = some h) (hh : (nodes h).leaf = false) :
    (nodes k).leaf = false := by
  cases path with
  | nil => cases hd; exact hh
  | cons b path => exact leaf_eq_false_of_descend hd

theorem descend_le (hd : descend nodes k path = some h) : h ≤ k := by
  induction path generalizing k with
  | nil => cases hd; exact Nat.le_refl _
  | cons b path ih =>
    obtain ⟨c, hstep, hc⟩ := descend_cons_eq_some.1 hd
    obtain ⟨-, hlt, rfl⟩ := descend_singleton_eq_some.1 hstep
    exact Nat.le_trans (ih hc) (Nat.le_of_lt hlt)

/-- A path never comes back to where it starts (R192: `cur = root` only between codewords). -/
theorem descend_ne_self (hd : descend nodes k path = some h) (hpath : path ≠ []) : h ≠ k := by
  obtain ⟨b, path, rfl⟩ := List.exists_cons_of_ne_nil hpath
  obtain ⟨c, hstep, hc⟩ := descend_cons_eq_some.1 hd
  obtain ⟨-, hlt, rfl⟩ := descend_singleton_eq_some.1 hstep
  exact Nat.ne_of_lt (Nat.lt_of_le_of_lt (descend_le hc) hlt)

/-! ### The loop, one bit at a time -/

theorem decodeLoop_cons_absent (hc : childOf (nodes cur) b = noneHandle) :
    decodeLoop nodes m root k cur out (b :: rest) = .error ⟨.malformedBitstream, BitVec.ofNat 32 k⟩ := by
  simp only [decodeLoop, if_pos hc]

theorem decodeLoop_cons_bad (hc : childOf (nodes cur) b ≠ noneHandle) (hle : cur ≤ (childOf (nodes cur) b).toNat) :
    decodeLoop nodes m root k cur out (b :: rest) = .error ⟨.badTree, BitVec.ofNat 32 cur⟩ := by
  simp only [decodeLoop, if_neg hc, if_pos hle]

/-- A bit that leads to node `h`: an internal node moves the cursor, a leaf emits its symbol unless TXT is full. -/
theorem decodeLoop_cons_step (hstep : descend nodes cur [b] = some h) :
    decodeLoop nodes m root k cur out (b :: rest) =
      if (nodes h).leaf then
        if out.length = m then .error capacityExceeded
        else decodeLoop nodes m root (k + 1) root (out ++ [(nodes h).sym]) rest
      else decodeLoop nodes m root (k + 1) h out rest := by
  obtain ⟨hc, hlt, rfl⟩ := descend_singleton_eq_some.1 hstep
  simp only [decodeLoop, if_neg hc, if_neg (Nat.not_le.2 hlt)]

/-! ### The loop over a path, a codeword, and codewords -/

/-- A path to an internal node moves the cursor there. -/
theorem decodeLoop_path (hd : descend nodes cur path = some h) (hh : path ≠ [] → (nodes h).leaf = false) :
    decodeLoop nodes m root k cur out (path ++ rest) = decodeLoop nodes m root (k + path.length) h out rest := by
  induction path generalizing k cur with
  | nil => cases hd; rfl
  | cons b path ih =>
    have hinner : (nodes h).leaf = false := hh (List.cons_ne_nil b path)
    obtain ⟨c, hstep, hc⟩ := descend_cons_eq_some.1 hd
    rw [List.cons_append, decodeLoop_cons_step hstep, leaf_eq_false_of_descend_internal hc hinner, if_neg Bool.false_ne_true,
      ih hc fun _ => hinner, List.length_cons, Nat.add_right_comm, Nat.add_assoc]

/-- A codeword emits its symbol and brings the cursor back to the root, unless TXT is full: its last bit leads to a leaf from
the internal node that the bits before lead to. -/
theorem decodeLoop_codeword (he : IsCodeword nodes root e) :
    decodeLoop nodes m root k root out (e.code ++ rest) =
      if out.length = m then .error capacityExceeded
      else decodeLoop nodes m root (k + e.code.length) root (out ++ [e.sym]) rest := by
  obtain ⟨hne, h, hd, hleaf, hsym⟩ := he
  obtain ⟨path, b, hcode⟩ := (List.eq_nil_or_concat' e.code).resolve_left hne
  rw [hcode] at hd ⊢
  obtain ⟨p, hp, hstep⟩ := descend_concat_eq_some.1 hd
  rw [List.append_assoc, decodeLoop_path hp fun _ => leaf_eq_false_of_descend hstep, List.singleton_append,
    decodeLoop_cons_step hstep, if_pos hleaf, hsym, List.length_append, List.length_singleton, Nat.add_assoc]

/-- Codewords that fit in TXT emit their symbols. -/
theorem decodeLoop_codewords (hrows : ∀ e ∈ rows, IsCodeword nodes root e) (hfits : out.length + rows.length ≤ m) :
    decodeLoop nodes m root k root out (codewordBits rows ++ rest) =
      decodeLoop nodes m root (k + (codewordBits rows).length) root (out ++ rows.map CodeRow.sym) rest := by
  induction rows generalizing k out with
  | nil => simp [codewordBits]
  | cons e rows ih =>
    obtain ⟨he, hrows⟩ := List.forall_mem_cons.1 hrows
    rw [List.length_cons] at hfits
    have hbits : codewordBits (e :: rows) = e.code ++ codewordBits rows := List.flatMap_cons
    have hroom : (out ++ [e.sym]).length + rows.length ≤ m := by
      simp only [List.length_append, List.length_singleton]
      omega
    rw [hbits, List.append_assoc, decodeLoop_codeword he, if_neg (by omega), ih hrows hroom, List.length_append,
      Nat.add_assoc, List.append_assoc, List.singleton_append, List.map_cons]

/-! ### The result -/

theorem decodeOf_of_rootValid {cfg : Params} {cnt root : Word} (hroot : rootValid cfg cnt root = true) :
    decodeOf cfg bits nodes cnt root = decodeLoop nodes cfg.maxTxt root.toNat 0 root.toNat [] bits := by
  cases bits with
  | nil => simp [decodeOf, decodeLoop]
  | cons b bits => simp [decodeOf, hroot]

theorem State.decodeResult_of_long (hlong : s.cfg.maxBits < s.bitLen.toNat) : s.decodeResult = .error capacityExceeded :=
  if_pos hlong

theorem State.decodeResult_of_no_bits (hzero : s.bitLen = 0) : s.decodeResult = .ok [] := by
  simp [State.decodeResult, decodeOf, State.bitSeq, hzero]

theorem State.decodeResult_of_not_rootValid (hne : s.bitLen ≠ 0) (hlen : s.bitLen.toNat ≤ s.cfg.maxBits)
    (hroot : rootValid s.cfg s.nodeCnt s.root = false) : s.decodeResult = .error ⟨.badTree, s.root⟩ := by
  have hbits : s.bitSeq ≠ [] := fun hnil => hne (BitVec.eq_of_toNat_eq (by rw [← State.length_bitSeq, hnil]; rfl))
  simp [State.decodeResult, decodeOf, Nat.not_lt.2 hlen, hbits, hroot]

/-- DECODE's result for bits that begin with codewords is the loop's at the root behind them. -/
theorem State.decodeResult_of_codewords (hlen : s.bitLen.toNat ≤ s.cfg.maxBits)
    (hroot : rootValid s.cfg s.nodeCnt s.root = true) (hrows : ∀ e ∈ rows, IsCodeword s.nodeAt s.root.toNat e)
    (hfits : rows.length ≤ s.cfg.maxTxt) (hbits : s.bitSeq = codewordBits rows ++ rest) :
    s.decodeResult = decodeLoop s.nodeAt s.cfg.maxTxt s.root.toNat (codewordBits rows).length s.root.toNat
      (rows.map CodeRow.sym) rest := by
  rw [State.decodeResult, if_neg (Nat.not_lt.2 hlen), decodeOf_of_rootValid hroot, hbits,
    decodeLoop_codewords hrows (by simpa using hfits), Nat.zero_add, List.nil_append]

/-- DECODE's result for bits that begin with codewords and a path from the root is the loop's at the end of the path. -/
theorem State.decodeResult_of_path (hlen : s.bitLen.toNat ≤ s.cfg.maxBits)
    (hroot : rootValid s.cfg s.nodeCnt s.root = true) (hrows : ∀ e ∈ rows, IsCodeword s.nodeAt s.root.toNat e)
    (hfits : rows.length ≤ s.cfg.maxTxt) (hd : descend s.nodeAt s.root.toNat part = some h)
    (hh : part ≠ [] → (s.nodeAt h).leaf = false) (hbits : s.bitSeq = codewordBits rows ++ part ++ rest) :
    s.decodeResult = decodeLoop s.nodeAt s.cfg.maxTxt s.root.toNat ((codewordBits rows).length + part.length) h
      (rows.map CodeRow.sym) rest := by
  rw [State.decodeResult_of_codewords hlen hroot hrows hfits (hbits.trans (List.append_assoc ..)), decodeLoop_path hd hh]

/-! ### The command -/

theorem exec_decode_of_ok (hres : s.decodeResult = .ok l) :
    exec .decode s = .next ((s.enter .decode).writeDecode l).commandEnd := by
  rw [exec_eq_runOf, show runOf .decode s = stageDecode s from rfl, stageDecode_ok hres, Run.finish]

theorem exec_decode_of_error {r : Raise} (hres : s.decodeResult = .error r) :
    ∃ t, exec .decode s = .next t ∧ t.EndedWith r.kind r.info := by
  rw [exec_eq_runOf, show runOf .decode s = stageDecode s from rfl, stageDecode_error hres]
  exact ⟨_, rfl, State.endedWith_errorEntry _ r⟩

/-- DECODE's text, read back after the command's end. -/
theorem State.text_decode_end (hl : l.length < 2 ^ 32) : ((s.enter .decode).writeDecode l).commandEnd.text = l :=
  State.text_writeDecode hl

end Sys2Proof.Machine
end

section
/-! The statements of the family 45_decoder.md. -/

namespace Sys2Proof.Proofs

open Sys2Proof.Machine

/-- Settles O36: behind the codewords no bit is left and the cursor is at the root. -/
theorem decodeReadsCodewords : Obligations.DecodeReadsCodewords := by
  intro s rows hv hlen hroot hrows hbits hfits
  have hres : s.decodeResult = .ok (rows.map CodeRow.sym) := by
    rw [State.decodeResult_of_codewords hlen hroot hrows hfits (hbits.trans (List.append_nil _).symm),
      decodeLoop, if_pos rfl]
  have hlt : (rows.map CodeRow.sym).length < 2 ^ 32 := by
    obtain ⟨-, ⟨-, htxt⟩, -⟩ := hv
    rw [List.length_map]
    omega
  exact ⟨_, exec_decode_of_ok hres, State.endedOk_commandEnd _, State.text_decode_end hlt⟩

/-- Settles O37: the path leaves the cursor below the root when the bits end. -/
theorem decodeTrapsInsideACodeword : Obligations.DecodeTrapsInsideACodeword := by
  intro s rows part h _ hlen hroot hrows hfits hne hd hleaf hbits
  have hinfo : BitVec.ofNat 32 ((codewordBits rows).length + part.length) = s.bitLen := by
    rw [← List.length_append, ← hbits, State.length_bitSeq, BitVec.ofNat_toNat, BitVec.setWidth_eq]
  have hres : s.decodeResult = .error ⟨.malformedBitstream, s.bitLen⟩ := by
    rw [State.decodeResult_of_path hlen hroot hrows hfits hd (fun _ => hleaf) (hbits.trans (List.append_nil _).symm),
      decodeLoop, if_neg (descend_ne_self hd hne), hinfo]
  exact exec_decode_of_error hres

/-- Settles O38: a leaf root and an internal node without the child both have no child for the bit. -/
theorem decodeTrapsAtAnAbsentChild : Obligations.DecodeTrapsAtAnAbsentChild := by
  intro s rows part h b rest _ hlen hroot hrows hfits hd hcase hbits
  have hinner : part ≠ [] → (s.nodeAt h).leaf = false := fun hne =>
    hcase.elim (fun hat => absurd hat.2 hne) And.left
  have habsent : childOf (s.nodeAt h) b = noneHandle := by
    rcases hcase with ⟨hleaf, -⟩ | ⟨hleaf, hnone⟩
    · exact childOf_leaf hleaf b
    · exact (childOf_internal hleaf b).trans hnone
  exact exec_decode_of_error
    ((State.decodeResult_of_path hlen hroot hrows hfits hd hinner hbits).trans (decodeLoop_cons_absent habsent))

/-- Settles O39: an invalid root is refused before the loop, and the loop checks the child the path's end has for the next
bit. -/
theorem decodeTrapsOnABadTree : Obligations.DecodeTrapsOnABadTree := by
  refine ⟨fun s hne hlen hroot => exec_decode_of_error (State.decodeResult_of_not_rootValid hne hlen hroot), ?_⟩
  intro s rows part h b rest _ hlen hroot hrows hfits hd hleaf hc hle hbits
  rw [← childOf_internal hleaf b] at hc hle
  exact exec_decode_of_error
    ((State.decodeResult_of_path hlen hroot hrows hfits hd (fun _ => hleaf) hbits).trans (decodeLoop_cons_bad hc hle))

/-- Settles O40: too many bits are refused before the loop, and with TXT full the next codeword is refused at its leaf. -/
theorem decodeTrapsOnCapacity : Obligations.DecodeTrapsOnCapacity := by
  refine ⟨fun s hlong => exec_decode_of_error (State.decodeResult_of_long hlong), ?_⟩
  intro s rows e rest _ hlen hroot hrows hfull he hbits
  have hres : s.decodeResult = .error capacityExceeded := by
    rw [State.decodeResult_of_codewords hlen hroot hrows hfull.le (hbits.trans (List.append_assoc ..)),
      decodeLoop_codeword he, if_pos ((List.length_map ..).trans hfull)]
  exact exec_decode_of_error hres

/-- Settles O35: no bits are decoded before the tree is looked at. -/
theorem decodeOfNoBitsIsTheEmptyText : Obligations.DecodeOfNoBitsIsTheEmptyText := fun _ hzero =>
  ⟨_, exec_decode_of_ok (State.decodeResult_of_no_bits hzero), State.endedOk_commandEnd _, rfl⟩

end Sys2Proof.Proofs
end

section
/-! What PACK and UNPACK compute (46_bit_packer.md R200 to R203), and that the bits come back through bytes and base64
(R204). -/

namespace Sys2Proof.Machine

variable {s : State} {payload bytes : List Byte} {l : List Bool} {n : Nat}

/-! ### Padded bits come back from their bytes -/

theorem bitsOfByte_byteOfBits (b₀ b₁ b₂ b₃ b₄ b₅ b₆ b₇ : Bool) :
    bitsOfByte (byteOfBits b₀ b₁ b₂ b₃ b₄ b₅ b₆ b₇) = [b₀, b₁, b₂, b₃, b₄, b₅, b₆, b₇] := by
  revert b₀ b₁ b₂ b₃ b₄ b₅ b₆ b₇
  decide

/-- Whole bytes expand to the bits they were grouped from (R96). -/
theorem bitsOfBytes_bytesOfBits (hl : l.length % 8 = 0) : bitsOfBytes (bytesOfBits l) = l := by
  induction l using bytesOfBits.induct with
  | case1 b₀ b₁ b₂ b₃ b₄ b₅ b₆ b₇ l ih =>
    have hrest : l.length % 8 = 0 := by simp only [List.length_cons] at hl; omega
    rw [bytesOfBits, bitsOfBytes, bitsOfByte_byteOfBits, ih hrest]
    rfl
  | case2 l hshort =>
    have hlen := length_bytesOfBits l
    rw [bytesOfBits.eq_2 _ hshort, List.length_nil] at hlen
    have hnil : l = [] := List.eq_nil_of_length_eq_zero (by omega)
    rw [bytesOfBits.eq_2 _ hshort, hnil, bitsOfBytes]

/-- The padding fills the last byte (R200). -/
theorem add_padCount_mod (n : Nat) : (n + padCount n) % 8 = 0 := by unfold padCount; omega

theorem padCount_lt (n : Nat) : padCount n < 8 := Nat.mod_lt _ (by decide)

/-! ### The function `Unpack` -/

theorem unpackBits_of_b64Dec (hdec : b64Dec payload = some bytes) (hn : n ≤ 8 * bytes.length) :
    unpackBits payload n = .ok ((bitsOfBytes bytes).take n) := by
  simp only [unpackBits, hdec, if_neg (Nat.not_lt.2 hn)]

theorem length_of_unpackBits (h : unpackBits payload n = .ok l) : l.length = n := by
  unfold unpackBits at h
  split at h
  · cases h
  · split at h
    · cases h
    · cases h
      rw [List.length_take, length_bitsOfBytes]
      omega

/-- `Unpack` of what `Pack` made (R204). -/
theorem unpackBits_packPayload (l : List Bool) : unpackBits (packPayload l) l.length = .ok l := by
  have hpadded : (l ++ List.replicate (padCount l.length) false).length = l.length + padCount l.length := by
    rw [List.length_append, List.length_replicate]
  have hwhole : (l ++ List.replicate (padCount l.length) false).length % 8 = 0 := by
    rw [hpadded, add_padCount_mod]
  rw [packPayload, unpackBits_of_b64Dec (b64Dec_b64Enc _), bitsOfBytes_bytesOfBits hwhole, List.take_left]
  rw [length_bytesOfBits, hpadded]
  omega

/-! ### The command PACK -/

/-- The length of PACK's payload fits its register. -/
theorem State.packPayload_lt (hv : s.cfg.Valid) (hb : s.bitLen.toNat ≤ s.cfg.maxBits) :
    (packPayload s.bitSeq).length < 2 ^ 32 := by
  have hfits := State.packPayload_fits hv hb
  obtain ⟨-, -, -, -, -, hpay⟩ := hv
  exact Nat.lt_of_le_of_lt hfits hpay

theorem exec_pack_of_le (hb : s.bitLen.toNat ≤ s.cfg.maxBits) : exec .pack s =
    .next ((s.enter .pack).writePack (packPayload s.bitSeq) (padCount s.bitLen.toNat)).commandEnd := by
  rcases stagePack_cases s with ⟨-, h⟩ | ⟨hover, -⟩
  · rw [exec_eq_runOf, show runOf .pack s = stagePack s from rfl, h, Run.finish]
  · exact absurd hb (Nat.not_le.2 hover)

/-- PACK ends with the payload of `Pack` in PAY, its length and the padding count in their registers, and BIT_LEN as it was
(R201). -/
theorem exec_pack_spec (hv : s.cfg.Valid) (hb : s.bitLen.toNat ≤ s.cfg.maxBits) :
    ∃ t, exec .pack s = .next t ∧ t.EndedOk ∧ t.cfg = s.cfg ∧ t.bitLen = s.bitLen ∧
      t.pad.toNat = padCount s.bitLen.toNat ∧ t.payload = packPayload s.bitSeq ∧
      t.payLen.toNat = (packPayload s.bitSeq).length := by
  have hlt := State.packPayload_lt hv hb
  refine ⟨_, exec_pack_of_le hb, State.endedOk_commandEnd _, rfl, rfl, ?_, ?_, ?_⟩
  · exact (BitVec.toNat_ofNat ..).trans (Nat.mod_eq_of_lt (padCount_lt _))
  · exact State.payload_writePack (s := s.enter .pack) hlt (padCount s.bitLen.toNat)
  · exact toNat_ofNat_of_lt hlt

/-! ### The command UNPACK -/

theorem State.unpackResult_of_le (hp : s.payLen.toNat ≤ s.cfg.maxPay) (hb : s.bitLen.toNat ≤ s.cfg.maxBits) :
    s.unpackResult = unpackBits s.payload s.bitLen.toNat := by
  rw [State.unpackResult, if_neg (Nat.not_lt.2 hp), if_neg (Nat.not_lt.2 hb)]

theorem exec_unpack_of_ok (h : s.unpackResult = .ok l) :
    exec .unpack s = .next ((s.enter .unpack).writeUnpack l).commandEnd := by
  rw [exec_eq_runOf, show runOf .unpack s = stageUnpack s from rfl, stageUnpack_ok h, Run.finish]

/-- UNPACK ends with the bits of `Unpack` in BITS and BIT_LEN as it was (R203). -/
theorem exec_unpack_spec (hp : s.payLen.toNat ≤ s.cfg.maxPay) (hb : s.bitLen.toNat ≤ s.cfg.maxBits)
    (h : unpackBits s.payload s.bitLen.toNat = .ok l) :
    ∃ t, exec .unpack s = .next t ∧ t.EndedOk ∧ t.bitLen = s.bitLen ∧ t.bitSeq = l :=
  ⟨_, exec_unpack_of_ok ((State.unpackResult_of_le hp hb).trans h), State.endedOk_commandEnd _,
    State.writeUnpack_bitLen .., State.bitSeq_writeUnpack (length_of_unpackBits h)⟩

theorem State.bitAt_eq_getD_bitSeq {k : Nat} (hk : k < s.bitLen.toNat) : s.bitAt k = s.bitSeq.getD k false := by
  simp [State.bitSeq, List.getD_eq_getElem?_getD, hk]

end Sys2Proof.Machine
end

section
/-! The statements of the family 46_bit_packer.md. -/

namespace Sys2Proof.Proofs

open Sys2Proof.Machine

/-- Settles O43: the payload, its length and the padding count are those of the function `Pack`. -/
theorem packWritesThePaddedBase64 : Obligations.PackWritesThePaddedBase64 := by
  intro s hv hb
  obtain ⟨t, ht, hok, -, -, hpad, hpayload, hpayLen⟩ := exec_pack_spec hv hb
  refine ⟨t, ht, hok, hpad, ?_, ?_⟩
  · rw [hpayload, packPayload, State.length_bitSeq, padCount]
  · rw [hpayLen, length_packPayload, State.length_bitSeq]

/-- Settles O44: bit `k` of the sequence UNPACK leaves is bit `k` of the expanded bytes. -/
theorem unpackWritesTheFirstBits : Obligations.UnpackWritesTheFirstBits := by
  intro s bytes _ hp hb hdec hlen
  obtain ⟨t, ht, hok, hbitLen, hseq⟩ := exec_unpack_spec hp hb (unpackBits_of_b64Dec hdec hlen)
  refine ⟨t, ht, hok, hbitLen, fun k hk => ?_⟩
  calc t.bitAt k = ((bitsOfBytes bytes).take s.bitLen.toNat).getD k false := by
        rw [State.bitAt_eq_getD_bitSeq (hbitLen ▸ hk), hseq]
    _ = (bitsOfBytes bytes).getD k false := by
        rw [List.getD_eq_getElem?_getD, List.getElem?_take_of_lt hk, ← List.getD_eq_getElem?_getD]
    _ = (bytes.getD (k / 8) 0).getLsbD (7 - k % 8) := getD_bitsOfBytes bytes (Nat.lt_of_lt_of_le hk hlen)

/-- Settles O46: as commands, UNPACK reads back the payload and the bit length PACK leaves, and computes the function
`Unpack` of `Pack`. -/
theorem unpackInvertsPack : Obligations.UnpackInvertsPack := by
  refine ⟨unpackBits_packPayload, fun s hv hb => ?_⟩
  obtain ⟨t, ht, htok, hcfg, hbitLen, -, hpayload, hpayLen⟩ := exec_pack_spec hv hb
  have hres : unpackBits t.payload t.bitLen.toNat = .ok s.bitSeq := by
    rw [hpayload, hbitLen, ← State.length_bitSeq, unpackBits_packPayload]
  have hp : t.payLen.toNat ≤ t.cfg.maxPay := by
    rw [hpayLen, hcfg]
    exact State.packPayload_fits hv hb
  obtain ⟨u, hu, huok, hlen, hseq⟩ := exec_unpack_spec hp (by rwa [hbitLen, hcfg]) hres
  exact ⟨t, u, ht, htok, hu, huok, hlen.trans hbitLen, hseq⟩

end Sys2Proof.Proofs
end

section
/-! The runs of the facade (47_facade.md R220, R223, R232): a stage does not read what the end of a command writes, so a run
of stages ends as their commands one after another do. -/

namespace Sys2Proof.Machine

variable {s t u a : State} {r r' : Run} {p : Phase} {ps : List Phase} {i : Instr}

/-! ### The two ends of a run -/

theorem State.EndedWith.not_endedOk {kind : ErrKind} {info : Word} (h : t.EndedWith kind info) : ¬ t.EndedOk := fun hok => by
  obtain ⟨herr, -⟩ := h
  obtain ⟨hdone, -⟩ := hok
  exact absurd (hdone.symm.trans herr) (by decide)

/-- A run whose end is one without error has finished its stages. -/
theorem Run.eq_ok_of_endedOk (h : r.finish.EndedOk) : ∃ t, r = .ok t ∧ r.finish = t.commandEnd := by
  cases r with
  | ok t => exact ⟨t, rfl, rfl⟩
  | raised t e => exact absurd h (t.endedWith_errorEntry e).not_endedOk

theorem Run.eq_raised_of_not_endedOk (h : ¬ r.finish.EndedOk) : ∃ t e, r = .raised t e ∧ r.finish = t.errorEntry e := by
  cases r with
  | ok t => exact absurd t.endedOk_commandEnd h
  | raised t e => exact ⟨t, e, rfl, rfl⟩

/-- A run that raises ends there, whatever was to follow. -/
theorem Run.finish_andThen_of_not_endedOk {f : State → Run} (h : ¬ r.finish.EndedOk) : (r.andThen f).finish = r.finish := by
  obtain ⟨t, e, rfl, -⟩ := Run.eq_raised_of_not_endedOk h
  rfl

/-! ### Stages after the end of a command -/

/-- A stage ends as it would without the end of a command before it: every stage sets PHASE and the working registers itself,
and its own end sets the other control registers. -/
theorem finish_runStage_commandEnd (p : Phase) (s : State) :
    (runStage p s.commandEnd).finish = (runStage p s).finish := by
  cases p with
  | idle | clear => rfl
  | freq =>
    rcases stageFreq_cases s with ⟨l, hres, h⟩ | ⟨e, hres, h⟩ <;> rw [runStage, runStage, h]
    · rw [stageFreq_ok (s := s.commandEnd) hres]; rfl
    · rw [stageFreq_error (s := s.commandEnd) hres]; rfl
  | gen =>
    rcases stageGen_cases s with ⟨l, hres, h⟩ | ⟨e, hres, h⟩ <;> rw [runStage, runStage, h]
    · rw [stageGen_ok (s := s.commandEnd) hres]; rfl
    · rw [stageGen_error (s := s.commandEnd) hres]; rfl
  | encode =>
    rcases stageEncode_cases s with ⟨l, hres, h⟩ | ⟨e, hres, h⟩ <;> rw [runStage, runStage, h]
    · rw [stageEncode_ok (s := s.commandEnd) hres]; rfl
    · rw [stageEncode_error (s := s.commandEnd) hres]; rfl
  | unpack =>
    rcases stageUnpack_cases s with ⟨l, hres, h⟩ | ⟨e, hres, h⟩ <;> rw [runStage, runStage, h]
    · rw [stageUnpack_ok (s := s.commandEnd) hres]; cases l <;> rfl
    · rw [stageUnpack_error (s := s.commandEnd) hres]; rfl
  | decode =>
    rcases stageDecode_cases s with ⟨l, hres, h⟩ | ⟨e, hres, h⟩ <;> rw [runStage, runStage, h]
    · rw [stageDecode_ok (s := s.commandEnd) hres]; rfl
    · rw [stageDecode_error (s := s.commandEnd) hres]; rfl
  | build =>
    by_cases h : s.ftCnt = 0 <;> simp only [runStage, stageBuild, State.commandEnd_ftCnt, h, if_true, if_false] <;> rfl
  | stats =>
    by_cases h : s.ftCnt = 0 <;> simp only [runStage, stageStats, State.commandEnd_ftCnt, h, if_true, if_false] <;> rfl
  | pack =>
    by_cases h : s.cfg.maxBits < s.bitLen.toNat <;>
      simp only [runStage, stagePack, State.packResult, State.commandEnd_cfg, State.commandEnd_bitLen, h, if_true, if_false] <;>
      rfl

/-- States that the end of a command makes equal are told apart by no run of stages. -/
theorem finish_runStages_congr (h : s.commandEnd = t.commandEnd) : (runStages ps s).finish = (runStages ps t).finish := by
  induction ps generalizing s t with
  | nil => exact h
  | cons p ps ih =>
    have hstage : (runStage p s).finish = (runStage p t).finish := by
      rw [← finish_runStage_commandEnd, h, finish_runStage_commandEnd]
    simp only [runStages]
    by_cases hok : (runStage p s).finish.EndedOk
    · obtain ⟨s', hs, hs'⟩ := Run.eq_ok_of_endedOk hok
      obtain ⟨t', ht, ht'⟩ := Run.eq_ok_of_endedOk (hstage ▸ hok)
      rw [hs, ht]
      exact ih (hs'.symm.trans (hstage.trans ht'))
    · rw [Run.finish_andThen_of_not_endedOk hok, Run.finish_andThen_of_not_endedOk (hstage ▸ hok), hstage]

/-- Behind a first part that ends without error, a run goes on from the state its command leaves. -/
theorem Run.finish_andThen_runStages (h : r.finish = a) (hok : a.EndedOk) (f : State → List Phase)
    (hf : ∀ t : State, f t.commandEnd = f t) :
    (r.andThen fun t => runStages (f t) t).finish = (runStages (f a) a).finish := by
  obtain ⟨t, rfl, ht⟩ := Run.eq_ok_of_endedOk (h ▸ hok)
  obtain rfl := ht.symm.trans h
  rw [hf]
  exact finish_runStages_congr rfl

theorem runOf_eq_runStage (hi : i ≠ .compress) (hi' : i ≠ .decompress) (s : State) :
    runOf i s = runStage (firstStage i) s := by
  cases i with
  | compress => exact absurd rfl hi
  | decompress => exact absurd rfl hi'
  | freq | build | gen | encode | pack | unpack | decode | clear => rfl

theorem finish_runStage_of_exec (hi : i ≠ .compress) (hi' : i ≠ .decompress) (h : exec i s = .next a) :
    (runStage (firstStage i) s).finish = a := by
  rw [exec_eq_runOf, runOf_eq_runStage hi hi'] at h
  exact Host.Outcome.next.inj h

/-- A run of stages whose first is a command of its own goes on from the state that command leaves without error. -/
theorem finish_runStages_of_endedOk (hi : i ≠ .compress) (hi' : i ≠ .decompress) (h : exec i s = .next a) (hok : a.EndedOk)
    (ps : List Phase) : (runStages (firstStage i :: ps) s).finish = (runStages ps a).finish :=
  Run.finish_andThen_runStages (finish_runStage_of_exec hi hi' h) hok (fun _ => ps) fun _ => rfl

/-- It ends in the state that command leaves with an error. -/
theorem finish_runStages_of_not_endedOk (hi : i ≠ .compress) (hi' : i ≠ .decompress) (h : exec i s = .next a)
    (hok : ¬ a.EndedOk) (ps : List Phase) : (runStages (firstStage i :: ps) s).finish = a := by
  have hstage := finish_runStage_of_exec hi hi' h
  rw [runStages, Run.finish_andThen_of_not_endedOk (hstage ▸ hok), hstage]

/-! ### The facade's commands -/

theorem exec_compress (s : State) : exec .compress s = .next (compressRun s).finish := rfl

theorem exec_decompress (s : State) : exec .decompress s = .next (decompressRun s).finish := rfl

/-- COMPRESS goes on from the state FREQ leaves without error (R220). -/
theorem exec_compress_of_freq (h : exec .freq s = .next a) (hok : a.EndedOk) :
    exec .compress s = .next (runStages (stagesAfterFreq a) a).finish := by
  rw [exec_compress, compressRun, Run.finish_andThen_runStages (Host.Outcome.next.inj h) hok stagesAfterFreq fun _ => rfl]

theorem exec_compress_of_freq_error (h : exec .freq s = .next a) (hok : ¬ a.EndedOk) : exec .compress s = .next a := by
  have hstage : (stageFreq s).finish = a := Host.Outcome.next.inj h
  rw [exec_compress, compressRun, Run.finish_andThen_of_not_endedOk (hstage ▸ hok), hstage]

theorem stagesAfterFreq_of_ne (h : a.ftCnt ≠ 0) : stagesAfterFreq a =
    [firstStage .build, firstStage .gen, firstStage .encode, firstStage .pack, .stats] := if_neg h

theorem stagesAfterFreq_of_zero (h : a.ftCnt = 0) : stagesAfterFreq a = [.stats] := if_pos h

/-- A state that a command leaves without error is that of an end without error. -/
theorem eq_commandEnd_of_endedOk (h : exec i s = .next a) (hok : a.EndedOk) : a = a.commandEnd := by
  rw [exec_eq_runOf] at h
  obtain rfl := Host.Outcome.next.inj h
  obtain ⟨t, -, ht⟩ := Run.eq_ok_of_endedOk hok
  rw [ht]
  rfl

/-- STATS behind a command that ended without error writes the statistics and nothing else (R222). -/
theorem finish_runStages_stats (h : exec i s = .next a) (hok : a.EndedOk) (hne : a.ftCnt ≠ 0) :
    (runStages [.stats] a).finish = a.writeStats := by
  rcases stageStats_cases a with ⟨h0, -⟩ | ⟨-, hr⟩
  · exact absurd h0 hne
  · have hend : (runStages [.stats] a).finish = a.commandEnd.writeStats := by
      rw [runStages, runStage, hr]
      rfl
    rw [hend, ← eq_commandEnd_of_endedOk h hok]

/-- FT_CNT after a command that does not list it. -/
theorem WritesOnly.ftCnt_eq (h : WritesOnly i s t) (hi : writesCsr i 5 = false) : t.ftCnt = s.ftCnt := h.csr 5 (by decide) hi

section
variable {b c d e : State} (ha : exec .freq s = .next a) (haok : a.EndedOk) (hne : a.ftCnt ≠ 0)
  (hb : exec .build a = .next b) (hbok : b.EndedOk) (hc : exec .gen b = .next c) (hcok : c.EndedOk)
include ha haok hne hb hbok hc hcok

/-- Behind FREQ, BUILD and GEN, COMPRESS goes on with ENCODE, PACK and the statistics (R220). -/
theorem exec_compress_of_gen : exec .compress s = .next (runStages [firstStage .encode, firstStage .pack, .stats] c).finish := by
  rw [exec_compress_of_freq ha haok, stagesAfterFreq_of_ne hne, finish_runStages_of_endedOk (by simp) (by simp) hb hbok,
    finish_runStages_of_endedOk (by simp) (by simp) hc hcok]

/-- COMPRESS of stages that all end without error leaves the last one's state with the statistics (R220). -/
theorem exec_compress_of_pack (hd : exec .encode c = .next d) (hdok : d.EndedOk) (he : exec .pack d = .next e)
    (heok : e.EndedOk) : exec .compress s = .next e.writeStats := by
  have hft : e.ftCnt = a.ftCnt :=
    calc e.ftCnt = d.ftCnt := (exec_writesOnly he).ftCnt_eq rfl
      _ = c.ftCnt := (exec_writesOnly hd).ftCnt_eq rfl
      _ = b.ftCnt := (exec_writesOnly hc).ftCnt_eq rfl
      _ = a.ftCnt := (exec_writesOnly hb).ftCnt_eq rfl
  rw [exec_compress_of_gen ha haok hne hb hbok hc hcok, finish_runStages_of_endedOk (by simp) (by simp) hd hdok,
    finish_runStages_of_endedOk (by simp) (by simp) he heok, finish_runStages_stats he heok (hft ▸ hne)]

/-- A COMPRESS whose ENCODE raises ends there (R220). -/
theorem exec_compress_of_encode_error (hd : exec .encode c = .next d) (hdok : ¬ d.EndedOk) : exec .compress s = .next d := by
  rw [exec_compress_of_gen ha haok hne hb hbok hc hcok, finish_runStages_of_not_endedOk (by simp) (by simp) hd hdok]

end

/-- DECOMPRESS is DECODE of the state UNPACK leaves without error (R223). -/
theorem exec_decompress_of_unpack (h : exec .unpack s = .next u) (hok : u.EndedOk) : exec .decompress s = exec .decode u := by
  have hend : (decompressRun s).finish = (runStages [.decode] u).finish :=
    finish_runStages_of_endedOk (i := .unpack) (by simp) (by simp) h hok [.decode]
  rw [exec_decompress, hend, runStages, runStage]
  cases hr : stageDecode u <;> simp only [exec, execDecode, hr] <;> rfl

theorem exec_decompress_of_unpack_error (h : exec .unpack s = .next u) (hok : ¬ u.EndedOk) :
    exec .decompress s = .next u :=
  congrArg Host.Outcome.next (finish_runStages_of_not_endedOk (i := .unpack) (by simp) (by simp) h hok [.decode])

end Sys2Proof.Machine
end

section
/-! Statements of the family 47_facade.md: CLEAR, and the facade as its stage commands. -/

namespace Sys2Proof.Proofs

open Sys2Proof.Machine

/-- Settles O47: CLEAR's writes are the reset values, read register by register. -/
theorem clearResetsTheRegisters : Obligations.ClearResetsTheRegisters := by
  intro s
  have ht : exec .clear s = .next ((s.enter .clear).writeClear).commandEnd := rfl
  refine ⟨_, ht, State.endedOk_commandEnd _, fun x hx => ?_, fun sp x hsp => ?_⟩
  · match x, hx with
    | 4, _ | 5, _ | 6, _ | 7, _ | 8, _ | 9, _ | 10, _ | 11, _ | 12, _ | 13, _ | 14, _ | 15, _ | 16, _ | 17, _ => rfl
    | _ + 18, _ => rfl
  · have hw := exec_writesOnly ht
    exact (hw.buffer sp hsp rfl).spaceRead_eq hw.cfg x

/-- Settles O50: each stage goes on from the state the command before it leaves. -/
theorem compressIsItsStagesInOrder : Obligations.CompressIsItsStagesInOrder :=
  ⟨fun _ _ _ _ _ _ ha haok hne hb hbok hc hcok => exec_compress_of_pack ha haok hne hb hbok hc hcok,
    fun _ _ => exec_compress_of_freq_error,
    fun _ _ _ _ _ ha haok hne hb hbok hc hcok => exec_compress_of_encode_error ha haok hne hb hbok hc hcok⟩

/-- Settles O58: DECODE is the second stage, and a raise of the first ends the run. -/
theorem decompressIsUnpackThenDecode : Obligations.DecompressIsUnpackThenDecode := fun _ _ hu =>
  ⟨exec_decompress_of_unpack hu, exec_decompress_of_unpack_error hu⟩

end Sys2Proof.Proofs
end

section
/-! The leaves of a tree as a function of its nodes: they do not depend on the levels allowed nor on the entries above the
root, and every one is at the end of its path. -/

namespace Sys2Proof.Machine

variable {nodes nodes' : Nat → Node} {fuel fuel' k h : Nat} {child : Word} {rows : List CodeRow} {e : CodeRow}
  {path : List Bool}

/-- The leaves below a handle are told by the entries up to it, with any number of levels above it. -/
theorem leafPaths_congr (hnodes : ∀ h ≤ k, nodes' h = nodes h) (hf : k < fuel) (hf' : k < fuel') :
    leafPaths nodes' fuel' k = leafPaths nodes fuel k := by
  induction fuel generalizing k fuel' with
  | zero => omega
  | succ fuel ih =>
    obtain ⟨fuel', rfl⟩ : ∃ f, fuel' = f + 1 := ⟨fuel' - 1, by omega⟩
    have side : ∀ child, leavesUnder nodes' fuel' k child = leavesUnder nodes fuel k child := by
      intro child
      unfold leavesUnder
      split
      · rfl
      · split
        · exact ih (fun h hh => hnodes h (by omega)) (by omega) (by omega)
        · rfl
    cases hk : (nodes k).leaf with
    | true => rw [leafPaths_leaf hk, leafPaths_leaf (hnodes k le_rfl ▸ hk), hnodes k le_rfl]
    | false =>
      rw [leafPaths_internal hk, leafPaths_internal (hnodes k le_rfl ▸ hk), side, side, hnodes k le_rfl]

/-- A path is told by the entries up to the handle it starts from. -/
theorem descend_congr (hnodes : ∀ h ≤ k, nodes' h = nodes h) : descend nodes' k path = descend nodes k path := by
  induction path generalizing k with
  | nil => rfl
  | cons b path ih =>
    simp only [descend, hnodes k le_rfl]
    generalize (if b then (nodes k).right else (nodes k).left) = c
    split
    · rfl
    · split
      · rfl
      · next hc => exact ih fun h hh => hnodes h (hh.trans (Nat.le_of_not_le fun hle => hc (.inr hle)))

/-- A codeword is told by the entries up to the root. -/
theorem IsCodeword.congr (hnodes : ∀ h ≤ k, nodes' h = nodes h) (he : IsCodeword nodes k e) : IsCodeword nodes' k e := by
  obtain ⟨hne, h, hd, hh⟩ := he
  refine ⟨hne, h, (descend_congr hnodes).trans hd, ?_⟩
  rwa [hnodes h (descend_le hd)]

/-- The code of a leaf is the path to it. -/
theorem exists_descend_of_mem_leafPaths (hrows : leafPaths nodes fuel k = some rows) (he : e ∈ rows) :
    ∃ h, descend nodes k e.code = some h ∧ (nodes h).leaf = true ∧ (nodes h).sym = e.sym := by
  induction fuel generalizing k rows e with
  | zero => cases hrows
  | succ fuel ih =>
    have side : (nodes k).leaf = false → ∀ (b : Bool) {l : List CodeRow},
        leavesUnder nodes fuel k (if b then (nodes k).right else (nodes k).left) = some l → e ∈ l.map (.under b) →
        ∃ h, descend nodes k e.code = some h ∧ (nodes h).leaf = true ∧ (nodes h).sym = e.sym := by
      intro hk b l hl he
      obtain ⟨e', he', rfl⟩ := List.mem_map.1 he
      rcases leavesUnder_eq_some hl with ⟨-, rfl⟩ | ⟨hc, hlt, hl⟩
      · cases he'
      · obtain ⟨h, hd, hh⟩ := ih hl he'
        exact ⟨h, (descend_cons hk b hc hlt).trans hd, hh⟩
    rcases leafPaths_eq_some hrows with ⟨hk, rfl⟩ | ⟨hk, l, r, hl, hr, rfl⟩
    · obtain rfl := List.mem_singleton.1 he
      exact ⟨k, rfl, hk, rfl⟩
    · exact (List.mem_append.1 he).elim (side hk false hl) (side hk true hr)

/-- No code is empty where the root is an internal node (43_code_table_generator.md R173 (b)). -/
theorem code_ne_nil_of_mem_leafPaths (hk : (nodes k).leaf = false) (hrows : leafPaths nodes fuel k = some rows) (he : e ∈ rows) :
    e.code ≠ [] := by
  obtain ⟨h, hd, hh, -⟩ := exists_descend_of_mem_leafPaths hrows he
  rintro hnil
  rw [hnil] at hd
  cases hd
  rw [hk] at hh
  cases hh

end Sys2Proof.Machine
end

section
/-! The tree of two leaves or more that the merge loop makes (42_tree_builder.md R151 to R153): all its handles have leaves,
each leaf of the table is below the root once, no path is longer than there are internal nodes, and a node that comes later in
the queue is no deeper. -/

namespace Sys2Proof.Machine

/-! ### The order of the queue -/

section
variable {nodes : Nat → Node} {a b c : Nat}

theorem before_iff : Before nodes a b ↔ (nodes a).weight.toNat < (nodes b).weight.toNat ∨
    ((nodes a).weight.toNat = (nodes b).weight.toNat ∧ a < b) := by
  simp only [Before, BitVec.toNat_inj]

theorem Before.asymm (hab : Before nodes a b) : ¬ Before nodes b a := by
  rw [before_iff] at *
  omega

theorem Before.trans (hab : Before nodes a b) (hbc : Before nodes b c) : Before nodes a c := by
  rw [before_iff] at *
  omega

end

/-! ### The tree -/

/-- The leaves below a handle with the paths to them; `MergedTree.leafPaths_eq` ties it to the walk of GEN. -/
def leavesAt (nodes : Nat → Node) (k : Nat) : List CodeRow := (leafPaths nodes (k + 1) k).getD []

/-- The arena of `n ≥ 2` leaves and of the passes of the merge loop over them. -/
structure MergedTree (nodes : Nat → Node) (n : Nat) : Prop where
  two_le : 2 ≤ n
  handles : 2 * n ≤ 2 ^ 32
  leaf : ∀ j < n, (nodes j).leaf = true
  joins : ∀ k, n ≤ k → k < 2 * n - 1 → JoinsFirstTwo nodes n k

namespace MergedTree

variable {nodes : Nat → Node} {n h k k' u v : Nat} {e : CodeRow} {p q : List Bool}

theorem child_ne_none (ht : MergedTree nodes n) {c : Word} (hc : c.toNat < k) (hk : k < 2 * n - 1) : c ≠ noneHandle := by
  rintro rfl
  have hnone : noneHandle.toNat = 2 ^ 32 - 1 := rfl
  have := ht.handles
  omega

/-! ### The leaves -/

theorem leafPaths_eq (ht : MergedTree nodes n) (hk : k < 2 * n - 1) :
    leafPaths nodes (k + 1) k = some (leavesAt nodes k) := by
  induction k using Nat.strong_induction_on with
  | _ k ih =>
    suffices hsome : ∃ rows, leafPaths nodes (k + 1) k = some rows by
      obtain ⟨rows, hrows⟩ := hsome
      rw [leavesAt, hrows]
      rfl
    have side : ∀ c : Word, c.toNat < k → ∃ l, leavesUnder nodes k k c = some l := fun c hc =>
      ⟨leavesAt nodes c.toNat, by
        rw [leavesUnder_below (ht.child_ne_none hc hk) hc, ← ih _ hc (by omega)]
        exact leafPaths_congr (fun _ _ => rfl) (by omega) hc⟩
    rcases Nat.lt_or_ge k n with hn | hn
    · exact ⟨_, leafPaths_leaf (ht.leaf k hn)⟩
    · have hpass := ht.joins k hn hk
      obtain ⟨l, hl⟩ := side _ hpass.left.1
      obtain ⟨r, hr⟩ := side _ hpass.right.1
      exact ⟨_, by rw [leafPaths_internal hpass.internal.1, hl, hr]; rfl⟩

theorem leavesAt_leaf (ht : MergedTree nodes n) (hk : k < n) : leavesAt nodes k = [⟨(nodes k).sym, []⟩] := by
  rw [leavesAt, leafPaths_leaf (ht.leaf k hk)]
  rfl

theorem leavesAt_join (ht : MergedTree nodes n) (hn : n ≤ k) (hk : k < 2 * n - 1) : leavesAt nodes k =
    (leavesAt nodes (nodes k).left.toNat).map (.under false) ++ (leavesAt nodes (nodes k).right.toNat).map (.under true) := by
  have hpass := ht.joins k hn hk
  have side : ∀ c : Word, c.toNat < k → leavesUnder nodes k k c = some (leavesAt nodes c.toNat) := fun c hc => by
    rw [leavesUnder_below (ht.child_ne_none hc hk) hc, ← ht.leafPaths_eq (by omega)]
    exact leafPaths_congr (fun _ _ => rfl) (by omega) hc
  rw [leavesAt, leafPaths_internal hpass.internal.1, side _ hpass.left.1, side _ hpass.right.1]
  rfl

/-! ### Every leaf once -/

/-- The handles still in the queue before entry `k` is made hold between them what the leaves hold, if every entry holds what
its two children do. -/
theorem exists_queue_sum {M : Type} [AddCommMonoid M] (ht : MergedTree nodes n) {f : Nat → M}
    (hf : ∀ k, n ≤ k → k < 2 * n - 1 → f k = f (nodes k).left.toNat + f (nodes k).right.toNat) (hn : n ≤ k)
    (hk : k ≤ 2 * n - 1) :
    ∃ total pq, QueueAt nodes n total k pq ∧ (pq.map f).sum = ((List.range n).map f).sum := by
  induction k, hn using Nat.le_induction with
  | base => exact ⟨_, _, QueueAt.leaves nodes n, rfl⟩
  | succ k hn ih =>
    obtain ⟨total, pq, hq, hsum⟩ := ih (by omega)
    have hpass := ht.joins k hn (by omega)
    have hl := (hq.mem_iff _).2 hpass.left
    have hr := (hq.mem_iff _).2 hpass.right
    have hne : (nodes k).right.toNat ≠ (nodes k).left.toNat := by
      intro heq
      have hord := hpass.ordered
      rw [heq] at hord
      exact hord.asymm hord
    have hperm := (List.perm_cons_erase hl).trans
      ((List.perm_cons_erase ((List.mem_erase_of_ne hne).2 hr)).cons (nodes k).left.toNat)
    refine ⟨total, _, hq.succ hn (fun k' hn' hk' => ht.joins k' hn' (by omega)) hperm, ?_⟩
    rw [← hsum, (hperm.map f).sum_eq, List.map_append, List.sum_append, List.map_singleton, List.sum_singleton,
      hf k hn (by omega), List.map_cons, List.map_cons, List.sum_cons, List.sum_cons]
    abel

/-- What every entry holds between its two children, the root holds of the leaves. -/
theorem root_eq_sum {M : Type} [AddCommMonoid M] (ht : MergedTree nodes n) {f : Nat → M}
    (hf : ∀ k, n ≤ k → k < 2 * n - 1 → f k = f (nodes k).left.toNat + f (nodes k).right.toNat) :
    f (2 * n - 2) = ((List.range n).map f).sum := by
  have htwo := ht.two_le
  obtain ⟨total, pq, hq, hsum⟩ := ht.exists_queue_sum hf (k := 2 * n - 1) (by omega) le_rfl
  rw [hq.eq_root htwo ht.joins] at hsum
  simpa using hsum

/-- The leaves below the root have the symbols of the table's leaves, each once. -/
theorem map_sym_leavesAt_root (ht : MergedTree nodes n) :
    ((leavesAt nodes (2 * n - 2)).map CodeRow.sym).Perm ((List.range n).map fun j => (nodes j).sym) := by
  have hroot := ht.root_eq_sum (f := fun k => (((leavesAt nodes k).map CodeRow.sym : List Symbol) : Multiset Symbol))
    fun k hn hk => by simp [ht.leavesAt_join hn hk, CodeRow.under, Function.comp_def]
  have hleaves : (List.range n).map (fun k => (((leavesAt nodes k).map CodeRow.sym : List Symbol) : Multiset Symbol)) =
      ((List.range n).map fun j => (nodes j).sym).map fun x => ({x} : Multiset Symbol) := by
    rw [List.map_map]
    exact List.map_congr_left fun j hj => by rw [ht.leavesAt_leaf (List.mem_range.1 hj)]; rfl
  have hsum := Multiset.sum_map_singleton (((List.range n).map fun j => (nodes j).sym : List Symbol) : Multiset Symbol)
  rw [Multiset.map_coe, Multiset.sum_coe, ← hleaves, ← hroot] at hsum
  exact Multiset.coe_eq_coe.1 hsum

/-! ### The depth of the leaves -/

/-- A path to a leaf passes at most the entries the loop has made up to its start (43_code_table_generator.md R173 (e)). -/
theorem length_code_le (ht : MergedTree nodes n) (hk : k < 2 * n - 1) (he : e ∈ leavesAt nodes k) :
    e.code.length ≤ k + 1 - n := by
  induction k using Nat.strong_induction_on generalizing e with
  | _ k ih =>
    rcases Nat.lt_or_ge k n with hn | hn
    · rw [ht.leavesAt_leaf hn] at he
      obtain rfl := List.mem_singleton.1 he
      exact Nat.zero_le _
    · have hpass := ht.joins k hn hk
      have side : ∀ (c : Nat) (b : Bool), c < k → e ∈ (leavesAt nodes c).map (.under b) → e.code.length ≤ k + 1 - n := by
        intro c b hc he
        obtain ⟨e', he', rfl⟩ := List.mem_map.1 he
        have := ih c hc (by omega) he'
        simp only [CodeRow.under, List.length_cons]
        omega
      rw [ht.leavesAt_join hn hk] at he
      exact (List.mem_append.1 he).elim (side _ _ hpass.left.1) (side _ _ hpass.right.1)

/-! ### The order of the depths -/

/-- Weights do not fall from entry to entry (R156). -/
theorem weight_le (ht : MergedTree nodes n) (hn : n ≤ k) (hkk : k ≤ k') (hk : k' < 2 * n - 1) :
    (nodes k).weight.toNat ≤ (nodes k').weight.toNat := by
  induction k', hkk using Nat.le_induction with
  | base => exact le_rfl
  | succ k' hkk ih =>
    exact (ih (by omega)).trans ((ht.joins k' (by omega) (by omega)).weight_le_succ (ht.joins _ (by omega) hk) (by omega))

theorem before_of_lt (ht : MergedTree nodes n) (hn : n ≤ k) (hlt : k < k') (hk : k' < 2 * n - 1) : Before nodes k k' := by
  have := ht.weight_le hn hlt.le hk
  rw [before_iff]
  omega

/-- A child comes before its parent. -/
theorem before_parent (ht : MergedTree nodes n) (hn : n ≤ k) (hk : k < 2 * n - 1) (hu : IsChild nodes u k) :
    Before nodes u k := by
  have hpass := ht.joins k hn hk
  have hw := hpass.weight
  have hl := hpass.left.1
  have hr := hpass.right.1
  rw [before_iff]
  rcases hu with rfl | rfl <;> omega

/-- An entry takes its children before every handle it leaves in the queue. -/
theorem child_before (ht : MergedTree nodes n) (hn : n ≤ k) (hk : k < 2 * n - 1) (hv : IsChild nodes v k)
    (hu : Unjoined nodes n k u) (hno : ¬ IsChild nodes u k) : Before nodes v u := by
  have hpass := ht.joins k hn hk
  have hright := hpass.rest u hu hno
  rcases hv with rfl | rfl
  · exact hpass.ordered.trans hright
  · exact hright

theorem unjoined_of_child (ht : MergedTree nodes n) (hn : n ≤ k) (hk : k < 2 * n - 1) (hu : IsChild nodes u k) :
    Unjoined nodes n k u := by
  have hpass := ht.joins k hn hk
  rcases hu with rfl | rfl
  · exact hpass.left
  · exact hpass.right

/-- Handles leave the queue in its order: what comes first is joined no later. -/
theorem parent_le (ht : MergedTree nodes n) (hn : n ≤ k) (hk : k < 2 * n - 1) (hn' : n ≤ k') (hk' : k' < 2 * n - 1)
    (hu : IsChild nodes u k) (hv : IsChild nodes v k') (huv : u = v ∨ Before nodes u v) : k ≤ k' := by
  by_contra hlt
  have hlt : k' < k := Nat.lt_of_not_le hlt
  have hun := ht.unjoined_of_child hn hk hu
  have hno : ¬ IsChild nodes u k' := hun.2 k' hn' hlt
  have hvu : Before nodes v u := by
    rcases Nat.lt_or_ge u k' with hcase | hcase
    · exact ht.child_before hn' hk' hv ⟨hcase, fun j hj hjk => hun.2 j hj (by omega)⟩ hno
    · have hv' := ht.before_parent hn' hk' hv
      have hu' := hun.1
      rcases Nat.lt_or_eq_of_le hcase with hcase | rfl
      · exact hv'.trans (ht.before_of_lt hn' hcase (by omega))
      · exact hv'
  rcases huv with rfl | huv
  · exact hno hv
  · exact huv.asymm hvu

/-- The last step of a path is from an entry of the loop to its child. -/
theorem isChild_of_descend (ht : MergedTree nodes n) {b : Bool} (hd : descend nodes k [b] = some h) :
    n ≤ k ∧ IsChild nodes h k := by
  have hinner := leaf_eq_false_of_descend hd
  obtain ⟨-, -, hc⟩ := descend_singleton_eq_some.1 hd
  rw [childOf_internal hinner] at hc
  refine ⟨Nat.le_of_not_lt fun hlt => ?_, ?_⟩
  · rw [ht.leaf k hlt] at hinner
    cases hinner
  · cases b
    · exact .inl hc
    · exact .inr hc

/-- What comes first in the queue is at least as deep: by induction on the shallower path, since parents keep the order. -/
theorem length_path_le (ht : MergedTree nodes n) (hp : descend nodes (2 * n - 2) p = some u)
    (hq : descend nodes (2 * n - 2) q = some v) (huv : u = v ∨ Before nodes u v) : q.length ≤ p.length := by
  have htwo := ht.two_le
  induction q using List.reverseRecOn generalizing p u v with
  | nil => exact Nat.zero_le _
  | append_singleton q b ih =>
    obtain ⟨k', hqk, hstep'⟩ := descend_concat_eq_some.1 hq
    have hk' := descend_le hqk
    obtain ⟨hn', hv⟩ := ht.isChild_of_descend hstep'
    rcases List.eq_nil_or_concat' p with rfl | ⟨p, c, rfl⟩
    · cases hp
      have hroot : Before nodes v (2 * n - 2) := by
        have hv' := ht.before_parent hn' (by omega) hv
        rcases Nat.lt_or_eq_of_le hk' with hlt | rfl
        · exact hv'.trans (ht.before_of_lt hn' hlt (by omega))
        · exact hv'
      rcases huv with rfl | huv
      · exact absurd hroot hroot.asymm
      · exact absurd hroot huv.asymm
    · obtain ⟨k, hpk, hstep⟩ := descend_concat_eq_some.1 hp
      have hk := descend_le hpk
      obtain ⟨hn, hu⟩ := ht.isChild_of_descend hstep
      have hkk := ht.parent_le hn (by omega) hn' (by omega) hu hv huv
      have := ih hpk hqk ((Nat.eq_or_lt_of_le hkk).imp_right fun hlt => ht.before_of_lt hn hlt (by omega))
      simp only [List.length_append, List.length_singleton]
      omega

end MergedTree

end Sys2Proof.Machine
end

section
/-! The Huffman tree of a text: the arena BUILD makes of the table FREQ makes, as a function of the text alone, and the code
table GEN makes of it. -/

namespace Sys2Proof.Machine

variable {spill spill' : Nat → Word} {fuel h : Nat} {pq : List Nat} {l l' : List Node} {ft : List FtEntry}

/-! ### No free value enters a tree whose weights fit -/

theorem weightOf_append_of_lt (hh : h < l.length) : weightOf (l ++ l') h = weightOf l h := by
  simp [weightOf, List.getElem?_append_left hh]

theorem weightOf_concat_length (l : List Node) (n : Node) : weightOf (l ++ [n]) l.length = n.weight.toNat := by
  simp [weightOf]

/-- As long as the weights in the queue sum to a number of 32 bits, the loop takes no free value. -/
theorem mergeLoop_eq_of_sum_lt (hfuel : fuel < pq.length) (hpq : ∀ h ∈ pq, h < l.length)
    (hsum : (pq.map (weightOf l)).sum < 2 ^ 32) : mergeLoop spill' fuel pq l = mergeLoop spill fuel pq l := by
  induction fuel generalizing pq l with
  | zero => rfl
  | succ fuel ih =>
    obtain ⟨a, b, rest, hperm, -, -, hloop⟩ := mergeLoop_succ l (pq := pq) (by omega)
    have hlen := hperm.length_eq
    rw [(hperm.map _).sum_eq] at hsum
    simp only [List.length_cons, List.map_cons, List.sum_cons] at hlen hsum
    have hfits : weightOf l a + weightOf l b < 2 ^ 32 := by omega
    have hrest : ∀ h ∈ rest, h < l.length := fun h hh => hpq h (hperm.mem_iff.2 (by simp [hh]))
    have hnode : mergedNode spill' l a b = mergedNode spill l a b := by simp only [mergedNode, addWeights, if_pos hfits]
    have hnew : weightOf (l ++ [mergedNode spill l a b]) l.length = weightOf l a + weightOf l b := by
      simp only [weightOf_concat_length, mergedNode, internalNode, addWeights, if_pos hfits, toNat_ofNat_of_lt hfits]
    have hold : rest.map (weightOf (l ++ [mergedNode spill l a b])) = rest.map (weightOf l) :=
      List.map_congr_left fun h hh => weightOf_append_of_lt (hrest h hh)
    rw [hloop, hloop, hnode]
    refine ih ?_ (fun h hh => ?_) ?_
    · rw [List.length_append, List.length_singleton]; omega
    · rw [List.length_append, List.length_singleton]
      rcases List.mem_append.1 hh with hh | hh
      · exact (hrest h hh).trans (Nat.lt_succ_self _)
      · exact List.mem_singleton.1 hh ▸ Nat.lt_succ_self _
    · rw [List.map_append, hold, List.map_singleton, hnew, List.sum_append, List.sum_singleton]
      omega

/-- The arena of a table whose counts sum to a number of 32 bits holds no free value. -/
theorem buildTree_eq_of_sum_lt (hsum : (ft.map fun e => e.count.toNat).sum < 2 ^ 32) :
    buildTree spill' ft = buildTree spill ft := by
  match ft, hsum with
  | [], _ | [_], _ => rfl
  | e₁ :: e₂ :: rest, hsum =>
    have hweights : (List.range (rest.length + 2)).map (weightOf ((e₁ :: e₂ :: rest).map leafNode)) =
        (e₁ :: e₂ :: rest).map fun e => e.count.toNat :=
      List.ext_getElem (by simp) fun k hk hk' => by
        simp only [List.getElem_map, List.getElem_range, weightOf, List.getElem?_map, List.getElem?_eq_getElem
          (show k < (e₁ :: e₂ :: rest).length by simpa using hk'), Option.map_some, leafNode]
    exact mergeLoop_eq_of_sum_lt (by simp) (fun h hh => by simpa [Nat.lt_succ_iff] using hh) (hweights ▸ hsum)

/-! ### The tree of a text -/

/-- The arena of a text's Huffman tree; `State.counted_buildResult` ties it to BUILD. -/
def huffmanTree (txt : List Symbol) : List Node := buildTree (fun _ => 0) (tally txt)

/-- The nodes of a text's Huffman tree by their handles. -/
def huffmanNodes (txt : List Symbol) (k : Nat) : Node := (huffmanTree txt).getD k (leafNode ⟨0, 0⟩)

/-- The handle of the root of a text's Huffman tree. -/
def huffmanRoot (txt : List Symbol) : Nat := (huffmanTree txt).length - 1

/-- The code table of a text; `State.counted_genResult` ties it to GEN. -/
def huffmanRows (txt : List Symbol) : List CodeRow := leavesAt (huffmanNodes txt) (huffmanRoot txt)

variable {txt : List Symbol} {nodes : Nat → Node} {x : Symbol} {m : Nat} {e : CodeRow}

theorem length_huffmanTree (hne : txt ≠ []) : (huffmanTree txt).length = max 2 (2 * txt.eraseDups.length - 1) := by
  rw [huffmanTree, length_buildTree _ (mt tally_eq_nil_iff.1 hne), length_tally]

theorem length_eraseDups_pos (hne : txt ≠ []) : 1 ≤ txt.eraseDups.length := by
  rw [← length_tally]
  exact List.length_pos_iff.2 (mt tally_eq_nil_iff.1 hne)

/-- One distinct symbol, or two or more. -/
theorem eraseDups_cases (hne : txt ≠ []) : (∃ x, txt.eraseDups = [x]) ∨ 2 ≤ txt.eraseDups.length := by
  have := length_eraseDups_pos hne
  rcases Nat.lt_or_ge txt.eraseDups.length 2 with hlt | hge
  · exact .inl (List.length_eq_one_iff.1 (by omega))
  · exact .inr hge

theorem stores_huffmanNodes (txt : List Symbol) : Stores (huffmanNodes txt) (huffmanTree txt) := fun h hh => by
  simp [huffmanNodes, List.getD_eq_getElem?_getD, hh]

/-- A stored Huffman tree is that of the text up to its root. -/
theorem Stores.eq_huffmanNodes (hs : Stores nodes (huffmanTree txt)) (hne : txt ≠ []) :
    ∀ h ≤ huffmanRoot txt, nodes h = huffmanNodes txt h := fun h hh => by
  have := length_huffmanTree hne
  rw [huffmanRoot] at hh
  rw [hs h (by omega), stores_huffmanNodes txt h (by omega)]

/-! ### One distinct symbol -/

section
variable (hone : txt.eraseDups = [x])
include hone

theorem huffmanTree_of_single :
    huffmanTree txt = [leafNode (tallyRow txt x), syntheticRoot (leafNode (tallyRow txt x))] := by
  simp [huffmanTree, tally, hone, buildTree]

theorem huffmanRoot_of_single : huffmanRoot txt = 1 := by
  rw [huffmanRoot, huffmanTree_of_single hone]
  rfl

/-- The synthetic root gives the one symbol the code "0" (42_tree_builder.md R154). -/
theorem leafPaths_of_single : leafPaths (huffmanNodes txt) 2 1 = some [⟨x, [false]⟩] := by
  have hnone : ¬ (0 : Word) = noneHandle := by decide
  have hleaf : huffmanNodes txt 0 = leafNode (tallyRow txt x) := by rw [huffmanNodes, huffmanTree_of_single hone]; rfl
  have hroot : huffmanNodes txt 1 = syntheticRoot (leafNode (tallyRow txt x)) := by
    rw [huffmanNodes, huffmanTree_of_single hone]; rfl
  have hzero : leafPaths (huffmanNodes txt) 1 0 = some [⟨x, []⟩] := by
    rw [leafPaths_leaf (by rw [hleaf]; rfl), hleaf]
    rfl
  have hleft : leavesUnder (huffmanNodes txt) 1 1 0 = some [⟨x, []⟩] := (leavesUnder_below hnone (by decide)).trans hzero
  rw [leafPaths_internal (by rw [hroot]; rfl), hroot, show (syntheticRoot _).left = 0 from rfl, hleft,
    show (syntheticRoot _).right = noneHandle from rfl, leavesUnder_absent]
  rfl

theorem huffmanRows_of_single : huffmanRows txt = [⟨x, [false]⟩] := by
  rw [huffmanRows, huffmanRoot_of_single hone, leavesAt, leafPaths_of_single hone]
  rfl

end

/-! ### Two distinct symbols or more -/

section
variable (htwo : 2 ≤ txt.eraseDups.length)
include htwo

theorem huffmanRoot_of_two_le : huffmanRoot txt = 2 * txt.eraseDups.length - 2 := by
  have hne : txt ≠ [] := by rintro rfl; simp at htwo
  rw [huffmanRoot, length_huffmanTree hne]
  omega

theorem huffmanTree_of_two_le : huffmanTree txt =
    mergeLoop (fun _ => 0) (txt.eraseDups.length - 1) (List.range txt.eraseDups.length) ((tally txt).map leafNode) := by
  rw [huffmanTree, buildTree_of_two_le _ (by rwa [length_tally]), length_tally]

/-- The leaves of the tree are the entries of the table (42_tree_builder.md R151). -/
theorem huffmanNodes_leaf {j : Nat} (hj : j < txt.eraseDups.length) :
    huffmanNodes txt j = leafNode (tallyRow txt txt.eraseDups[j]) := by
  have hs : Stores (huffmanNodes txt) ((tally txt).map leafNode) := by
    refine (stores_huffmanNodes txt).of_prefix ?_
    rw [huffmanTree_of_two_le htwo]
    exact (mergeLoop_appends _ (by rw [List.length_range]; omega)).1
  rw [hs j (by simpa using hj)]
  simp [tally]

/-- What the leaves give one after another, the entries of the table give. -/
theorem map_range_huffmanNodes {α : Type} (f : Node → α) :
    (List.range txt.eraseDups.length).map (fun j => f (huffmanNodes txt j)) =
      txt.eraseDups.map fun x => f (leafNode (tallyRow txt x)) := by
  refine List.ext_getElem (by simp) fun j hj hj' => ?_
  simp only [List.getElem_map, List.getElem_range]
  rw [huffmanNodes_leaf htwo (by simpa using hj')]

theorem mergedTree_huffmanNodes (hlen : txt.length < 2 ^ 31) : MergedTree (huffmanNodes txt) txt.eraseDups.length := by
  have hle := length_eraseDups_le txt
  have hleaves : ((tally txt).map leafNode).length = txt.eraseDups.length := by simp
  have htotal : ((List.range txt.eraseDups.length).map fun j => (huffmanNodes txt j).weight.toNat).sum = txt.length := by
    rw [map_range_huffmanNodes htwo fun n => n.weight.toNat, ← sum_count_tally (by omega), tally, List.map_map]
    rfl
  have hq : QueueAt (huffmanNodes txt) txt.eraseDups.length txt.length ((tally txt).map leafNode).length
      (List.range txt.eraseDups.length) := by
    rw [hleaves, ← htotal]
    exact QueueAt.leaves _ _
  have hs := stores_huffmanNodes txt
  rw [huffmanTree_of_two_le htwo] at hs
  obtain ⟨hjoins, -⟩ := mergeLoop_joins hs hq hleaves.ge (by omega) (by omega) (by omega) fun k hn hk => absurd hk (by omega)
  exact {
    two_le := htwo
    handles := by omega
    leaf := fun j hj => by rw [huffmanNodes_leaf htwo hj]; rfl
    joins := hjoins }

end

/-! ### The code table of a text -/

section
variable (hne : txt ≠ []) (hlen : txt.length < 2 ^ 31)
include hne hlen

/-- The walk from the root of a stored Huffman tree finds the rows of the code table. -/
theorem Stores.leafPaths_eq (hs : Stores nodes (huffmanTree txt)) :
    leafPaths nodes (huffmanRoot txt + 1) (huffmanRoot txt) = some (huffmanRows txt) := by
  rw [leafPaths_congr (hs.eq_huffmanNodes hne) (Nat.lt_succ_self _) (Nat.lt_succ_self _)]
  rcases eraseDups_cases hne with ⟨x, hone⟩ | htwo
  · rw [huffmanRoot_of_single hone, leafPaths_of_single hone, huffmanRows_of_single hone]
  · refine (mergedTree_huffmanNodes htwo hlen).leafPaths_eq ?_
    rw [huffmanRoot_of_two_le htwo]
    omega

/-- The root of the tree is an internal node. -/
theorem leaf_huffmanRoot : (huffmanNodes txt (huffmanRoot txt)).leaf = false := by
  rcases eraseDups_cases hne with ⟨x, hone⟩ | htwo
  · rw [huffmanRoot_of_single hone, huffmanNodes, huffmanTree_of_single hone]
    rfl
  · rw [huffmanRoot_of_two_le htwo]
    exact ((mergedTree_huffmanNodes htwo hlen).joins _ (by omega) (by omega)).internal.1

/-- Every row of the code table is a codeword of a stored Huffman tree (30_encoding.md R95). -/
theorem Stores.isCodeword (hs : Stores nodes (huffmanTree txt)) (he : e ∈ huffmanRows txt) :
    IsCodeword nodes (huffmanRoot txt) e := by
  have hrows := (stores_huffmanNodes txt).leafPaths_eq hne hlen
  exact IsCodeword.congr (hs.eq_huffmanNodes hne)
    ⟨code_ne_nil_of_mem_leafPaths (leaf_huffmanRoot hne hlen) hrows he, exists_descend_of_mem_leafPaths hrows he⟩

/-- The code table has one row for each distinct symbol (43_code_table_generator.md R173 (a)). -/
theorem map_sym_huffmanRows : ((huffmanRows txt).map CodeRow.sym).Perm txt.eraseDups := by
  rcases eraseDups_cases hne with ⟨x, hone⟩ | htwo
  · rw [huffmanRows_of_single hone, hone]
    exact .refl _
  · have hperm := (mergedTree_huffmanNodes htwo hlen).map_sym_leavesAt_root
    rw [map_range_huffmanNodes htwo Node.sym, ← huffmanRoot_of_two_le htwo] at hperm
    simpa [leafNode, huffmanRows] using hperm

theorem mem_map_sym_huffmanRows : x ∈ (huffmanRows txt).map CodeRow.sym ↔ x ∈ txt := by
  rw [(map_sym_huffmanRows hne hlen).mem_iff, List.mem_eraseDups]

theorem length_huffmanRows : (huffmanRows txt).length = txt.eraseDups.length := by
  simpa using (map_sym_huffmanRows hne hlen).length_eq

/-- No code is longer than there are distinct symbols (43_code_table_generator.md R173 (e)). -/
theorem length_code_huffmanRows (he : e ∈ huffmanRows txt) : e.code.length ≤ txt.eraseDups.length := by
  rcases eraseDups_cases hne with ⟨x, hone⟩ | htwo
  · rw [huffmanRows_of_single hone] at he
    rw [List.mem_singleton.1 he, hone]
    exact le_rfl
  · rw [huffmanRows, huffmanRoot_of_two_le htwo] at he
    have := (mergedTree_huffmanNodes htwo hlen).length_code_le (by omega) he
    omega

/-- The code of a row is the path to a leaf that weighs what the row's symbol counts. -/
theorem exists_leaf_of_mem_huffmanRows (htwo : 2 ≤ txt.eraseDups.length) (he : e ∈ huffmanRows txt) :
    ∃ h, descend (huffmanNodes txt) (2 * txt.eraseDups.length - 2) e.code = some h ∧
      (huffmanNodes txt h).weight.toNat = txt.count e.sym := by
  have ht := mergedTree_huffmanNodes htwo hlen
  obtain ⟨-, h, hd, hleaf, hsym⟩ := (stores_huffmanNodes txt).isCodeword hne hlen he
  rw [huffmanRoot_of_two_le htwo] at hd
  have hin := descend_le hd
  have hh : h < txt.eraseDups.length := by
    by_contra hge
    rw [(ht.joins h (by omega) (by omega)).internal.1] at hleaf
    cases hleaf
  refine ⟨h, hd, ?_⟩
  rw [← hsym, huffmanNodes_leaf htwo hh]
  exact toNat_tallyRow_count (by omega) _

/-- A lighter leaf comes first in the queue, so it is at least as deep (47_facade.md R229). -/
theorem length_code_le_of_count_lt {a b : CodeRow} (ha : a ∈ huffmanRows txt) (hb : b ∈ huffmanRows txt)
    (hlt : txt.count b.sym < txt.count a.sym) : a.code.length ≤ b.code.length := by
  rcases eraseDups_cases hne with ⟨x, hone⟩ | htwo
  · rw [huffmanRows_of_single hone] at ha hb
    rw [List.mem_singleton.1 ha, List.mem_singleton.1 hb]
  · obtain ⟨u, hu, hwu⟩ := exists_leaf_of_mem_huffmanRows hne hlen htwo hb
    obtain ⟨v, hv, hwv⟩ := exists_leaf_of_mem_huffmanRows hne hlen htwo ha
    exact (mergedTree_huffmanNodes htwo hlen).length_path_le hu hv (.inr (.inl (by omega)))

end

end Sys2Proof.Machine
end

section
/-! What COMPRESS computes (47_facade.md R220 to R222): the state it ends in as a function of the state it starts from, by the
states its stage commands leave. -/

namespace Sys2Proof.Machine

variable {s t : State} {ct : List CodeRow} {txt : List Symbol} {x : Symbol} {i n m : Nat}

/-! ### ENCODE of a text that the table covers -/

/-- With a code for every symbol, the loop gives the codes of the text if they fit and else raises CapacityExceeded (R181). -/
theorem encodeLoop_of_covered (hcov : ∀ x ∈ txt, ∃ e ∈ ct, e.sym = x) (hn : n ≤ m) : encodeLoop m ct i n txt =
    if n + (codesOf ct txt).length ≤ m then .ok (codesOf ct txt) else .error capacityExceeded := by
  induction txt generalizing i n with
  | nil => simp [encodeLoop, hn]
  | cons x txt ih =>
    obtain ⟨hx, htxt⟩ := List.forall_mem_cons.1 hcov
    obtain ⟨code, hcode⟩ := exists_lookupCode hx
    rw [codesOf_cons hcode, List.length_append, ← Nat.add_assoc]
    by_cases hfits : n + code.length ≤ m
    · rw [encodeLoop_cons_fits hcode hfits, ih htxt hfits]
      split <;> rfl
    · rw [encodeLoop_cons_over hcode (Nat.lt_of_not_le hfits), if_neg (by omega)]

/-- Codes of bounded length make a sequence of bounded length. -/
theorem length_codesOf_le (hcode : ∀ e ∈ ct, e.code.length ≤ m) (txt : List Symbol) :
    (codesOf ct txt).length ≤ txt.length * m := by
  have hlookup : ∀ x, ((lookupCode ct x).getD []).length ≤ m := fun x => by
    cases hx : ct.find? fun e => e.sym == x with
    | none => simp [lookupCode, hx]
    | some e => simpa [lookupCode, hx] using hcode e (List.mem_of_find?_eq_some hx)
  induction txt with
  | nil => simp
  | cons x txt ih =>
    have := hlookup x
    simp only [codesOf, List.flatMap_cons, List.length_append, List.length_cons, Nat.add_mul, Nat.one_mul] at ih ⊢
    omega

/-! ### The registers and buffers an operand is read from -/

theorem State.text_congr (hbuf : t.txt = s.txt) (hlen : t.txtLen = s.txtLen) (hcfg : t.cfg = s.cfg) : t.text = s.text := by
  have hat : t.txtAt = s.txtAt := by funext i; simp only [State.txtAt, hbuf, hcfg]
  rw [State.text, State.text, hat, hlen]

theorem State.freqTable_congr (hbuf : t.ft = s.ft) (hcnt : t.ftCnt = s.ftCnt) (hcfg : t.cfg = s.cfg) :
    t.freqTable = s.freqTable := by
  have hat : t.ftAt = s.ftAt := by funext j; simp only [State.ftAt, hbuf, hcfg]
  rw [State.freqTable, State.freqTable, hat, hcnt]

theorem State.nodeAt_congr (hbuf : t.node = s.node) (hcfg : t.cfg = s.cfg) : t.nodeAt = s.nodeAt := by
  funext k
  simp only [State.nodeAt, State.nodeWord, hbuf, hcfg]

theorem State.codeTable_congr (hct : t.ct = s.ct) (hctb : t.ctb = s.ctb) (hcnt : t.ctCnt = s.ctCnt) (hcfg : t.cfg = s.cfg) :
    t.codeTable = s.codeTable := by
  have hat : t.ctAt = s.ctAt := by funext j; simp only [State.ctAt, hct, hcfg]
  have hbit : t.codeBit = s.codeBit := by funext j n; simp only [State.codeBit, hctb, hcfg]
  rw [State.codeTable, State.codeTable, hat, hbit, hcnt]

theorem State.bitSeq_congr (hbuf : t.bits = s.bits) (hlen : t.bitLen = s.bitLen) : t.bitSeq = s.bitSeq := by
  have hat : t.bitAt = s.bitAt := by funext k; simp only [State.bitAt, hbuf]
  rw [State.bitSeq, State.bitSeq, hat, hlen]

theorem State.payload_congr (hbuf : t.pay = s.pay) (hlen : t.payLen = s.payLen) : t.payload = s.payload := by
  have hat : t.payAt = s.payAt := by funext m; simp only [State.payAt, hbuf]
  rw [State.payload, State.payload, hat, hlen]

theorem State.length_payload (s : State) : s.payload.length = s.payLen.toNat := by simp [State.payload]

/-! ### The states COMPRESS passes through -/

/-- The bits of a text under its own Huffman code. -/
def huffmanBits (txt : List Symbol) : List Bool := codesOf (huffmanRows txt) txt

/-- The state FREQ leaves. -/
def State.counted (s : State) : State := ((s.enter .freq).writeFreq (tally s.text)).commandEnd

theorem exec_freq_counted (h : s.TextFits) : exec .freq s = .next s.counted := exec_freq_of_fits h

/-- The state GEN leaves behind FREQ and BUILD. -/
def State.coded (s : State) : State := ((s.counted.built.enter .gen).writeGen (huffmanRows s.text)).commandEnd

/-- The state ENCODE leaves behind those. -/
def State.encoded (s : State) : State := ((s.coded.enter .encode).writeEncode (huffmanBits s.text)).commandEnd

/-- The state PACK leaves behind those. -/
def State.packed (s : State) : State :=
  ((s.encoded.enter .pack).writePack (packPayload s.encoded.bitSeq) (padCount s.encoded.bitLen.toNat)).commandEnd

/-- The state COMPRESS leaves of a text that fits. -/
def State.compressed (s : State) : State := s.packed.writeStats

/-- The state COMPRESS leaves of the empty text (R221). -/
def State.emptied (s : State) : State := ((s.counted.enter .stats).writeEmptyResult).commandEnd

theorem State.endedOk_compressed (s : State) : s.compressed.EndedOk := ⟨rfl, rfl, rfl, rfl, rfl, rfl⟩

theorem State.endedOk_emptied (s : State) : s.emptied.EndedOk := State.endedOk_commandEnd _

/-! ### The empty text -/

theorem State.text_of_zero (h : s.txtLen = 0) : s.text = [] := by simp [State.text, h]

theorem State.counted_ftCnt_of_zero (h : s.txtLen = 0) : s.counted.ftCnt = 0 := by
  have hft : s.counted.ftCnt = BitVec.ofNat 32 (tally s.text).length := rfl
  rw [hft, State.text_of_zero h]
  rfl

theorem exec_compress_of_zero (h : s.txtLen = 0) : exec .compress s = .next s.emptied := by
  have hfits : s.TextFits := by simp [State.TextFits, State.text_of_zero h, h]
  have hft := State.counted_ftCnt_of_zero h
  rw [exec_compress_of_freq (exec_freq_counted hfits) (State.endedOk_commandEnd _), stagesAfterFreq_of_zero hft]
  rcases stageStats_cases s.counted with ⟨-, hr⟩ | ⟨hne, -⟩
  · exact congrArg (fun r : Run => Host.Outcome.next (r.andThen (runStages [])).finish) hr
  · exact absurd hft hne

/-! ### A text that fits -/

/-- Legal parameters and a text that is not empty and fits TXT and FT. -/
structure State.Compressible (s : State) : Prop where
  valid : s.cfg.Valid
  ne_zero : s.txtLen ≠ 0
  fits : s.TextFits

namespace State.Compressible

theorem text_ne_nil (h : s.Compressible) : s.text ≠ [] := fun hnil => by
  refine h.ne_zero (BitVec.eq_of_toNat_eq ?_)
  rw [← s.length_text, hnil]
  rfl

theorem length_text_lt (h : s.Compressible) : s.text.length < 2 ^ 29 := by
  obtain ⟨-, ⟨-, htxt⟩, -⟩ := h.valid
  rw [s.length_text]
  exact h.fits.1.trans_lt htxt

theorem counted_freqTable (_ : s.Compressible) : s.counted.freqTable = tally s.text := s.freqTable_freq_end

theorem counted_ftCnt (h : s.Compressible) : s.counted.ftCnt.toNat = s.text.eraseDups.length := by
  rw [← State.length_freqTable, h.counted_freqTable, length_tally]

theorem one_le_counted_ftCnt (h : s.Compressible) : 1 ≤ s.counted.ftCnt.toNat :=
  h.counted_ftCnt ▸ length_eraseDups_pos h.text_ne_nil

theorem counted_ftCnt_le (h : s.Compressible) : s.counted.ftCnt.toNat ≤ s.counted.cfg.maxSyms :=
  h.counted_ftCnt ▸ h.fits.2

/-- BUILD makes the Huffman tree of the text. -/
theorem counted_buildResult (h : s.Compressible) : s.counted.buildResult = huffmanTree s.text := by
  rw [State.buildResult, h.counted_freqTable]
  refine buildTree_eq_of_sum_lt ?_
  rw [sum_count_tally s.length_text_lt]
  exact s.length_text_lt

/-- NODE_CNT, ROOT and the entries of the tree BUILD leaves. -/
theorem built_tree (h : s.Compressible) : s.counted.built.nodeCnt.toNat = (huffmanTree s.text).length ∧
    s.counted.built.root.toNat = huffmanRoot s.text ∧ Stores s.counted.built.nodeAt (huffmanTree s.text) := by
  obtain ⟨hcnt, hroot, hnodes⟩ := State.built_tree (s := s.counted) h.valid h.one_le_counted_ftCnt h.counted_ftCnt_le
  rw [h.counted_ftCnt, ← length_huffmanTree h.text_ne_nil] at hcnt
  rw [hcnt, ← huffmanRoot] at hroot
  exact ⟨hcnt, hroot, h.counted_buildResult ▸ hnodes⟩

theorem built_rootValid (h : s.Compressible) : rootValid s.cfg s.counted.built.nodeCnt s.counted.built.root = true := by
  obtain ⟨hcnt, hroot, -⟩ := h.built_tree
  obtain ⟨-, hmax, -⟩ := State.length_buildResult (s := s.counted) h.valid h.one_le_counted_ftCnt h.counted_ftCnt_le
  have hmax : s.counted.buildResult.length ≤ s.cfg.maxNodes := hmax
  have htree := length_huffmanTree h.text_ne_nil
  have hlt := h.length_text_lt
  have hle := length_eraseDups_le s.text
  rw [h.counted_buildResult] at hmax
  rw [huffmanRoot] at hroot
  have hnone : s.counted.built.root ≠ noneHandle := fun heq => by
    rw [heq, show noneHandle.toNat = 2 ^ 32 - 1 from rfl] at hroot
    omega
  simp only [rootValid, Bool.and_eq_true, bne_iff_ne, decide_eq_true_eq]
  exact ⟨⟨hnone, by omega⟩, by omega⟩

/-- GEN makes the code table of the text. -/
theorem built_genResult (h : s.Compressible) : s.counted.built.genResult = .ok (huffmanRows s.text) := by
  have hleaves : s.counted.built.leaves = some (huffmanRows s.text) := by
    obtain ⟨-, hroot, hs⟩ := h.built_tree
    rw [State.leaves, hroot]
    exact hs.leafPaths_eq h.text_ne_nil (h.length_text_lt.trans (by decide))
  have hroom : (huffmanRows s.text).length ≤ s.counted.built.cfg.maxNodes := by
    rw [length_huffmanRows h.text_ne_nil (h.length_text_lt.trans (by decide))]
    have hsyms := h.fits.2
    change _ ≤ 2 * s.cfg.maxSyms
    omega
  rw [State.genResult_of_leaves h.built_rootValid hleaves, if_pos hroom]
  have hrows : (huffmanRows s.text).map (tableRow []) = (huffmanRows s.text).map id := List.map_congr_left fun e he =>
    tableRow_of_ne_nil ((stores_huffmanNodes s.text).isCodeword h.text_ne_nil (h.length_text_lt.trans (by decide)) he).1
  rw [hrows, List.map_id]

theorem coded_codeTable (h : s.Compressible) : s.coded.codeTable = huffmanRows s.text :=
  State.codeTable_gen_end (s := s.counted.built) h.valid h.built_genResult

/-- ENCODE makes the bits of the text, or does not have room for them. -/
theorem coded_encodeResult (h : s.Compressible) : s.coded.encodeResult =
    if (huffmanBits s.text).length ≤ s.cfg.maxBits then .ok (huffmanBits s.text) else .error capacityExceeded := by
  have hcov : ∀ x ∈ s.text, ∃ e ∈ huffmanRows s.text, e.sym = x := fun x hx => by
    rw [← mem_map_sym_huffmanRows h.text_ne_nil (h.length_text_lt.trans (by decide))] at hx
    exact List.mem_map.1 hx
  have hloop := encodeLoop_of_covered (i := 0) hcov (Nat.zero_le s.cfg.maxBits)
  rw [Nat.zero_add] at hloop
  have hsame : s.coded.txt = s.txt ∧ s.coded.txtLen = s.txtLen ∧ s.coded.cfg = s.cfg := by
    simp [State.coded, State.built, State.counted]
  obtain ⟨htxt, hlen, hcfg⟩ := hsame
  rw [State.encodeResult, h.coded_codeTable, State.text_congr htxt hlen hcfg, hlen, hcfg, if_neg (Nat.not_lt.2 h.fits.1)]
  exact hloop

/-- COMPRESS of a text whose bits fit. -/
theorem exec_compress (h : s.Compressible) (hbits : (huffmanBits s.text).length ≤ s.cfg.maxBits) :
    exec .compress s = .next s.compressed := by
  have hencode : s.coded.encodeResult = .ok (huffmanBits s.text) := by rw [h.coded_encodeResult, if_pos hbits]
  have hlt : (huffmanBits s.text).length < 2 ^ 32 := by
    obtain ⟨-, -, -, ⟨-, hmax⟩, -⟩ := h.valid
    omega
  have hpack : s.encoded.bitLen.toNat ≤ s.encoded.cfg.maxBits := by
    have hlen : s.encoded.bitLen.toNat = (huffmanBits s.text).length := toNat_ofNat_of_lt hlt
    rw [hlen]
    exact hbits
  exact exec_compress_of_pack (exec_freq_counted h.fits) (State.endedOk_commandEnd _)
    (State.ftCnt_ne_zero h.one_le_counted_ftCnt) (exec_build_of_ne (State.ftCnt_ne_zero h.one_le_counted_ftCnt))
    (State.endedOk_commandEnd _) (exec_gen_of_ok h.built_genResult) (State.endedOk_commandEnd _)
    (exec_encode_of_ok hencode) (State.endedOk_commandEnd _) (exec_pack_of_le hpack) (State.endedOk_commandEnd _)

/-- COMPRESS of a text whose bits do not fit. -/
theorem exec_compress_of_over (h : s.Compressible) (hbits : ¬ (huffmanBits s.text).length ≤ s.cfg.maxBits) :
    ∃ t, exec .compress s = .next t ∧ t.EndedWith .capacityExceeded 0 := by
  have hencode : s.coded.encodeResult = .error capacityExceeded := by rw [h.coded_encodeResult, if_neg hbits]
  obtain ⟨t, ht, hend⟩ := exec_encode_of_error hencode
  exact ⟨t, exec_compress_of_encode_error (exec_freq_counted h.fits) (State.endedOk_commandEnd _)
    (State.ftCnt_ne_zero h.one_le_counted_ftCnt) (exec_build_of_ne (State.ftCnt_ne_zero h.one_le_counted_ftCnt))
    (State.endedOk_commandEnd _) (exec_gen_of_ok h.built_genResult) (State.endedOk_commandEnd _) ht hend.not_endedOk, hend⟩

/-! ### What is left to be read -/

theorem compressed_freqTable (h : s.Compressible) : s.compressed.freqTable = tally s.text := by
  rw [← h.counted_freqTable]
  refine State.freqTable_congr ?_ ?_ ?_ <;>
    simp [State.compressed, State.packed, State.encoded, State.coded, State.built]

/-- The stages behind BUILD leave NODE_CNT and ROOT. -/
theorem compressed_handles (s : State) :
    s.compressed.nodeCnt = s.counted.built.nodeCnt ∧ s.compressed.root = s.counted.built.root := by
  simp [State.compressed, State.packed, State.encoded, State.coded]

theorem compressed_tree (h : s.Compressible) : s.compressed.nodeCnt.toNat = (huffmanTree s.text).length ∧
    s.compressed.root.toNat = huffmanRoot s.text ∧ Stores s.compressed.nodeAt (huffmanTree s.text) := by
  obtain ⟨hcnt, hroot⟩ := compressed_handles s
  have hnodes : s.compressed.nodeAt = s.counted.built.nodeAt := by
    refine State.nodeAt_congr ?_ ?_ <;> simp [State.compressed, State.packed, State.encoded, State.coded]
  rw [hcnt, hroot, hnodes]
  exact h.built_tree

theorem compressed_rootValid (h : s.Compressible) : rootValid s.cfg s.compressed.nodeCnt s.compressed.root = true := by
  obtain ⟨hcnt, hroot⟩ := compressed_handles s
  rw [hcnt, hroot]
  exact h.built_rootValid

theorem compressed_codeTable (h : s.Compressible) : s.compressed.codeTable = huffmanRows s.text := by
  rw [← h.coded_codeTable]
  refine State.codeTable_congr ?_ ?_ ?_ ?_ <;> simp [State.compressed, State.packed, State.encoded]

theorem compressed_origBits (h : s.Compressible) : s.compressed.origBits.toNat = 8 * s.txtLen.toNat := by
  have horig : s.compressed.origBits = 8 * s.txtLen := by
    simp [State.compressed, State.packed, State.encoded, State.coded, State.built, State.counted]
  have hlt := h.length_text_lt
  rw [s.length_text] at hlt
  rw [horig, BitVec.toNat_mul]
  exact Nat.mod_eq_of_lt (by simp; omega)

end State.Compressible

/-- A compressible text whose bits fit. -/
structure State.CompressFits (s : State) : Prop extends s.Compressible where
  bits : (huffmanBits s.text).length ≤ s.cfg.maxBits

namespace State.CompressFits

theorem length_bits_lt (h : s.CompressFits) : (huffmanBits s.text).length < 2 ^ 32 := by
  obtain ⟨-, -, -, ⟨-, hmax⟩, -⟩ := h.valid
  exact Nat.lt_of_le_of_lt h.bits hmax

theorem encoded_bitSeq (h : s.CompressFits) : s.encoded.bitSeq = huffmanBits s.text :=
  State.bitSeq_writeEncode (s := s.coded.enter .encode) h.length_bits_lt

theorem encoded_bitLen (h : s.CompressFits) : s.encoded.bitLen.toNat = (huffmanBits s.text).length :=
  toNat_ofNat_of_lt h.length_bits_lt

theorem compressed_bitLen (h : s.CompressFits) : s.compressed.bitLen.toNat = (huffmanBits s.text).length := by
  rw [← h.encoded_bitLen]
  simp [State.compressed, State.packed]

theorem compressed_bitSeq (h : s.CompressFits) : s.compressed.bitSeq = huffmanBits s.text := by
  rw [← h.encoded_bitSeq]
  refine State.bitSeq_congr ?_ ?_ <;> simp [State.compressed, State.packed]

theorem compressed_payload (h : s.CompressFits) : s.compressed.payload = packPayload (huffmanBits s.text) := by
  have hlt := State.packPayload_lt (s := s.encoded) h.valid (h.encoded_bitLen.trans_le h.bits)
  rw [← h.encoded_bitSeq, ← State.payload_writePack (s := s.encoded.enter .pack) hlt (padCount s.encoded.bitLen.toNat)]
  refine State.payload_congr ?_ ?_ <;> simp [State.compressed, State.packed]

theorem compressed_pad (h : s.CompressFits) : s.compressed.pad = BitVec.ofNat 3 (padCount (huffmanBits s.text).length) := by
  rw [← h.encoded_bitLen]
  simp [State.compressed, State.packed]

end State.CompressFits

/-! ### The ends of COMPRESS -/

/-- COMPRESS ends with the empty result, with the result of a text that fits, or with CapacityExceeded(0). -/
theorem exec_compress_cases (hv : s.cfg.Valid) :
    (s.txtLen = 0 ∧ exec .compress s = .next s.emptied) ∨ (s.CompressFits ∧ exec .compress s = .next s.compressed) ∨
      ∃ t, exec .compress s = .next t ∧ t.EndedWith .capacityExceeded 0 := by
  by_cases hzero : s.txtLen = 0
  · exact .inl ⟨hzero, exec_compress_of_zero hzero⟩
  · by_cases hfits : s.TextFits
    · have h : s.Compressible := ⟨hv, hzero, hfits⟩
      by_cases hbits : (huffmanBits s.text).length ≤ s.cfg.maxBits
      · exact .inr (.inl ⟨⟨h, hbits⟩, h.exec_compress hbits⟩)
      · exact .inr (.inr (h.exec_compress_of_over hbits))
    · have hend := State.endedWith_errorEntry (s.enter .freq).spoilFreq capacityExceeded
      exact .inr (.inr ⟨_, exec_compress_of_freq_error (exec_freq_of_not_fits hfits) hend.not_endedOk, hend⟩)

/-- What a COMPRESS that ended without error has done. -/
theorem eq_compressed_of_endedOk (hv : s.cfg.Valid) (ht : exec .compress s = .next t) (hok : t.EndedOk) :
    (s.txtLen = 0 ∧ t = s.emptied) ∨ (s.CompressFits ∧ t = s.compressed) := by
  rcases exec_compress_cases hv with ⟨hzero, h⟩ | ⟨hfits, h⟩ | ⟨u, h, hend⟩ <;> obtain rfl := Host.Outcome.next.inj (h.symm.trans ht)
  · exact .inl ⟨hzero, rfl⟩
  · exact .inr ⟨hfits, rfl⟩
  · exact absurd hok hend.not_endedOk

end Sys2Proof.Machine
end

section
/-! Statements of the family 47_facade.md: what COMPRESS computes, and DECOMPRESS of it. -/

namespace Sys2Proof.Proofs

open Sys2Proof.Machine

/-- Settles O51: COMPRESS has three ends. -/
theorem compressRaisesOnlyCapacityExceeded : Obligations.CompressRaisesOnlyCapacityExceeded := by
  intro s hv
  rcases exec_compress_cases hv with ⟨-, h⟩ | ⟨-, h⟩ | ⟨t, h, hend⟩
  · exact ⟨_, h, .inl s.endedOk_emptied⟩
  · exact ⟨_, h, .inl s.endedOk_compressed⟩
  · exact ⟨t, h, .inr hend⟩

/-- Settles O52: no code is longer than there are distinct symbols. -/
theorem compressSucceedsWithinTheCapacities : Obligations.CompressSucceedsWithinTheCapacities := by
  intro s hv hne htxt hsyms hbits
  have h : s.Compressible := ⟨hv, hne, htxt, hsyms⟩
  have hcodes := length_codesOf_le (fun e => length_code_huffmanRows h.text_ne_nil (h.length_text_lt.trans (by decide))) s.text
  rw [s.length_text] at hcodes
  exact ⟨_, h.exec_compress (hcodes.trans hbits), s.endedOk_compressed⟩

/-- Settles O53: STATS computes them from TXT_LEN and BIT_LEN. -/
theorem compressWritesTheStatistics : Obligations.CompressWritesTheStatistics := by
  intro s t hv hne ht hok
  rcases eq_compressed_of_endedOk hv ht hok with ⟨hzero, -⟩ | ⟨h, rfl⟩
  · exact absurd hzero hne
  · exact ⟨h.compressed_origBits, rfl, rfl, rfl⟩

/-- Settles O55: the table has a row for each distinct symbol, and its codes are the paths to leaves. -/
theorem compressTableIsAPrefixCodeOfTheText : Obligations.CompressTableIsAPrefixCodeOfTheText := by
  intro s t hv hne ht hok
  rcases eq_compressed_of_endedOk hv ht hok with ⟨hzero, -⟩ | ⟨h, rfl⟩
  · exact absurd hzero hne
  · have hlen : s.text.length < 2 ^ 31 := h.length_text_lt.trans (by decide)
    have hrows := (stores_huffmanNodes s.text).leafPaths_eq h.text_ne_nil hlen
    rw [h.compressed_codeTable]
    exact ⟨(map_sym_huffmanRows h.text_ne_nil hlen).nodup_iff.2 (nodup_eraseDups _),
      fun x => mem_map_sym_huffmanRows h.text_ne_nil hlen,
      (pairwise_leafPaths hrows).imp fun ⟨hab, hba, _⟩ => ⟨hab, hba⟩⟩

/-- Settles O56: the queue gives the lighter leaf first, and what it gives first is at least as deep. -/
theorem heavierSymbolsGetNoLongerCodes : Obligations.HeavierSymbolsGetNoLongerCodes := by
  intro s t hv ht hok a ha b hb hlt
  rcases eq_compressed_of_endedOk hv ht hok with ⟨hzero, rfl⟩ | ⟨h, rfl⟩
  · rw [State.text_of_zero hzero] at hlt
    cases hlt
  · rw [h.compressed_codeTable] at ha hb
    exact length_code_le_of_count_lt h.text_ne_nil (h.length_text_lt.trans (by decide)) ha hb hlt

/-- Settles O48: FREQ leaves the empty table, behind which only STATS runs. -/
theorem compressOfTheEmptyText : Obligations.CompressOfTheEmptyText := by
  intro s hzero
  have hbuffer : ∀ sp, sp ≠ .csr → sp ≠ .ft → SameBuffer sp s s.emptied := fun sp hsp hft => by
    cases sp with
    | csr => exact absurd rfl hsp
    | ft => exact absurd rfl hft
    | txt | node | ct | ctb | bits | pay => simp [SameBuffer, State.emptied, State.counted]
  refine ⟨_, exec_compress_of_zero hzero, s.endedOk_emptied, State.counted_ftCnt_of_zero hzero, rfl, rfl, rfl, rfl,
    rfl, rfl, rfl, rfl, rfl, rfl, fun sp x hsp hft => (hbuffer sp hsp hft).spaceRead_eq ?_ x⟩
  simp [State.emptied, State.counted]

/-- Settles O57: every part of the result is a function of the text. -/
theorem compressDependsOnTheTextAlone : Obligations.CompressDependsOnTheTextAlone := by
  intro s₁ s₂ t₁ hv hcfg hlen htext ht hok
  rcases eq_compressed_of_endedOk hv ht hok with ⟨hzero, rfl⟩ | ⟨h₁, rfl⟩
  · have hzero₂ : s₂.txtLen = 0 := hlen.trans hzero
    refine ⟨_, exec_compress_of_zero hzero₂, s₂.endedOk_emptied, ?_, rfl, rfl, fun k hk => absurd hk (Nat.not_lt_zero k),
      rfl, rfl, rfl, rfl, rfl, rfl, rfl, rfl⟩
    have hnil : ∀ s : State, s.txtLen = 0 → s.emptied.freqTable = [] := fun s h =>
      s.freqTable_freq_end.trans (by rw [State.text_of_zero h]; rfl)
    rw [hnil s₁ hzero, hnil s₂ hzero₂]
  · have h₂ : s₂.CompressFits := {
      valid := hcfg ▸ hv
      ne_zero := hlen ▸ h₁.ne_zero
      fits := by rw [State.TextFits, hlen, htext, hcfg]; exact h₁.fits
      bits := by rw [htext, hcfg]; exact h₁.bits }
    obtain ⟨hcnt₁, hroot₁, hs₁⟩ := h₁.compressed_tree
    obtain ⟨hcnt₂, hroot₂, hs₂⟩ := h₂.compressed_tree
    rw [htext] at hcnt₂ hroot₂ hs₂
    have hbitLen : s₂.compressed.bitLen = s₁.compressed.bitLen := BitVec.eq_of_toNat_eq <| by
      rw [h₁.compressed_bitLen, h₂.compressed_bitLen, htext]
    have horig : s₂.compressed.origBits = s₁.compressed.origBits := BitVec.eq_of_toNat_eq <| by
      rw [h₁.compressed_origBits, h₂.compressed_origBits, hlen]
    refine ⟨_, h₂.exec_compress h₂.bits, s₂.endedOk_compressed, ?_, BitVec.eq_of_toNat_eq (hcnt₂.trans hcnt₁.symm),
      BitVec.eq_of_toNat_eq (hroot₂.trans hroot₁.symm), fun k hk => ?_, ?_, ?_, ?_, ?_, horig, hbitLen,
      congrArg₂ ratioOf hbitLen horig, congrArg savingsOf (congrArg₂ ratioOf hbitLen horig)⟩
    · rw [h₁.compressed_freqTable, h₂.compressed_freqTable, htext]
    · rw [hcnt₁] at hk
      rw [hs₁ k hk, hs₂ k hk]
    · rw [h₁.compressed_codeTable, h₂.compressed_codeTable, htext]
    · rw [h₁.compressed_bitSeq, h₂.compressed_bitSeq, htext]
    · rw [h₁.compressed_payload, h₂.compressed_payload, htext]
    · rw [h₁.compressed_pad, h₂.compressed_pad, htext]

end Sys2Proof.Proofs
end

section
/-! What DECOMPRESS computes (47_facade.md R223, R224, R226): UNPACK's bits read as codewords of the tree, and the codewords
COMPRESS leaves. -/

namespace Sys2Proof.Machine

variable {s t v : State} {bytes : List Byte} {rows : List CodeRow} {l : List Bool} {ct : List CodeRow} {txt : List Symbol}
  {x : Symbol}

/-! ### The bits of codewords -/

theorem exec_unpack_of_error {r : Raise} (h : s.unpackResult = .error r) :
    ∃ t, exec .unpack s = .next t ∧ t.EndedWith r.kind r.info := by
  rw [exec_eq_runOf, show runOf .unpack s = stageUnpack s from rfl, stageUnpack_error h]
  exact ⟨_, rfl, State.endedWith_errorEntry _ r⟩

/-- A payload that holds codewords of the tree decompresses to their symbols. -/
theorem exec_decompress_of_codewords (hv : s.cfg.Valid) (hp : s.payLen.toNat ≤ s.cfg.maxPay)
    (hb : s.bitLen.toNat ≤ s.cfg.maxBits) (hres : unpackBits s.payload s.bitLen.toNat = .ok (codewordBits rows))
    (hroot : rootValid s.cfg s.nodeCnt s.root = true) (hrows : ∀ e ∈ rows, IsCodeword s.nodeAt s.root.toNat e)
    (hfits : rows.length ≤ s.cfg.maxTxt) :
    ∃ t, exec .decompress s = .next t ∧ t.EndedOk ∧ t.txtLen.toNat = rows.length ∧ t.text = rows.map CodeRow.sym := by
  obtain ⟨u, hu, huok, hbitLen, hseq⟩ := exec_unpack_spec hp hb hres
  have hw := exec_writesOnly hu
  have hcnt : u.nodeCnt = s.nodeCnt := hw.csr 6 (by decide) rfl
  have hrootEq : u.root = s.root := hw.csr 7 (by decide) rfl
  have hnodes : u.nodeAt = s.nodeAt := State.nodeAt_congr (hw.buffer .node (by decide) rfl) hw.cfg
  have hdec : u.decodeResult = .ok (rows.map CodeRow.sym) := by
    rw [State.decodeResult_of_codewords (rows := rows) (rest := []) (by rwa [hbitLen, hw.cfg])
      (by rwa [hw.cfg, hcnt, hrootEq]) (by rwa [hnodes, hrootEq]) (by rwa [hw.cfg]) (hseq.trans (List.append_nil _).symm),
      decodeLoop, if_pos rfl]
  have hlt : (rows.map CodeRow.sym).length < 2 ^ 32 := by
    obtain ⟨-, ⟨-, htxt⟩, -⟩ := hv
    rw [List.length_map]
    omega
  refine ⟨_, (exec_decompress_of_unpack hu huok).trans (exec_decode_of_ok hdec), State.endedOk_commandEnd _, ?_,
    State.text_decode_end hlt⟩
  exact (toNat_ofNat_of_lt hlt).trans (List.length_map ..)

/-! ### The empty payload -/

theorem State.unpackResult_of_no_payload (hp : s.payLen = 0) (hb : s.bitLen.toNat ≤ s.cfg.maxBits) :
    s.unpackResult = if s.bitLen = 0 then .ok [] else .error ⟨.bitLengthOutOfRange, 0⟩ := by
  have hpayload : s.payload = [] := by simp [State.payload, hp]
  rw [State.unpackResult_of_le (by simp [hp]) hb, hpayload]
  by_cases hzero : s.bitLen = 0
  · simp [unpackBits, b64Dec, hzero]
  · have hpos : 0 < s.bitLen.toNat := Nat.pos_of_ne_zero fun h => hzero (BitVec.eq_of_toNat_eq h)
    rw [if_neg hzero]
    simp [unpackBits, b64Dec, hpos]

/-- With no payload and no bits, DECODE has nothing to decode, whatever the tree (R224). -/
theorem exec_decompress_of_no_payload (hp : s.payLen = 0) (hb : s.bitLen = 0) :
    ∃ t, exec .decompress s = .next t ∧ t.EndedOk ∧ t.txtLen = 0 := by
  have hres : s.unpackResult = .ok [] := by rw [State.unpackResult_of_no_payload hp (by simp [hb]), if_pos hb]
  have hdec := exec_decode_of_ok (State.decodeResult_of_no_bits (s := ((s.enter .unpack).writeUnpack []).commandEnd) hb)
  exact ⟨_, (exec_decompress_of_unpack (exec_unpack_of_ok hres) (State.endedOk_commandEnd _)).trans hdec,
    State.endedOk_commandEnd _, rfl⟩

/-! ### The codewords of a text -/

/-- The rows of the codes of a text, in input order. -/
def rowsOf (ct : List CodeRow) (txt : List Symbol) : List CodeRow := txt.map fun x => ⟨x, (lookupCode ct x).getD []⟩

theorem codewordBits_rowsOf (ct : List CodeRow) (txt : List Symbol) : codewordBits (rowsOf ct txt) = codesOf ct txt := by
  simp [codewordBits, rowsOf, codesOf, List.flatMap_map]

theorem map_sym_rowsOf (ct : List CodeRow) (txt : List Symbol) : (rowsOf ct txt).map CodeRow.sym = txt := by
  simp [rowsOf, Function.comp_def]

/-- The code of a symbol that the table has is that of one of its rows. -/
theorem mem_of_mem_rowsOf (hcov : ∀ x ∈ txt, ∃ e ∈ ct, e.sym = x) {e : CodeRow} (he : e ∈ rowsOf ct txt) : e ∈ ct := by
  obtain ⟨x, hx, rfl⟩ := List.mem_map.1 he
  obtain ⟨code, hcode⟩ := exists_lookupCode (hcov x hx)
  obtain ⟨e, he, rfl⟩ := Option.map_eq_some_iff.1 hcode
  have hsym : e.sym = x := by simpa using List.find?_some he
  rw [hcode, ← hsym]
  exact List.mem_of_find?_eq_some he

/-- A state with the payload, the bit length and the tree that COMPRESS left decompresses to the text (R226). -/
theorem State.CompressFits.exec_decompress (h : s.CompressFits) (hcfg : v.cfg = s.cfg)
    (hpayload : v.payload = packPayload (huffmanBits s.text)) (hbitLen : v.bitLen.toNat = (huffmanBits s.text).length)
    (hroot : rootValid s.cfg v.nodeCnt v.root = true) (hhandle : v.root.toNat = huffmanRoot s.text)
    (hs : Stores v.nodeAt (huffmanTree s.text)) :
    ∃ u, exec .decompress v = .next u ∧ u.EndedOk ∧ u.txtLen.toNat = s.text.length ∧ u.text = s.text := by
  have hlen : s.text.length < 2 ^ 31 := h.length_text_lt.trans (by decide)
  have hcov : ∀ x ∈ s.text, ∃ e ∈ huffmanRows s.text, e.sym = x := fun x hx =>
    List.mem_map.1 ((mem_map_sym_huffmanRows h.text_ne_nil hlen).2 hx)
  have hcode : ∀ e ∈ rowsOf (huffmanRows s.text) s.text, IsCodeword v.nodeAt v.root.toNat e := fun e he =>
    hhandle ▸ hs.isCodeword h.text_ne_nil hlen (mem_of_mem_rowsOf hcov he)
  have hres : unpackBits v.payload v.bitLen.toNat = .ok (codewordBits (rowsOf (huffmanRows s.text) s.text)) := by
    rw [hpayload, hbitLen, unpackBits_packPayload, codewordBits_rowsOf, huffmanBits]
  have hpay : v.payLen.toNat ≤ v.cfg.maxPay := by
    have hfits := State.packPayload_fits (s := s.encoded) h.valid (h.encoded_bitLen.trans_le h.bits)
    rw [h.encoded_bitSeq] at hfits
    rw [← State.length_payload, hpayload, hcfg]
    exact hfits
  have hrows : (rowsOf (huffmanRows s.text) s.text).length = s.text.length := by simp [rowsOf]
  obtain ⟨u, hu, hok, htxtLen, htext⟩ := exec_decompress_of_codewords (hcfg ▸ h.valid) hpay
    (by rw [hbitLen, hcfg]; exact h.bits) hres (hcfg ▸ hroot) hcode
    (by rw [hrows, hcfg, s.length_text]; exact h.fits.1)
  exact ⟨u, hu, hok, htxtLen.trans hrows, htext.trans (map_sym_rowsOf _ _)⟩

end Sys2Proof.Machine
end

section
/-! Statements of the family 47_facade.md: DECOMPRESS. -/

namespace Sys2Proof.Proofs

open Sys2Proof.Machine

/-- Settles O59: UNPACK of no characters has no bits to give, and of the base64 of bytes gives their first bits, which DECODE
reads as codewords. -/
theorem decompressOfTheEmptyPayload : Obligations.DecompressOfTheEmptyPayload := by
  refine ⟨fun s hp => ⟨exec_decompress_of_no_payload hp, fun hne hb => ?_⟩,
    fun s bytes rows hv hp hb hbytes hlen hroot hrows hbits hfits => ?_⟩
  · have hres : s.unpackResult = .error ⟨.bitLengthOutOfRange, 0⟩ := by
      rw [State.unpackResult_of_no_payload hp hb, if_neg hne]
    obtain ⟨u, hu, hend⟩ := exec_unpack_of_error hres
    exact ⟨u, exec_decompress_of_unpack_error hu hend.not_endedOk, hend⟩
  · have hres := unpackBits_of_b64Dec (b64Dec_eq_some_iff.2 hbytes) hlen
    exact exec_decompress_of_codewords hv hp hb (hbits ▸ hres) hroot hrows hfits

/-- Settles O60: the bits COMPRESS packs are codewords of the tree it leaves, those of the text's symbols in order. -/
theorem decompressRestoresTheCompressedText : Obligations.DecompressRestoresTheCompressedText := by
  intro s t v hv ht hok hcfg hpayLen hpayload hbitLen hcnt hroot hnodes
  rcases eq_compressed_of_endedOk hv ht hok with ⟨hzero, rfl⟩ | ⟨h, rfl⟩
  · obtain ⟨u, hu, huok, htxtLen⟩ := exec_decompress_of_no_payload hpayLen hbitLen
    refine ⟨u, hu, huok, htxtLen.trans hzero.symm, ?_⟩
    rw [State.text_of_zero hzero, State.text_of_zero htxtLen]
  · obtain ⟨hcount, hhandle, hs⟩ := h.compressed_tree
    obtain ⟨u, hu, huok, htxtLen, htext⟩ := h.exec_decompress (v := v)
      (by simp [hcfg, State.compressed, State.packed, State.encoded, State.coded, State.built, State.counted])
      (hpayload.trans h.compressed_payload) (by rw [hbitLen, h.compressed_bitLen])
      (by rw [hcnt, hroot]; exact h.compressed_rootValid) (by rw [hroot, hhandle])
      fun k hk => (hnodes k (hcount ▸ hk)).trans (hs k hk)
    exact ⟨u, hu, huok, BitVec.eq_of_toNat_eq (htxtLen.trans s.length_text), htext⟩

end Sys2Proof.Proofs
end

section
/-! The binary64 operations of STATS (30_encoding.md R100, 47_facade.md R222) against exact rationals. The idea: a
quotient is measured in units of its last place `2^q`; the significand is the nearest integer to it, the magnitude
stands for exactly that significand, and every other finite binary64 is an integer number of the same units or lies
below the quotient's binade. -/

namespace Sys2Proof.Machine

/-! ### Powers of two -/

theorem two_zpow_pos (e : ℤ) : (0 : ℚ) < 2 ^ e := zpow_pos two_pos e

theorem pow2_pos (e : ℤ) : 0 < pow2 e := Nat.two_pow_pos _

theorem pow2_of_nonpos {e : ℤ} (he : e ≤ 0) : pow2 e = 1 := by simp [pow2, Int.toNat_of_nonpos he]

theorem cast_pow2 {e : ℤ} (he : 0 ≤ e) : (pow2 e : ℚ) = 2 ^ e := by
  rw [pow2, Nat.cast_pow, Nat.cast_ofNat, ← zpow_natCast, Int.toNat_of_nonneg he]

/-- The two halves of a scaling by `2^e`, of which one is always 1. -/
theorem pow2_eq_zpow_mul (e : ℤ) : (pow2 e : ℚ) = 2 ^ e * pow2 (-e) := by
  rcases le_total 0 e with he | he
  · simp [cast_pow2 he, pow2_of_nonpos (neg_nonpos.mpr he)]
  · rw [pow2_of_nonpos he, cast_pow2 (neg_nonneg.mpr he), ← zpow_add₀ two_ne_zero]
    simp

/-- A quotient in units of `2^e`. -/
theorem scaled_quotient (num den : ℕ) (e : ℤ) :
    ((num * pow2 (-e) : ℕ) : ℚ) / (den * pow2 e : ℕ) = (num : ℚ) / den / 2 ^ e := by
  have hp : (pow2 (-e) : ℚ) ≠ 0 := by exact_mod_cast (pow2_pos (-e)).ne'
  push_cast
  rw [pow2_eq_zpow_mul e, ← mul_assoc, mul_div_mul_right _ _ hp, div_div]

/-! ### The binade of a quotient -/

theorem lt_zpow_iff_scaled {num den : ℕ} (hden : 0 < den) (e : ℤ) :
    num * pow2 (-e) < den * pow2 e ↔ (num : ℚ) / den < 2 ^ e := by
  have hd : (0 : ℚ) < (den * pow2 e : ℕ) := by exact_mod_cast Nat.mul_pos hden (pow2_pos e)
  rw [← div_lt_one (two_zpow_pos e), ← scaled_quotient, div_lt_one hd, Nat.cast_lt]

theorem two_pow_log2_le_cast {n : ℕ} (hn : 0 < n) : (2 : ℚ) ^ (n.log2 : ℤ) ≤ n := by
  rw [zpow_natCast]
  exact_mod_cast Nat.log2_self_le hn.ne'

theorem cast_lt_two_pow_log2 (n : ℕ) : (n : ℚ) < 2 ^ ((n.log2 : ℤ) + 1) := by
  have h : n < 2 ^ (n.log2 + 1) := Nat.lt_log2_self
  exact_mod_cast h

theorem floorLog2_spec {num den : ℕ} (hnum : 0 < num) (hden : 0 < den) :
    (2 : ℚ) ^ floorLog2 num den ≤ (num : ℚ) / den ∧ (num : ℚ) / den < 2 ^ (floorLog2 num den + 1) := by
  have hd : (0 : ℚ) < den := by exact_mod_cast hden
  have hlow : (2 : ℚ) ^ ((num.log2 : ℤ) - den.log2 - 1) ≤ (num : ℚ) / den := by
    rw [le_div_iff₀ hd]
    calc (2 : ℚ) ^ ((num.log2 : ℤ) - den.log2 - 1) * den
        ≤ 2 ^ ((num.log2 : ℤ) - den.log2 - 1) * 2 ^ ((den.log2 : ℤ) + 1) :=
          mul_le_mul_of_nonneg_left (cast_lt_two_pow_log2 den).le (two_zpow_pos _).le
      _ = 2 ^ (num.log2 : ℤ) := by rw [← zpow_add₀ two_ne_zero]; congr 1; ring
      _ ≤ num := two_pow_log2_le_cast hnum
  have hhigh : (num : ℚ) / den < 2 ^ ((num.log2 : ℤ) - den.log2 + 1) := by
    rw [div_lt_iff₀ hd]
    calc (num : ℚ) < 2 ^ ((num.log2 : ℤ) + 1) := cast_lt_two_pow_log2 num
      _ = 2 ^ ((num.log2 : ℤ) - den.log2 + 1) * 2 ^ (den.log2 : ℤ) := by
          rw [← zpow_add₀ two_ne_zero]; congr 1; ring
      _ ≤ 2 ^ ((num.log2 : ℤ) - den.log2 + 1) * den :=
          mul_le_mul_of_nonneg_left (two_pow_log2_le_cast hden) (two_zpow_pos _).le
  simp only [floorLog2, lt_zpow_iff_scaled hden]
  split
  next hlt => exact ⟨hlow, by simpa using hlt⟩
  next hge => exact ⟨not_lt.mp hge, hhigh⟩

theorem floorLog2_unique {num den : ℕ} (hnum : 0 < num) (hden : 0 < den) {e : ℤ} (hle : (2 : ℚ) ^ e ≤ (num : ℚ) / den)
    (hlt : (num : ℚ) / den < 2 ^ (e + 1)) : floorLog2 num den = e := by
  obtain ⟨hle', hlt'⟩ := floorLog2_spec hnum hden
  have h₁ := (zpow_lt_zpow_iff_right₀ (one_lt_two (α := ℚ))).mp (hle.trans_lt hlt')
  have h₂ := (zpow_lt_zpow_iff_right₀ (one_lt_two (α := ℚ))).mp (hle'.trans_lt hlt)
  omega

/-! ### The nearest integer -/

/-- `m` is an integer nearest to `t`, the even one of two equally near. -/
def RoundsTo (t : ℚ) (m : ℕ) : Prop := |(m : ℚ) - t| ≤ 1 / 2 ∧ (|(m : ℚ) - t| = 1 / 2 → m % 2 = 0)

theorem roundDiv_roundsTo (num : ℕ) {den : ℕ} (hden : 0 < den) : RoundsTo ((num : ℚ) / den) (roundDiv num den) := by
  have hd : (0 : ℚ) < den := by exact_mod_cast hden
  have hquot : (num : ℚ) / den = (num / den : ℕ) + (num % den : ℕ) / den := by
    rw [div_eq_iff hd.ne', add_mul, div_mul_cancel₀ _ hd.ne']
    exact_mod_cast (Nat.div_add_mod' num den).symm
  have hrem : (0 : ℚ) ≤ (num % den : ℕ) / den := by positivity
  have hrem1 : ((num % den : ℕ) : ℚ) / den < 1 := by
    rw [div_lt_one hd]
    exact_mod_cast Nat.mod_lt num hden
  rw [hquot]
  generalize hf : ((num % den : ℕ) : ℚ) / den = f at hrem hrem1
  unfold roundDiv
  split
  next hlt =>
    have hhalf : f < 1 / 2 := by
      rw [← hf, div_lt_iff₀ hd]
      have : (2 : ℚ) * (num % den : ℕ) < den := by exact_mod_cast hlt
      linarith
    have habs : |((num / den : ℕ) : ℚ) - ((num / den : ℕ) + f)| = f := by
      rw [sub_add_cancel_left, abs_neg, abs_of_nonneg hrem]
    rw [RoundsTo, habs]
    exact ⟨hhalf.le, fun h => absurd h hhalf.ne⟩
  next hge =>
    split
    next hgt =>
      have hhalf : 1 / 2 < f := by
        rw [← hf, lt_div_iff₀ hd]
        have : (den : ℚ) < 2 * (num % den : ℕ) := by exact_mod_cast hgt
        linarith
      have habs : |((num / den + 1 : ℕ) : ℚ) - ((num / den : ℕ) + f)| = 1 - f := by
        rw [Nat.cast_succ, add_sub_add_left_eq_sub, abs_of_pos (by linarith)]
      rw [RoundsTo, habs]
      exact ⟨by linarith, fun h => by linarith⟩
    next hle =>
      have hhalf : f = 1 / 2 := by
        rw [← hf, div_eq_iff hd.ne']
        have : (den : ℚ) = 2 * (num % den : ℕ) := by exact_mod_cast (by omega : den = 2 * (num % den))
        linarith
      have hdist : ((num / den + num / den % 2 : ℕ) : ℚ) - ((num / den : ℕ) + f) = (num / den % 2 : ℕ) - 1 / 2 := by
        rw [hhalf, Nat.cast_add, add_sub_add_left_eq_sub]
      rw [RoundsTo, hdist]
      refine ⟨?_, fun _ => by omega⟩
      rcases Nat.mod_two_eq_zero_or_one (num / den) with h | h
      · norm_num [h, abs_le]
      · norm_num [h, abs_le]

/-- Every integer is at least as far from `t` as the one it rounds to. -/
theorem RoundsTo.nearest {t : ℚ} {m : ℕ} (h : RoundsTo t m) (j : ℤ) :
    |(m : ℚ) - t| ≤ |(j : ℚ) - t| ∧ (|(m : ℚ) - t| = |(j : ℚ) - t| → (j : ℚ) ≠ m → m % 2 = 0) := by
  obtain ⟨hhalf, heven⟩ := h
  rcases eq_or_ne j m with rfl | hne
  · simp
  · have hfar : (1 : ℚ) ≤ |(j : ℚ) - t| + |(m : ℚ) - t| := by
      have hint : (1 : ℤ) ≤ |j - m| := Int.one_le_abs (sub_ne_zero.mpr hne)
      calc (1 : ℚ) ≤ |(j : ℚ) - m| := by exact_mod_cast hint
        _ ≤ |(j : ℚ) - t| + |t - m| := abs_sub_le _ _ _
        _ = |(j : ℚ) - t| + |(m : ℚ) - t| := by rw [abs_sub_comm t]
    exact ⟨by linarith, fun heq _ => heven (by linarith)⟩

/-! ### The significand of a quotient -/

/-- The exponent of the unit in the last place of a quotient, as `roundMagnitude` takes it. -/
def lastPlace (num den : ℕ) : ℤ := max (floorLog2 num den - 52) (-1074)

/-- The quotient in units of its last place, rounded. -/
def significand (num den : ℕ) : ℕ :=
  roundDiv (num * pow2 (-lastPlace num den)) (den * pow2 (lastPlace num den))

theorem neg_le_lastPlace (num den : ℕ) : -1074 ≤ lastPlace num den := le_max_right _ _

theorem roundMagnitude_eq {num : ℕ} (den : ℕ) (hnum : 0 < num) :
    roundMagnitude num den =
      min ((lastPlace num den + 1074).toNat * 2 ^ 52 + significand num den) 0x7FF0000000000000 := by
  simp only [roundMagnitude, if_neg hnum.ne', lastPlace, significand]

section Quotient
variable {num den : ℕ} (hnum : 0 < num) (hden : 0 < den)
include hden

theorem significand_roundsTo : RoundsTo ((num : ℚ) / den / 2 ^ lastPlace num den) (significand num den) := by
  rw [← scaled_quotient]
  exact roundDiv_roundsTo _ (Nat.mul_pos hden (pow2_pos _))

include hnum

theorem quotient_lt_binade : (num : ℚ) / den / 2 ^ lastPlace num den < 2 ^ 53 := by
  rw [div_lt_iff₀ (two_zpow_pos _)]
  calc (num : ℚ) / den < 2 ^ (floorLog2 num den + 1) := (floorLog2_spec hnum hden).2
    _ ≤ 2 ^ ((53 : ℕ) + lastPlace num den) :=
        zpow_le_zpow_right₀ one_le_two (by have := le_max_left (floorLog2 num den - 52) (-1074); unfold lastPlace; omega)
    _ = 2 ^ 53 * 2 ^ lastPlace num den := by rw [zpow_add₀ two_ne_zero, zpow_natCast]

/-- Above the least unit the quotient fills its binade. -/
theorem binade_le_quotient (hq : lastPlace num den ≠ -1074) :
    (2 : ℚ) ^ 52 ≤ (num : ℚ) / den / 2 ^ lastPlace num den := by
  have hlast : lastPlace num den = floorLog2 num den - 52 := by unfold lastPlace at *; omega
  rw [le_div_iff₀ (two_zpow_pos _)]
  calc (2 : ℚ) ^ 52 * 2 ^ lastPlace num den = 2 ^ ((52 : ℕ) + lastPlace num den) := by
        rw [zpow_add₀ two_ne_zero, zpow_natCast]
    _ = 2 ^ floorLog2 num den := by rw [hlast]; congr 1; push_cast; ring
    _ ≤ (num : ℚ) / den := (floorLog2_spec hnum hden).1

theorem significand_le : significand num den ≤ 2 ^ 53 := by
  have hnear := abs_le.mp (significand_roundsTo (num := num) hden).1
  have hlt : (significand num den : ℚ) < (2 ^ 53 + 1 : ℕ) := by
    push_cast
    linarith [quotient_lt_binade hnum hden]
  exact Nat.lt_succ_iff.mp (by exact_mod_cast hlt)

theorem le_significand (hq : lastPlace num den ≠ -1074) : 2 ^ 52 ≤ significand num den := by
  have hnear := abs_le.mp (significand_roundsTo (num := num) hden).1
  have hlt : ((2 ^ 52 : ℕ) : ℚ) < (significand num den + 1 : ℕ) := by
    push_cast
    linarith [binade_le_quotient hnum hden hq]
  exact Nat.lt_succ_iff.mp (by exact_mod_cast hlt)

/-- Below `2^1023` the last place leaves room for the carry of the rounding. -/
theorem lastPlace_le (hlt : (num : ℚ) / den < 2 ^ 1023) : lastPlace num den ≤ 970 := by
  have h : (2 : ℚ) ^ floorLog2 num den < 2 ^ ((1023 : ℕ) : ℤ) :=
    (floorLog2_spec hnum hden).1.trans_lt (by rwa [zpow_natCast])
  have := (zpow_lt_zpow_iff_right₀ (one_lt_two (α := ℚ))).mp h
  unfold lastPlace
  omega

theorem roundMagnitude_of_lt (hlt : (num : ℚ) / den < 2 ^ 1023) :
    roundMagnitude num den = (lastPlace num den + 1074).toNat * 2 ^ 52 + significand num den := by
  rw [roundMagnitude_eq den hnum]
  have := significand_le hnum hden
  have := lastPlace_le hnum hden hlt
  have := neg_le_lastPlace num den
  omega

end Quotient

end Sys2Proof.Machine
end

section
/-! What a rounded magnitude stands for, that no finite binary64 is nearer, and the exact results that the operations of
47_facade.md R222 round. -/

namespace Sys2Proof.Machine

/-! ### The number a binary64 stands for -/

/-- The factor of a sign bit. -/
def signOf (neg : Bool) : ℚ := if neg then -1 else 1

theorem signOf_mul_self (neg : Bool) : signOf neg * signOf neg = 1 := by cases neg <;> simp [signOf]

theorem abs_signOf (neg : Bool) : |signOf neg| = 1 := by cases neg <;> simp [signOf]

theorem signOf_ne (a b : Bool) : signOf (a != b) = signOf a * signOf b := by cases a <;> cases b <;> simp [signOf]

theorem f64Value_eq (x : BitVec 64) :
    f64Value x = signOf (exactOf x).neg * (exactOf x).mant * 2 ^ (exactOf x).exp := rfl

theorem exactOf_mant_lt (x : BitVec 64) : (exactOf x).mant < 2 ^ 53 := by
  have h := (x.extractLsb' 0 52).isLt
  unfold exactOf
  dsimp only
  split <;> dsimp only <;> omega

theorem neg_le_exactOf_exp (x : BitVec 64) : -1074 ≤ (exactOf x).exp := by
  unfold exactOf
  dsimp only
  split <;> dsimp only <;> omega

/-- The bits of a sign and a magnitude. -/
def signed (neg : Bool) (n : ℕ) : BitVec 64 := BitVec.ofNat 64 ((if neg then 2 ^ 63 else 0) + n)

theorem f64Round_eq (neg : Bool) (num den : ℕ) : f64Round neg num den = signed neg (roundMagnitude num den) := rfl

section Fields
variable {n : ℕ} (hn : n < 2 ^ 63) (neg : Bool)
include hn

theorem toNat_signed : (signed neg n).toNat = (if neg then 2 ^ 63 else 0) + n := by
  rw [signed, BitVec.toNat_ofNat, Nat.mod_eq_of_lt]
  split <;> omega

theorem signed_sign : (signed neg n).getLsbD 63 = neg := by
  rw [BitVec.getLsbD, toNat_signed hn, Nat.testBit_eq_decide_div_mod_eq]
  cases neg
  · simp; omega
  · simp; omega

theorem signed_exponent : ((signed neg n).extractLsb' 52 11).toNat = n / 2 ^ 52 := by
  rw [BitVec.extractLsb'_toNat, toNat_signed hn, Nat.shiftRight_eq_div_pow]
  split <;> omega

theorem signed_fraction : ((signed neg n).extractLsb' 0 52).toNat = n % 2 ^ 52 := by
  rw [BitVec.extractLsb'_toNat, toNat_signed hn, Nat.shiftRight_zero]
  split <;> omega

theorem exactOf_signed : exactOf (signed neg n) =
    if n / 2 ^ 52 = 0 then ⟨neg, n % 2 ^ 52, -1074⟩ else ⟨neg, 2 ^ 52 + n % 2 ^ 52, (n / 2 ^ 52 : ℕ) - 1075⟩ := by
  simp only [exactOf, signed_sign hn, signed_exponent hn, signed_fraction hn]

end Fields

/-- A significand `m` of up to 53 bits, or the carry `2^53`, on top of an exponent field that counts from the least unit
stands for `m × 2^q`: a carry moves into the next binade. -/
theorem decode_magnitude (neg : Bool) {k m : ℕ} (hm : m ≤ 2 ^ 53) (hmin : k ≠ 0 → 2 ^ 52 ≤ m) (hk : k ≤ 2044) :
    F64Finite (signed neg (k * 2 ^ 52 + m)) ∧
    f64Value (signed neg (k * 2 ^ 52 + m)) = signOf neg * m * 2 ^ ((k : ℤ) - 1074) ∧
    (m % 2 = 0 → (exactOf (signed neg (k * 2 ^ 52 + m))).mant % 2 = 0) := by
  have hn : k * 2 ^ 52 + m < 2 ^ 63 := by omega
  refine ⟨by rw [F64Finite, signed_exponent hn]; omega, ?_⟩
  rw [f64Value_eq, exactOf_signed hn]
  rcases lt_or_ge m (2 ^ 52) with hsub | hge
  · obtain rfl : k = 0 := by omega
    rw [if_pos (by omega), zero_mul, zero_add, Nat.mod_eq_of_lt hsub]
    exact ⟨by norm_num, fun h => h⟩
  · rw [if_neg (by omega)]
    rcases Nat.lt_or_ge m (2 ^ 53) with hnormal | hcarry
    · have hfield : (k * 2 ^ 52 + m) / 2 ^ 52 = k + 1 := by omega
      have hfrac : 2 ^ 52 + (k * 2 ^ 52 + m) % 2 ^ 52 = m := by omega
      rw [hfield, hfrac]
      refine ⟨?_, fun h => h⟩
      congr 2
      push_cast
      ring
    · obtain rfl : m = 2 ^ 53 := by omega
      have hfield : (k * 2 ^ 52 + 2 ^ 53) / 2 ^ 52 = k + 2 := by omega
      have hfrac : 2 ^ 52 + (k * 2 ^ 52 + 2 ^ 53) % 2 ^ 52 = 2 ^ 52 := by omega
      rw [hfield, hfrac]
      refine ⟨?_, fun _ => by norm_num⟩
      have hexp : ((k + 2 : ℕ) : ℤ) - 1075 = ((k : ℤ) - 1074) + 1 := by push_cast; ring
      dsimp only
      rw [hexp, zpow_add_one₀ two_ne_zero]
      push_cast
      ring

/-! ### Nearest -/

/-- Every finite binary64 is an integer number of units `2^q`, or lies below the binade of that unit. -/
theorem f64Value_multiple_or_small (y : BitVec 64) (q : ℤ) :
    (∃ j : ℤ, f64Value y = j * 2 ^ q) ∨ (q ≠ -1074 ∧ |f64Value y| < 2 ^ 52 * 2 ^ q) := by
  rcases le_or_gt q (exactOf y).exp with hle | hlt
  · refine .inl ⟨(if (exactOf y).neg then -1 else 1) * (exactOf y).mant * 2 ^ ((exactOf y).exp - q).toNat, ?_⟩
    have hpow : (2 : ℚ) ^ (exactOf y).exp = 2 ^ ((exactOf y).exp - q).toNat * 2 ^ q := by
      rw [← zpow_natCast, Int.toNat_of_nonneg (by omega), ← zpow_add₀ two_ne_zero, sub_add_cancel]
    rw [f64Value_eq, hpow, signOf]
    push_cast
    ring
  · have hmant : ((exactOf y).mant : ℚ) < 2 ^ 53 := by exact_mod_cast exactOf_mant_lt y
    refine .inr ⟨by have := neg_le_exactOf_exp y; omega, ?_⟩
    rw [f64Value_eq, abs_mul, abs_mul, abs_signOf, one_mul, Nat.abs_cast, abs_of_pos (two_zpow_pos _)]
    calc ((exactOf y).mant : ℚ) * 2 ^ (exactOf y).exp
        < 2 ^ 53 * 2 ^ (exactOf y).exp := mul_lt_mul_of_pos_right hmant (two_zpow_pos _)
      _ ≤ 2 ^ 53 * 2 ^ (q - 1) :=
          mul_le_mul_of_nonneg_left (zpow_le_zpow_right₀ one_le_two (by omega)) (by positivity)
      _ = 2 ^ 52 * 2 ^ q := by rw [zpow_sub_one₀ two_ne_zero]; ring

/-- Nearest in units: an integer, or a number below the binade of `t`, is no nearer to `t` than the integer `t` rounds
to. -/
theorem RoundsTo.nearest_of_integer_or_small {t w : ℚ} {m : ℕ} (hround : RoundsTo t m)
    (hw : (∃ j : ℤ, w = j) ∨ (2 ^ 52 ≤ t ∧ |w| < 2 ^ 52)) :
    |(m : ℚ) - t| ≤ |w - t| ∧ (|(m : ℚ) - t| = |w - t| → w ≠ m → m % 2 = 0) := by
  rcases hw with ⟨j, rfl⟩ | ⟨ht, hsmall⟩
  · exact hround.nearest j
  · have hedge : |(m : ℚ) - t| ≤ |((2 ^ 52 : ℤ) : ℚ) - t| := (hround.nearest _).1
    rw [Int.cast_pow, Int.cast_ofNat] at hedge
    rw [abs_of_nonpos (by linarith : (2 : ℚ) ^ 52 - t ≤ 0)] at hedge
    have hw := (abs_lt.mp hsmall).2
    rw [abs_of_neg (by linarith : w - t < 0)]
    exact ⟨by linarith, fun heq => by linarith⟩

theorem abs_sub_in_units (neg : Bool) (u r : ℚ) (q : ℤ) :
    |signOf neg * u * 2 ^ q - signOf neg * r| = |u - r / 2 ^ q| * 2 ^ q := by
  have hq := two_zpow_pos q
  have hsplit : signOf neg * u * 2 ^ q - signOf neg * r = signOf neg * ((u - r / 2 ^ q) * 2 ^ q) := by
    field_simp
  rw [hsplit, abs_mul, abs_signOf, one_mul, abs_mul, abs_of_pos hq]

/-- A value with the sign and the unit taken out. -/
theorem exists_in_units (neg : Bool) (v : ℚ) (q : ℤ) : v = signOf neg * (signOf neg * v / 2 ^ q) * 2 ^ q := by
  have hq := (two_zpow_pos q).ne'
  rw [← mul_div_assoc, ← mul_assoc, signOf_mul_self, one_mul, div_mul_cancel₀ _ hq]

/-- `signOf neg * m * 2^q` is nearest to `signOf neg * r` among the values of the finite binary64s. -/
theorem nearest_of_units {r : ℚ} {m : ℕ} {q : ℤ} (neg : Bool) (hround : RoundsTo (r / 2 ^ q) m)
    (hbinade : q ≠ -1074 → 2 ^ 52 ≤ r / 2 ^ q) (y : BitVec 64) :
    |signOf neg * m * 2 ^ q - signOf neg * r| ≤ |f64Value y - signOf neg * r| ∧
    (|signOf neg * m * 2 ^ q - signOf neg * r| = |f64Value y - signOf neg * r| →
      f64Value y ≠ signOf neg * m * 2 ^ q → m % 2 = 0) := by
  have hq := two_zpow_pos q
  have hw : (∃ j : ℤ, signOf neg * f64Value y / 2 ^ q = j) ∨
      (2 ^ 52 ≤ r / 2 ^ q ∧ |signOf neg * f64Value y / 2 ^ q| < 2 ^ 52) := by
    rcases f64Value_multiple_or_small y q with ⟨j, hj⟩ | ⟨hne, hsmall⟩
    · refine .inl ⟨if neg then -j else j, ?_⟩
      rw [hj, ← mul_assoc, mul_div_cancel_right₀ _ hq.ne']
      cases neg <;> simp [signOf]
    · refine .inr ⟨hbinade hne, ?_⟩
      rwa [abs_div, abs_mul, abs_signOf, one_mul, abs_of_pos hq, div_lt_iff₀ hq]
  obtain ⟨hle, htie⟩ := hround.nearest_of_integer_or_small hw
  rw [exists_in_units neg (f64Value y) q, abs_sub_in_units, abs_sub_in_units]
  refine ⟨mul_le_mul_of_nonneg_right hle hq.le, fun heq hne => htie (mul_right_cancel₀ hq.ne' heq) fun h => hne ?_⟩
  rw [h]

/-- What `f64Round` gives for a quotient below `2^1023`. -/
theorem f64Round_decode (neg : Bool) {num den : ℕ} (hnum : 0 < num) (hden : 0 < den)
    (hlt : (num : ℚ) / den < 2 ^ 1023) :
    F64Finite (f64Round neg num den) ∧
    f64Value (f64Round neg num den) = signOf neg * significand num den * 2 ^ lastPlace num den ∧
    (significand num den % 2 = 0 → (exactOf (f64Round neg num den)).mant % 2 = 0) := by
  have hq := neg_le_lastPlace num den
  have hq' := lastPlace_le hnum hden hlt
  have h := decode_magnitude neg (k := (lastPlace num den + 1074).toNat) (significand_le hnum hden)
    (fun hk => le_significand hnum hden (by omega)) (by omega)
  rw [Int.toNat_of_nonneg (by omega), add_sub_cancel_right] at h
  rwa [f64Round_eq, roundMagnitude_of_lt hnum hden hlt]

theorem f64Round_zero_decode (neg : Bool) (den : ℕ) :
    F64Finite (f64Round neg 0 den) ∧ f64Value (f64Round neg 0 den) = 0 := by
  have h := decode_magnitude neg (k := 0) (m := 0) (by omega) (by omega) (by omega)
  rw [f64Round_eq, roundMagnitude, if_pos rfl]
  exact ⟨h.1, by simpa using h.2.1⟩

theorem f64Round_nearest (neg : Bool) (num : ℕ) {den : ℕ} (hden : 0 < den) (hlt : (num : ℚ) / den < 2 ^ 1023) :
    F64Nearest (f64Round neg num den) (signOf neg * ((num : ℚ) / den)) := by
  rcases Nat.eq_zero_or_pos num with rfl | hnum
  · obtain ⟨hfin, hval⟩ := f64Round_zero_decode neg den
    refine ⟨hfin, fun y _ => ?_⟩
    rw [hval, Nat.cast_zero, zero_div, mul_zero, sub_zero, sub_zero, abs_zero]
    exact ⟨abs_nonneg _, fun heq hne => absurd (abs_eq_zero.mp heq.symm) hne⟩
  · obtain ⟨hfin, hval, heven⟩ := f64Round_decode neg hnum hden hlt
    refine ⟨hfin, fun y _ => ?_⟩
    rw [hval]
    obtain ⟨hle, htie⟩ := nearest_of_units neg (significand_roundsTo hden) (binade_le_quotient hnum hden) y
    exact ⟨hle, fun heq hne => heven (htie heq hne)⟩

/-- The form the operations use: the quotient and the sign are those of the exact result. -/
theorem f64Round_nearest_of_eq {r : ℚ} {neg : Bool} {num den : ℕ} (hden : 0 < den)
    (hr : signOf neg * ((num : ℚ) / den) = r) (hlt : |r| < 2 ^ 1023) : F64Nearest (f64Round neg num den) r := by
  subst hr
  rw [abs_mul, abs_signOf, one_mul, abs_of_nonneg (div_nonneg num.cast_nonneg den.cast_nonneg)] at hlt
  exact f64Round_nearest neg num hden hlt

/-! ### The operations (47_facade.md R222) -/

/-- A product with the two halves of a scaling by `2^e` as its numerator's and denominator's factor. -/
theorem mul_pow2_div_pow2_neg (n : ℕ) (e : ℤ) : ((n * pow2 e : ℕ) : ℚ) / (pow2 (-e) : ℕ) = n * 2 ^ e := by
  have h := scaled_quotient n 1 (-e)
  rwa [neg_neg, one_mul, Nat.cast_one, div_one, zpow_neg, div_inv_eq_mul] at h

/-- The quotient `fdiv` rounds, with the sign it takes, is that of the values. -/
theorem fdiv_quotient (a b : BitVec 64) :
    signOf ((exactOf a).neg != (exactOf b).neg) *
      (((exactOf a).mant * pow2 ((exactOf a).exp - (exactOf b).exp) : ℕ) /
        ((exactOf b).mant * pow2 ((exactOf b).exp - (exactOf a).exp) : ℕ)) = f64Value a / f64Value b := by
  have hquot := scaled_quotient (exactOf a).mant (exactOf b).mant ((exactOf b).exp - (exactOf a).exp)
  have hsign : signOf (exactOf b).neg = (signOf (exactOf b).neg)⁻¹ := by cases (exactOf b).neg <;> simp [signOf]
  rw [neg_sub] at hquot
  rw [hquot, signOf_ne, hsign, f64Value_eq, f64Value_eq, zpow_sub₀ two_ne_zero]
  field_simp

theorem fdiv_nearest (a b : BitVec 64) (hb : f64Value b ≠ 0) (hlt : |f64Value a / f64Value b| < 2 ^ 1023) :
    F64Nearest (fdiv a b) (f64Value a / f64Value b) := by
  have hmant : (exactOf b).mant ≠ 0 := fun h => hb (by simp [f64Value_eq, h])
  exact f64Round_nearest_of_eq (Nat.mul_pos (Nat.pos_of_ne_zero hmant) (pow2_pos _)) (fdiv_quotient a b) hlt

theorem fmul_nearest (a b : BitVec 64) (hlt : |f64Value a * f64Value b| < 2 ^ 1023) :
    F64Nearest (fmul a b) (f64Value a * f64Value b) := by
  refine f64Round_nearest_of_eq (pow2_pos _) ?_ hlt
  rw [mul_pow2_div_pow2_neg, signOf_ne, f64Value_eq, f64Value_eq, zpow_add₀ two_ne_zero]
  push_cast
  ring

theorem scaled_mul_zpow (x : Exact) {e : ℤ} (he : e ≤ x.exp) :
    (x.scaled e : ℚ) * 2 ^ e = signOf x.neg * x.mant * 2 ^ x.exp := by
  have hpow : (2 : ℚ) ^ x.exp = pow2 (x.exp - e) * 2 ^ e := by
    rw [cast_pow2 (by omega), ← zpow_add₀ two_ne_zero, sub_add_cancel]
  have hscaled : (x.scaled e : ℚ) = signOf x.neg * (x.mant * pow2 (x.exp - e)) := by
    unfold Exact.scaled signOf
    split <;> push_cast <;> ring
  rw [hscaled, hpow]
  ring

/-- Sign and magnitude of an integer; the sign of a zero is free. -/
theorem signOf_mul_natAbs (z : Bool) (d : ℤ) :
    signOf (if d = 0 then z else d < 0) * (d.natAbs : ℚ) = d := by
  split
  next h => simp [h]
  next h =>
    rw [Nat.cast_natAbs, Int.cast_abs]
    rcases lt_or_ge d 0 with hneg | hpos
    · have hneg' : (d : ℚ) < 0 := by exact_mod_cast hneg
      simp [signOf, hneg, abs_of_neg hneg']
    · have hpos' : (0 : ℚ) ≤ d := by exact_mod_cast hpos
      simp [signOf, not_lt.mpr hpos, abs_of_nonneg hpos']

theorem fsub_nearest (a b : BitVec 64) (hlt : |f64Value a - f64Value b| < 2 ^ 1023) :
    F64Nearest (fsub a b) (f64Value a - f64Value b) := by
  refine f64Round_nearest_of_eq (pow2_pos _) ?_ hlt
  rw [mul_pow2_div_pow2_neg, ← mul_assoc, signOf_mul_natAbs, Int.cast_sub, sub_mul,
    scaled_mul_zpow _ (min_le_left _ _), scaled_mul_zpow _ (min_le_right _ _), f64Value_eq, f64Value_eq]

theorem toF_exact (w : Word) : F64Finite (toF w) ∧ f64Value (toF w) = w.toNat := by
  rcases Nat.eq_zero_or_pos w.toNat with hw | hw
  · rw [toF, hw, Nat.cast_zero]
    exact f64Round_zero_decode false 1
  · have hw32 : (w.toNat : ℚ) < 2 ^ 32 := by exact_mod_cast w.isLt
    obtain ⟨hfin, hval, -⟩ := f64Round_decode false hw one_pos
      (by rw [Nat.cast_one, div_one]; exact hw32.trans (pow_lt_pow_right₀ one_lt_two (by norm_num)))
    have hplace : lastPlace w.toNat 1 ≤ 0 := by
      have hlog := (floorLog2_spec hw one_pos).1
      rw [Nat.cast_one, div_one] at hlog
      have := (zpow_lt_zpow_iff_right₀ (one_lt_two (α := ℚ)) (m := floorLog2 w.toNat 1) (n := (32 : ℕ))).mp
        (hlog.trans_lt (by rwa [zpow_natCast]))
      unfold lastPlace
      omega
    refine ⟨hfin, ?_⟩
    have hsig : significand w.toNat 1 = w.toNat * pow2 (-lastPlace w.toNat 1) := by
      rw [significand, pow2_of_nonpos hplace, roundDiv]
      simp [Nat.mod_one]
    rw [toF, hval, hsig, Nat.cast_mul, cast_pow2 (by omega), zpow_neg]
    simp [signOf, (two_zpow_pos _).ne']

end Sys2Proof.Machine
end

section
/-! Statement of the family 47_facade.md: the binary64 operations. -/

namespace Sys2Proof.Proofs

open Sys2Proof.Machine

/-- Settles O54: a result is the nearest integer number of units in its last place (`f64Round_nearest`), and the quotient
each operation rounds is its exact result. -/
theorem binaryOperationsRoundOnceToNearest : Obligations.BinaryOperationsRoundOnceToNearest :=
  ⟨toF_exact, fun a b _ _ => ⟨fdiv_nearest a b, fsub_nearest a b, fmul_nearest a b⟩⟩

end Sys2Proof.Proofs
end

section
/-! COMPRESS of one repeated symbol (47_facade.md R228): its ratio of 0.125 whatever the length, and its code. -/

namespace Sys2Proof.Machine

/-! ### A quotient rounds by its value -/

section Scale
variable {c num den : ℕ} (hc : 0 < c)
include hc

theorem roundDiv_mul_left (a b : ℕ) : roundDiv (c * a) (c * b) = roundDiv a b := by
  have hmod : ∀ x, 2 * (c * x) = c * (2 * x) := fun x => Nat.mul_left_comm 2 c x
  simp only [roundDiv, Nat.mul_mod_mul_left, Nat.mul_div_mul_left _ _ hc, hmod, Nat.mul_lt_mul_left hc]

variable (hnum : 0 < num) (hden : 0 < den)
include hnum hden

theorem floorLog2_mul_left : floorLog2 (c * num) (c * den) = floorLog2 num den := by
  have hquot : ((c * num : ℕ) : ℚ) / (c * den : ℕ) = (num : ℚ) / den := by
    push_cast
    exact mul_div_mul_left _ _ (by exact_mod_cast hc.ne')
  obtain ⟨hle, hlt⟩ := floorLog2_spec hnum hden
  exact floorLog2_unique (Nat.mul_pos hc hnum) (Nat.mul_pos hc hden) (hquot ▸ hle) (hquot ▸ hlt)

theorem roundMagnitude_mul_left : roundMagnitude (c * num) (c * den) = roundMagnitude num den := by
  rw [roundMagnitude_eq _ (Nat.mul_pos hc hnum), roundMagnitude_eq _ hnum]
  simp only [lastPlace, significand, floorLog2_mul_left hc hnum hden, Nat.mul_assoc, roundDiv_mul_left hc]

end Scale

theorem roundMagnitude_lt (num den : ℕ) : roundMagnitude num den < 2 ^ 63 := by
  unfold roundMagnitude
  split
  · norm_num
  · exact (min_le_right _ _).trans_lt (by norm_num)

theorem exactOf_neg (x : BitVec 64) : (exactOf x).neg = x.getLsbD 63 := by
  unfold exactOf
  dsimp only
  split <;> rfl

theorem toF_neg (w : Word) : (exactOf (toF w)).neg = false := by
  rw [exactOf_neg, toF, f64Round_eq, signed_sign (roundMagnitude_lt _ _)]

theorem eq_mul_eight_of_div_eq {num den : ℕ} (h : (num : ℚ) / den = 8⁻¹) : 0 < num ∧ num * 8 = den := by
  have hnum : num ≠ 0 := fun h0 => by norm_num [h0] at h
  have hden : (den : ℚ) ≠ 0 := fun h0 => by norm_num [h0] at h
  have heq : (num : ℚ) * 8 = den := by linarith [(div_eq_iff hden).mp h]
  exact ⟨Nat.pos_of_ne_zero hnum, by exact_mod_cast heq⟩

/-- The magnitude of 0.125. -/
theorem roundMagnitude_eighth {num : ℕ} (hnum : 0 < num) : roundMagnitude num (num * 8) = 0x3FC0000000000000 := by
  have h := roundMagnitude_mul_left (num := 1) (den := 8) hnum one_pos (by decide)
  rw [Nat.mul_one] at h
  exact h.trans (by decide +kernel)

/-- A positive number over eight times itself: 0.125. -/
theorem ratioOf_eq_eighth {comp orig : Word} (hpos : 0 < comp.toNat) (horig : orig.toNat = 8 * comp.toNat) :
    ratioOf comp orig = 0x3FC0000000000000#64 := by
  have hcomp : (0 : ℚ) < comp.toNat := by exact_mod_cast hpos
  have hquot := fdiv_quotient (toF comp) (toF orig)
  rw [(toF_exact comp).2, (toF_exact orig).2, horig, Nat.cast_mul 8, Nat.cast_ofNat,
    div_mul_cancel_right₀ hcomp.ne', toF_neg, toF_neg, bne_self_eq_false, signOf, if_neg Bool.false_ne_true, one_mul] at hquot
  obtain ⟨hnum, heq⟩ := eq_mul_eight_of_div_eq hquot
  simp only [ratioOf, fdiv, toF_neg, bne_self_eq_false, f64Round_eq, ← heq, roundMagnitude_eighth hnum]
  decide +kernel

theorem savingsOf_eighth : savingsOf 0x3FC0000000000000#64 = 0x4055E00000000000#64 := by decide +kernel

/-! ### The text of one repeated symbol -/

section Repeated
variable {m : ℕ} (hm : 1 ≤ m) (x : Symbol)
include hm

theorem eraseDups_replicate : (List.replicate m x).eraseDups = [x] := by
  obtain ⟨k, rfl⟩ := Nat.exists_eq_add_of_le' hm
  simp [List.replicate_succ, List.eraseDups_cons]

theorem tally_replicate : tally (List.replicate m x) = [⟨x, BitVec.ofNat 32 m⟩] := by
  simp [tally, tallyRow, eraseDups_replicate hm]

theorem huffmanRows_replicate : huffmanRows (List.replicate m x) = [⟨x, [false]⟩] :=
  huffmanRows_of_single (eraseDups_replicate hm x)

theorem huffmanBits_replicate : huffmanBits (List.replicate m x) = List.replicate m false := by
  have hcode : lookupCode [⟨x, [false]⟩] x = some [false] := by simp [lookupCode]
  rw [huffmanBits, huffmanRows_replicate hm]
  clear hm
  induction m with
  | zero => rfl
  | succ k ih => rw [List.replicate_succ, codesOf_cons hcode, ih, List.replicate_succ, List.singleton_append]

end Repeated

theorem State.compressFits_of_replicate {s : State} {m : ℕ} {x : Symbol} (hv : s.cfg.Valid) (hm : 1 ≤ m)
    (htxt : m ≤ s.cfg.maxTxt) (hbits : m ≤ s.cfg.maxBits) (htext : s.text = List.replicate m x) : s.CompressFits := by
  have hlen : s.txtLen.toNat = m := by rw [← s.length_text, htext, List.length_replicate]
  have ⟨_, _, ⟨hsyms, _⟩, _⟩ := hv
  exact {
    valid := hv
    ne_zero := fun h => by simp [h] at hlen; omega
    fits := ⟨hlen ▸ htxt, by rw [htext, eraseDups_replicate hm]; exact hsyms⟩
    bits := by rwa [htext, huffmanBits_replicate hm, List.length_replicate] }

end Sys2Proof.Machine
end

section
/-! Statement of the family 47_facade.md: COMPRESS of one repeated symbol. -/

namespace Sys2Proof.Proofs

open Sys2Proof.Machine

/-- Settles O49: the one distinct symbol gets the code "0", and a number over eight times itself is 0.125. -/
theorem compressOfOneRepeatedSymbol : Obligations.CompressOfOneRepeatedSymbol := by
  intro s x m hv hm htxt hbits htext
  have h : s.CompressFits := State.compressFits_of_replicate hv hm htxt hbits htext
  have hlen : s.txtLen.toNat = m := by rw [← s.length_text, htext, List.length_replicate]
  have hone : s.text.eraseDups = [x] := htext ▸ eraseDups_replicate hm x
  have hhuffman : huffmanBits s.text = List.replicate m false := htext ▸ huffmanBits_replicate hm x
  have hbitLen : s.compressed.bitLen.toNat = m := by rw [h.compressed_bitLen, hhuffman, List.length_replicate]
  have horig : s.compressed.origBits.toNat = 8 * m := hlen ▸ h.compressed_origBits
  obtain ⟨hcount, hhandle, -⟩ := h.compressed_tree
  have hratio : s.compressed.ratio = 0x3FC0000000000000#64 :=
    ratioOf_eq_eighth (hm.trans_eq hbitLen.symm) (horig.trans (congrArg (8 * ·) hbitLen.symm))
  refine ⟨_, h.exec_compress h.bits, s.endedOk_compressed, ?_, BitVec.eq_of_toNat_eq ?_, BitVec.eq_of_toNat_eq ?_, ?_, ?_,
    hbitLen, hbitLen, horig, hratio, (congrArg savingsOf hratio).trans savingsOf_eighth⟩
  · rw [h.compressed_freqTable, htext, tally_replicate hm]
  · rw [hcount, huffmanTree_of_single hone]
    rfl
  · rw [hhandle, huffmanRoot_of_single hone]
    rfl
  · rw [h.compressed_codeTable, huffmanRows_of_single hone]
  · rw [h.compressed_bitSeq, hhuffman]

end Sys2Proof.Proofs
end

section
/-! What the statements of the families 60_exceptions.md and 70_reset_and_hazards.md rest on: an illegal command word (R248),
the errors of COMPRESS and their codes (R240, R244), the errors of PACK and UNPACK (R252), and the event Reset (R271). -/

namespace Sys2Proof.Machine

variable {s : State} {r : Run} {l : List ErrKind} {kind : ErrKind} {info w : Word}

/-! ### An illegal command word -/

/-- The words of the ten commands (30_encoding.md R91). -/
theorem toNat_of_decode {i : Instr} (h : decode w = .ok i) : (1 ≤ w.toNat ∧ w.toNat ≤ 9) ∨ w.toNat = 15 := by
  rw [Laws.eq_encode_of_decode h]
  cases i <;> decide

theorem exists_decode_eq_error (hrange : ¬ (1 ≤ w.toNat ∧ w.toNat ≤ 9)) (hclear : w.toNat ≠ 15) :
    ∃ e, decode w = .error e := by
  cases h : decode w with
  | ok i => exact absurd (toNat_of_decode h) (not_or.2 ⟨hrange, hclear⟩)
  | error e => exact ⟨e, rfl⟩

theorem State.memWrite_cmd_illegal {e : Reject} (h : decode w = .error e) (s : State) :
    s.memWrite 0 0 w = s.illegalCommand w := by
  change s.cmdWrite w = _
  simp only [State.cmdWrite, h]

/-- An idle block has nothing else for the entry of the error to change. -/
theorem State.illegalCommand_of_idle (h : ControlOk s) (hr : s.running = none) (w : Word) :
    s.illegalCommand w = { s with status := statusError, err := 8#8, errInfo := w } := by
  obtain ⟨hphase, hwork, hbusy, -⟩ := h.idle hr
  simp only [State.illegalCommand, State.errorEntry, ErrKind.code, hphase, hwork, hbusy, hr]

/-! ### The errors of a run and their codes -/

/-- CSR.ERR tells the errors apart (60_exceptions.md R240). -/
theorem ErrKind.code_injective : Function.Injective ErrKind.code := by
  intro a b
  cases a <;> cases b <;> decide

/-- A run ends with an error it can raise. -/
theorem Run.RaisesOnly.mem_of_endedWith (h : r.RaisesOnly l) (hend : r.finish.EndedWith kind info) : kind ∈ l := by
  cases r with
  | ok t => exact absurd t.endedOk_commandEnd hend.not_endedOk
  | raised t e =>
    obtain ⟨-, hcode, -⟩ := hend
    exact ErrKind.code_injective hcode ▸ h

theorem stageStats_raisesOnly (s : State) : (stageStats s).RaisesOnly l := by
  rcases stageStats_cases s with ⟨-, h⟩ | ⟨-, h⟩ <;> rw [h] <;> trivial

theorem stageBuild_raisesOnly_of_ne (h : s.ftCnt ≠ 0) : (stageBuild s).RaisesOnly l := by
  rw [stageBuild, if_neg h]
  trivial

/-- What the stages of COMPRESS list, less BUILD's EmptyTable. Legal parameters leave only CapacityExceeded (47_facade.md R220),
which no proof about EmptyTable needs. -/
def compressErrors : List ErrKind := [.badTree, .missingCode, .capacityExceeded]

/-- COMPRESS runs BUILD on a table that is not empty only, so no stage of it raises EmptyTable (60_exceptions.md R244). -/
theorem compressRun_raisesOnly (s : State) : (compressRun s).RaisesOnly compressErrors := by
  have stage (i : Instr) (hi : i ≠ .compress) (hi' : i ≠ .decompress) (hl : raises i ⊆ compressErrors) (t : State) :
      (runStage (firstStage i) t).RaisesOnly compressErrors := (runStage_raisesOnly hi hi' t).mono hl
  refine (stage .freq (by simp) (by simp) (by decide) s).andThen fun t => ?_
  by_cases hzero : t.ftCnt = 0
  · rw [stagesAfterFreq_of_zero hzero]
    refine runStages_raisesOnly (fun p hp u => ?_) t
    obtain rfl := List.mem_singleton.1 hp
    exact stageStats_raisesOnly u
  · rw [stagesAfterFreq_of_ne hzero]
    refine (stageBuild_raisesOnly_of_ne hzero).andThen (runStages_raisesOnly fun p hp u => ?_)
    simp only [List.mem_cons, List.not_mem_nil, or_false] at hp
    rcases hp with rfl | rfl | rfl | rfl
    · exact stage .gen (by simp) (by simp) (by decide) u
    · exact stage .encode (by simp) (by simp) (by decide) u
    · exact stage .pack (by simp) (by simp) (by decide) u
    · exact stageStats_raisesOnly u

theorem exec_build_of_zero (h : s.ftCnt = 0) : ∃ t, exec .build s = .next t ∧ t.EndedWith .emptyTable 0 := by
  rw [exec_eq_runOf, show runOf .build s = stageBuild s from rfl, stageBuild, if_pos h]
  exact ⟨_, rfl, State.endedWith_errorEntry _ _⟩

/-! ### The errors of PACK and UNPACK -/

theorem exec_pack_of_lt (h : s.cfg.maxBits < s.bitLen.toNat) :
    ∃ t, exec .pack s = .next t ∧ t.EndedWith .capacityExceeded 0 := by
  rw [exec_eq_runOf, show runOf .pack s = stagePack s from rfl, stagePack, State.packResult, if_pos h]
  exact ⟨_, rfl, State.endedWith_errorEntry _ capacityExceeded⟩

theorem State.unpackResult_of_over (h : s.cfg.maxPay < s.payLen.toNat ∨ s.cfg.maxBits < s.bitLen.toNat) :
    s.unpackResult = .error capacityExceeded := by
  unfold State.unpackResult
  split
  · rfl
  · exact if_pos (h.resolve_left ‹_›)

theorem unpackBits_of_not_b64 {payload : List Byte} (h : ∀ bytes, b64Enc bytes ≠ payload) (n : Nat) :
    unpackBits payload n = .error ⟨.invalidCharacterEncoding, 0⟩ := by
  have hnone : b64Dec payload = none :=
    Option.eq_none_iff_forall_ne_some.2 fun bytes hdec => h bytes (b64Dec_eq_some_iff.1 hdec)
  simp only [unpackBits, hnone]

theorem unpackBits_of_too_long {payload bytes : List Byte} {n : Nat} (h : b64Enc bytes = payload)
    (hn : 8 * bytes.length < n) :
    unpackBits payload n = .error ⟨.bitLengthOutOfRange, BitVec.ofNat 32 (8 * bytes.length)⟩ := by
  simp only [unpackBits, b64Dec_eq_some_iff.2 h, if_pos hn]

/-! ### The event Reset -/

/-- Reset is served idle and busy alike (70_reset_and_hazards.md R270). -/
theorem step_of_reset {rest : List HostEvent} (hp : s.port = .reset :: rest) (h : s.running = none ∨ s.busyLeft ≠ 0) :
    step s = .next ({ s with port := rest } : State).hostReset := by
  cases hr : s.running with
  | none => simp only [step, advance, hr, hp, State.serve]
  | some w =>
    obtain ⟨n, hn⟩ := Nat.exists_eq_succ_of_ne_zero (h.resolve_left (by simp [hr]))
    simp only [step, advance, hr, hp, hn, State.serveBusy]
    rfl

theorem State.csrRead_of_le {x : Nat} (hx : 18 ≤ x) (s : State) : s.csrRead x = 0 := by
  unfold State.csrRead
  split
  case h_18 => rfl
  all_goals omega

/-- The CSRs of a block that the event has reset read as those of the state after reset. -/
theorem State.csrRead_hostReset (s : State) (x : Nat) : s.hostReset.csrRead x = State.reset.csrRead x := rfl

end Sys2Proof.Machine
end

section
/-! The statements of the families 60_exceptions.md and 70_reset_and_hazards.md. -/

namespace Sys2Proof.Proofs

open Sys2Proof.Machine

/-- Settles O6: the word decodes to no command, so the write is the entry of the error, and an idle block has its PHASE and
its working registers as the entry sets them. -/
theorem illegalWordEndsWithIllegalCommand : Obligations.IllegalWordEndsWithIllegalCommand := by
  intro s rest w hok hr hp hrange hclear
  obtain ⟨e, he⟩ := exists_decode_eq_error hrange hclear
  have hstep : step s = .next { s.illegalCommand w with port := rest } := by
    rw [← State.memWrite_cmd_illegal he, ← State.memWrite_withPort]
    simp only [step, advance, hr, hp, State.serve]
  rw [hstep, State.illegalCommand_of_idle hok hr]
  rfl

/-- Settles O45: the capacities are checked before the payload, and the payload before the number of its bits. -/
theorem packerTrapsInOrder : Obligations.PackerTrapsInOrder :=
  ⟨fun _ => exec_pack_of_lt,
    fun _ h => exec_unpack_of_error (State.unpackResult_of_over h),
    fun _ hp hb h => exec_unpack_of_error ((State.unpackResult_of_le hp hb).trans (unpackBits_of_not_b64 h _)),
    fun _ _ hp hb h hn => exec_unpack_of_error ((State.unpackResult_of_le hp hb).trans (unpackBits_of_too_long h hn))⟩

/-- Settles O28: no stage of COMPRESS raises EmptyTable, as BUILD runs only behind a FREQ that left entries. -/
theorem buildTrapsOnTheEmptyTable : Obligations.BuildTrapsOnTheEmptyTable := by
  refine ⟨fun _ => exec_build_of_zero, fun s t info ht hend => ?_⟩
  obtain rfl := Host.Outcome.next.inj ((exec_compress s).symm.trans ht)
  exact absurd ((compressRun_raisesOnly s).mem_of_endedWith hend) (by decide)

/-- Settles O14: the CSRs read as after reset, which is said of the 18 there are. -/
theorem resetEventFromAnyState : Obligations.ResetEventFromAnyState := by
  intro s rest hp h
  refine ⟨_, step_of_reset hp h, fun x => ?_, rfl, rfl, rfl, rfl, rfl, rfl, rfl, rfl, rfl, rfl⟩
  obtain ⟨hcsr, -⟩ := resetStateIsTheSpecs
  rw [State.csrRead_hostReset]
  rcases Nat.lt_or_ge x 18 with hx | hx
  · exact hcsr x hx
  · exact (State.csrRead_of_le hx _).trans (if_neg (by omega)).symm

end Sys2Proof.Proofs
end
